-- ==== Sys2Proof/Word.lean ====
section
/-! DEFINITION. The one machine word of the block: the 8-bit byte of WAVE memory and of the packed
register arguments (spec/30_encoding.md R104 to R108, spec/20_memory.md R80). Every other quantity of
the spec is an exact natural, integer or rational (spec/00_scope.md R14). -/

namespace Sys2Proof

/-- An 8-bit unsigned value, bits 7 to 0 (R13). -/
abbrev Byte := BitVec 8

end Sys2Proof
end

