-- ==== Sys2Proof/Config.lean ====
section
/-! DEFINITION. What an implementation fixes: the constants the spec states or derives
(spec/00_scope.md R8 to R12) and its OPEN parameters (R11), each an opaque constant of which nothing
but its type is known. The machine reads the parameters from `State.params`, so that a claim holds for
every value of them; only `State.reset` takes the opaque ones (notes/assumptions/6.md). -/

namespace Sys2Proof

/-- The host's float, as R432 models it: a finite rational, plus or minus infinity, or NaN. -/
inductive HostFloat where
  | finite (q : ℚ)
  | posInf
  | negInf
  | nan
  deriving DecidableEq, Repr, Inhabited

/-- The Osc phase table SINC: 32 phase rows of 15 taps (R12). -/
abbrev SincTable := Vector (Vector ℚ 15) 32

namespace Config

/-- CLOCK, cycles per second (R8). -/
def clock : Nat := 4194304

/-- FRAME_PERIOD, cycles between two frame events: CLOCK / 512 (R9). -/
def framePeriod : Nat := 8192

/-- The largest value of the 11-bit frequency registers (R10). -/
def freqMax : Nat := 0x7FF

/-- SAMPLE_MIN and SAMPLE_MAX, the two raw levels of the pulse and noise channels (R11). -/
def sampleMin : Nat := 0

@[inherit_doc sampleMin] def sampleMax : Nat := 15

/-- MAX_TERM_VOLUME (R335). -/
def maxTermVolume : Nat := 7

/-- SINC_CENTER, PHASES and TAPS of the Osc (R392). -/
def sincCenter : Nat := 7

@[inherit_doc sincCenter] def sincPhases : Nat := 32

@[inherit_doc sincCenter] def sincTaps : Nat := 15

/-- OPEN: GROUND, the output of a disabled channel, any rational but 0 (R153). -/
opaque groundUnit : ℚˣ

/-- OPEN: SAMPLE_RATE, any positive rational (R350), as a quotient of two positive naturals. -/
opaque sampleRateNum : ℕ+

@[inherit_doc sampleRateNum] opaque sampleRateDen : ℕ+

/-- OPEN: SINC, any 32 by 15 table of rationals (R12). -/
opaque sinc : SincTable

/-- OPEN: FLOAT_OUT, the conversion of an exact output to the host's float (R352). -/
opaque floatOut : ℚ → HostFloat

/-- GROUND as a rational. -/
def ground : ℚ := (groundUnit : ℚ)

/-- SAMPLE_RATE as a rational. -/
def sampleRate : ℚ := (sampleRateNum : ℚ) / (sampleRateDen : ℚ)

/-- SWEEP_DOUBLE_CHECK: true is the source's required behaviour; false is the deviation R210 allows
(DESIGN CHOICE, notes/assumptions/7.md). -/
def sweepDoubleCheck : Bool := true

end Config

end Sys2Proof
end

