-- ==== Sys2Proof/Syntax/Types.lean ====
section
/-! DEFINITION. The argument types of the operations of spec/30_encoding.md R101: the channels an
operation may be called on, the enums of R107 and R109 to R111, a host buffer as a call passes it,
and the field names a query may give. -/

namespace Sys2Proof

/-- The four channels (R2). -/
inductive Chan where
  | ch1 | ch2 | ch3 | ch4
  deriving DecidableEq, Repr

/-- The channels that have an envelope (R25, R140). -/
inductive EnvChan where
  | ch1 | ch2 | ch4
  deriving DecidableEq, Repr

/-- The pulse channels (R29, R140). -/
inductive PulseChan where
  | ch1 | ch2
  deriving DecidableEq, Repr

/-- An envelope-bearing channel as a channel. -/
def EnvChan.toChan : EnvChan → Chan
  | .ch1 => .ch1
  | .ch2 => .ch2
  | .ch4 => .ch4

/-- A pulse channel as a channel. -/
def PulseChan.toChan : PulseChan → Chan
  | .ch1 => .ch1
  | .ch2 => .ch2

/-- DUTY enum (R107): 12.5%, 25%, 50% and 75%, codes 0 to 3. -/
inductive Duty where
  | duty12 | duty25 | duty50 | duty75
  deriving DecidableEq, Repr

/-- LEVEL enum (R109): codes 0 to 3. -/
inductive Level where
  | mute | full | half | quarter
  deriving DecidableEq, Repr

/-- STEPSEL enum (R110). -/
inductive StepSel where
  | steps15 | steps7
  deriving DecidableEq, Repr

/-- TERM enum (R111). -/
inductive Term where
  | left | right
  deriving DecidableEq, Repr

/-- Envelope direction (R25). -/
inductive Direction where
  | attenuate | amplify
  deriving DecidableEq, Repr

/-- Sweep mode (R27). -/
inductive SweepMode where
  | addition | subtraction
  deriving DecidableEq, Repr

/-- A host output buffer HOST(b) as a call passes it (R80): the number that names it, and how many
elements it has (R454: a model that takes sizes from the host). -/
structure BufRef where
  buf : Nat
  size : Nat
  deriving DecidableEq, Repr

/-- The common fields of a channel (R22). -/
inductive CommonField where
  | freq | length | enabled | continuous | timer | raw
  deriving DecidableEq, Repr

/-- The fields of an envelope unit (R25). -/
inductive EnvField where
  | initVolume | volume | direction | period | counter
  deriving DecidableEq, Repr

/-- The fields of the sweep unit (R27). -/
inductive SweepField where
  | shift | period | mode | shadow | counter
  deriving DecidableEq, Repr

/-- Every field of the Synth state `S` (R22, R25, R27, R29 to R34). -/
inductive SynthField where
  | common (c : Chan) (f : CommonField)
  | env (c : EnvChan) (f : EnvField)
  | sweep (f : SweepField)
  | duty (c : PulseChan)
  | dutyIndex (c : PulseChan)
  | waveRam
  | level
  | position
  | lfsr
  | scf
  | drf
  | stepSel
  | seqStep
  | seqAcc
  | mixMask
  | termEnable (t : Term)
  | termVol (t : Term)
  | facc
  deriving DecidableEq, Repr

/-- Every field of an Osc instance `O` (R36). -/
inductive OscField where
  | multiplier | waveLength | rate | freq | wave | muted | dirty | spd | spp | deltas | phase
  | leftover | seed
  deriving DecidableEq, Repr

end Sys2Proof
end

