-- ==== Sys2Proof/Syntax.lean ====
section
/-! DEFINITION. The operations of the block: one constructor per row of spec/30_encoding.md R101 (and of
spec/opcode_table.json), in the table's order. Rows 1 to 31 are host calls, rows 32 to 37 the internal
events that those calls are made of. -/

namespace Sys2Proof

/-- One operation with its arguments (R100, R101). -/
inductive Instr where
  -- rows 1 to 6: every channel
  | setFrequency (c : Chan) (v : Nat)
  | setLength (c : Chan) (n : Nat)
  | setContinuousOutput (c : Chan) (on : Bool)
  | disable (c : Chan)
  | reset (c : Chan)
  | getCurrentVolume (c : Chan)
  -- rows 7 to 9: envelope, duty and sweep registers
  | setEnv (c : EnvChan) (b : Byte)
  | setDuty (c : PulseChan) (d : Duty)
  | setSweep (b : Byte)
  -- rows 10 and 11: ch3
  | setWaveform (w : List Byte)
  | setOutputLevel (l : Level)
  -- rows 12 to 15: ch4
  | setNoise (b : Byte)
  | setScf (n : Nat)
  | setDrf (n : Nat)
  | setStepSelection (m : StepSel)
  -- row 16: the sequencer
  | seqReset
  -- rows 17 to 19: the mixer
  | mixSetEnable (b : Byte)
  | setTerminalEnable (t : Term) (e : Bool)
  | setTerminalVolume (t : Term) (v : Nat)
  -- rows 20 to 23: the Synth
  | synthStep
  | fillStereo (left right : BufRef) (n : Nat)
  | fillInterleaved (buf : BufRef) (n : Nat)
  | synthQuery (f : SynthField)
  -- rows 24 and 25: the free functions
  | fromGbFreq (reg : Nat)
  | toGbFreq (hz : HostFloat)
  -- rows 26 to 31: the Osc; `k` numbers the instance, in the order of construction
  | oscNew (m l : Nat) (r : ℚ)
  | oscSetFrequency (k : Nat) (v : Nat)
  | oscSetWaveform (k : Nat) (w : List ℤ)
  | oscSetMuted (k : Nat) (m : Bool)
  | oscQuery (k : Nat) (f : OscField)
  | generate (k : Nat) (buf : BufRef) (n : Nat)
  -- rows 32 to 37: the internal events
  | timerStep (c : Chan) (k : Nat)
  | lengthStep (c : Chan)
  | envStep (c : EnvChan)
  | sweepStep
  | frameEvent
  | advance (n : Nat)
  deriving DecidableEq, Repr

end Sys2Proof
end

