-- ==== Sys2Proof/WellFormed.lean ====
section
/-! DEFINITION. Which terms of `Instr` are calls the spec gives a meaning: the argument sizes of
spec/20_memory.md R85, spec/30_encoding.md R101 and spec/60_exceptions.md R454, and the argument types of
spec/47_osc.md R380. (The size of an Osc waveform is checked against the instance, which is state:
`Machine.execOscSetWaveform`.) -/

namespace Sys2Proof

/-- The call's arguments have the sizes and ranges that R85, R454 and R380 ask for. -/
def Instr.wellFormed : Instr → Bool
  | .setFrequency _ _ | .setLength _ _ | .setContinuousOutput _ _ => true
  | .disable _ | .reset _ | .getCurrentVolume _ => true
  | .setEnv _ _ | .setDuty _ _ | .setSweep _ => true
  | .setWaveform w => w.length == 16
  | .setOutputLevel _ => true
  | .setNoise _ | .setScf _ | .setDrf _ | .setStepSelection _ => true
  | .seqReset => true
  | .mixSetEnable _ | .setTerminalEnable _ _ | .setTerminalVolume _ _ => true
  | .synthStep => true
  | .fillStereo left right n => decide (left.size = n) && decide (right.size = n)
  | .fillInterleaved buf n => decide (buf.size = 2 * n)
  | .synthQuery _ => true
  | .fromGbFreq _ | .toGbFreq _ => true
  | .oscNew m l r => decide (1 ≤ m) && decide (1 ≤ l) && decide (0 < r)
  | .oscSetFrequency _ _ | .oscSetWaveform _ _ | .oscSetMuted _ _ | .oscQuery _ _ => true
  | .generate _ buf n => decide (buf.size = n)
  | .timerStep _ _ | .lengthStep _ | .envStep _ | .sweepStep | .frameEvent | .advance _ => true

end Sys2Proof
end

