-- ==== Sys2Proof/Decode.lean ====
section
/-! DEFINITION. The byte image of a call, its decoder and, after it, its encoder.

The block has no instruction words (spec/30_encoding.md R100): an operation is selected by its name and
its target. The byte layout is this model's own (DESIGN CHOICE, notes/assumptions/1.md) and holds
nothing but what R101 and R104 to R111 name: first the row number of R101 (the name), then the target,
then the row's arguments in their order. A packed byte argument is that byte, an enum argument is its
code. A natural is written in groups of 7 bits, lowest first, with bit 7 set on every byte but the last. -/

namespace Sys2Proof

/-! ## Targets -/

/-- What an operation is called on (R100). -/
inductive Target where
  | ch (c : Chan)
  | seq
  | mix
  | synth
  | osc
  | free
  deriving DecidableEq, Repr

/-- Why a byte image is no row of R101. Raised by `decodeCall`; `Machine.admission` turns every one of them
into the refusal NoSuchOperation (R456). -/
inductive DecodeError where
  /-- fewer bytes than a row number and a target -/
  | noOperation
  /-- the row number is not one of R101's 37 rows -/
  | noSuchRow
  /-- the row's operation does not exist on this target (a capability the channel lacks, R140) -/
  | noSuchTarget
  /-- an argument is cut short or is no value of its type (R112) -/
  | badArguments
  /-- bytes remain after the row's fixed argument list (R113) -/
  | surplusArguments
  deriving DecidableEq, Repr

/-- The target code: ch1 to ch4 are 1 to 4, then seq, mix, synth, Osc and the free functions. -/
def Target.ofCode (b : Byte) : Option Target :=
  match b.toNat with
  | 1 => some (.ch .ch1)
  | 2 => some (.ch .ch2)
  | 3 => some (.ch .ch3)
  | 4 => some (.ch .ch4)
  | 5 => some .seq
  | 6 => some .mix
  | 7 => some .synth
  | 8 => some .osc
  | 9 => some .free
  | _ => none

/-- The envelope-bearing channel `c` is, if it is one (R140). -/
def Chan.toEnvChan : Chan → Option EnvChan
  | .ch1 => some .ch1
  | .ch2 => some .ch2
  | .ch3 => none
  | .ch4 => some .ch4

/-- The pulse channel `c` is, if it is one (R140). -/
def Chan.toPulseChan : Chan → Option PulseChan
  | .ch1 => some .ch1
  | .ch2 => some .ch2
  | .ch3 => none
  | .ch4 => none

/-! ## Arguments -/

/-- One byte. -/
def takeByte : List Byte → Option (Byte × List Byte)
  | [] => none
  | b :: bs => some (b, bs)

/-- A natural of any size (R102), 7 bits a byte, lowest first. -/
def takeNat : List Byte → Option (Nat × List Byte)
  | [] => none
  | b :: bs =>
    if b.toNat < 128 then some (b.toNat, bs)
    else (takeNat bs).map fun p => (b.toNat - 128 + 128 * p.1, p.2)

/-- An integer: `2 z` for `z ≥ 0`, `-2 z - 1` for `z < 0`, as a natural. -/
def takeInt (bs : List Byte) : Option (ℤ × List Byte) :=
  (takeNat bs).map fun p =>
    (if p.1 % 2 = 0 then (Int.ofNat (p.1 / 2)) else Int.negSucc (p.1 / 2), p.2)

/-- A positive natural, as its predecessor. -/
def takePos (bs : List Byte) : Option (Nat × List Byte) :=
  (takeNat bs).map fun p => (p.1 + 1, p.2)

/-- A rational: numerator, then the denominator's predecessor. -/
def takeRat (bs : List Byte) : Option (ℚ × List Byte) := do
  let (n, bs) ← takeInt bs
  let (d, bs) ← takePos bs
  some (mkRat n d, bs)

/-- A positive rational: the predecessors of numerator and denominator. -/
def takePosRat (bs : List Byte) : Option (ℚ × List Byte) := do
  let (n, bs) ← takePos bs
  let (d, bs) ← takePos bs
  some (mkRat n d, bs)

/-- `n` values in a row. -/
def takeMany {α : Type} (one : List Byte → Option (α × List Byte)) :
    Nat → List Byte → Option (List α × List Byte)
  | 0, bs => some ([], bs)
  | n + 1, bs => do
    let (x, bs) ← one bs
    let (xs, bs) ← takeMany one n bs
    some (x :: xs, bs)

/-- A count, then that many values. -/
def takeList {α : Type} (one : List Byte → Option (α × List Byte)) (bs : List Byte) :
    Option (List α × List Byte) := do
  let (n, bs) ← takeNat bs
  takeMany one n bs

/-- One byte read through a code table; a byte that is no code gives nothing (R112: an enum has no
spare values). -/
def takeCode {α : Type} (ofCode : Nat → Option α) (bs : List Byte) : Option (α × List Byte) := do
  let (b, bs) ← takeByte bs
  let x ← ofCode b.toNat
  some (x, bs)

def boolOfCode : Nat → Option Bool
  | 0 => some false
  | 1 => some true
  | _ => none

/-- Codes of R107. -/
def dutyOfCode : Nat → Option Duty
  | 0 => some .duty12
  | 1 => some .duty25
  | 2 => some .duty50
  | 3 => some .duty75
  | _ => none

/-- Codes of R109. -/
def levelOfCode : Nat → Option Level
  | 0 => some .mute
  | 1 => some .full
  | 2 => some .half
  | 3 => some .quarter
  | _ => none

/-- Codes of R106 and R110. -/
def stepSelOfCode : Nat → Option StepSel
  | 0 => some .steps15
  | 1 => some .steps7
  | _ => none

/-- R111 names the terminals and gives no codes: left 0, right 1 (notes/assumptions/1.md). -/
def termOfCode : Nat → Option Term
  | 0 => some .left
  | 1 => some .right
  | _ => none

def chanOfCode : Nat → Option Chan
  | 1 => some .ch1
  | 2 => some .ch2
  | 3 => some .ch3
  | 4 => some .ch4
  | _ => none

def commonFieldOfCode : Nat → Option CommonField
  | 0 => some .freq
  | 1 => some .length
  | 2 => some .enabled
  | 3 => some .continuous
  | 4 => some .timer
  | 5 => some .raw
  | _ => none

def envFieldOfCode : Nat → Option EnvField
  | 0 => some .initVolume
  | 1 => some .volume
  | 2 => some .direction
  | 3 => some .period
  | 4 => some .counter
  | _ => none

def sweepFieldOfCode : Nat → Option SweepField
  | 0 => some .shift
  | 1 => some .period
  | 2 => some .mode
  | 3 => some .shadow
  | 4 => some .counter
  | _ => none

/-- The field names of R36, in the order of its table. -/
def oscFieldOfCode : Nat → Option OscField
  | 0 => some .multiplier
  | 1 => some .waveLength
  | 2 => some .rate
  | 3 => some .freq
  | 4 => some .wave
  | 5 => some .muted
  | 6 => some .dirty
  | 7 => some .spd
  | 8 => some .spp
  | 9 => some .deltas
  | 10 => some .phase
  | 11 => some .leftover
  | 12 => some .seed
  | _ => none

/-- An envelope-bearing channel, coded as its channel. -/
def envChanOfCode (n : Nat) : Option EnvChan := (chanOfCode n).bind Chan.toEnvChan

/-- A pulse channel, coded as its channel. -/
def pulseChanOfCode (n : Nat) : Option PulseChan := (chanOfCode n).bind Chan.toPulseChan

/-- A field name of the Synth (R360): a group code, then what selects the field inside the group. -/
def takeSynthField (bs : List Byte) : Option (SynthField × List Byte) := do
  let (g, bs) ← takeByte bs
  match g.toNat with
  | 0 => do
    let (c, bs) ← takeCode chanOfCode bs
    let (f, bs) ← takeCode commonFieldOfCode bs
    some (.common c f, bs)
  | 1 => do
    let (c, bs) ← takeCode envChanOfCode bs
    let (f, bs) ← takeCode envFieldOfCode bs
    some (.env c f, bs)
  | 2 => (takeCode sweepFieldOfCode bs).map fun p => (.sweep p.1, p.2)
  | 3 => (takeCode pulseChanOfCode bs).map fun p => (.duty p.1, p.2)
  | 4 => (takeCode pulseChanOfCode bs).map fun p => (.dutyIndex p.1, p.2)
  | 5 => some (.waveRam, bs)
  | 6 => some (.level, bs)
  | 7 => some (.position, bs)
  | 8 => some (.lfsr, bs)
  | 9 => some (.scf, bs)
  | 10 => some (.drf, bs)
  | 11 => some (.stepSel, bs)
  | 12 => some (.seqStep, bs)
  | 13 => some (.seqAcc, bs)
  | 14 => some (.mixMask, bs)
  | 15 => (takeCode termOfCode bs).map fun p => (.termEnable p.1, p.2)
  | 16 => (takeCode termOfCode bs).map fun p => (.termVol p.1, p.2)
  | 17 => some (.facc, bs)
  | _ => none

/-- A host buffer: its number, then its size. -/
def takeBuf (bs : List Byte) : Option (BufRef × List Byte) := do
  let (b, bs) ← takeNat bs
  let (n, bs) ← takeNat bs
  some (⟨b, n⟩, bs)

/-- A host float (R432): a kind, then the rational if it is finite. -/
def takeFloat (bs : List Byte) : Option (HostFloat × List Byte) := do
  let (k, bs) ← takeByte bs
  match k.toNat with
  | 0 => (takeRat bs).map fun p => (.finite p.1, p.2)
  | 1 => some (.posInf, bs)
  | 2 => some (.negInf, bs)
  | 3 => some (.nan, bs)
  | _ => none

/-! ## Rows -/

/-- What a row's arguments give: an operation and the bytes after it. -/
abbrev Decoded := Except DecodeError (Instr × List Byte)

/-- The arguments as read, or the name of what is wrong with them. -/
def ofArgs : Option (Instr × List Byte) → Decoded
  | some p => .ok p
  | none => .error .badArguments

/-- A row called on any of the four channels. -/
def onChan (t : Target) (k : Chan → Option (Instr × List Byte)) : Decoded :=
  match t with
  | .ch c => ofArgs (k c)
  | _ => .error .noSuchTarget

/-- A row called on a channel that has the capability `cap` (R140); on another there is no such
operation (R456). -/
def onCapable {α : Type} (cap : Chan → Option α) (t : Target)
    (k : α → Option (Instr × List Byte)) : Decoded :=
  match t with
  | .ch c =>
    match cap c with
    | some x => ofArgs (k x)
    | none => .error .noSuchTarget
  | _ => .error .noSuchTarget

/-- A row called on one target alone. -/
def onOnly (want t : Target) (k : Option (Instr × List Byte)) : Decoded :=
  if t = want then ofArgs k else .error .noSuchTarget

/-- Rows 1 to 15 of R101: the channels. -/
def decodeChannelRow (row : Nat) (t : Target) (bs : List Byte) : Decoded :=
  match row with
  | 1 => onChan t fun c => (takeNat bs).map fun p => (.setFrequency c p.1, p.2)
  | 2 => onChan t fun c => (takeNat bs).map fun p => (.setLength c p.1, p.2)
  | 3 => onChan t fun c => (takeCode boolOfCode bs).map fun p => (.setContinuousOutput c p.1, p.2)
  | 4 => onChan t fun c => some (.disable c, bs)
  | 5 => onChan t fun c => some (.reset c, bs)
  | 6 => onChan t fun c => some (.getCurrentVolume c, bs)
  | 7 => onCapable Chan.toEnvChan t fun c => (takeByte bs).map fun p => (.setEnv c p.1, p.2)
  | 8 => onCapable Chan.toPulseChan t fun c =>
      (takeCode dutyOfCode bs).map fun p => (.setDuty c p.1, p.2)
  | 9 => onOnly (.ch .ch1) t ((takeByte bs).map fun p => (.setSweep p.1, p.2))
  | 10 => onOnly (.ch .ch3) t ((takeList takeByte bs).map fun p => (.setWaveform p.1, p.2))
  | 11 => onOnly (.ch .ch3) t ((takeCode levelOfCode bs).map fun p => (.setOutputLevel p.1, p.2))
  | 12 => onOnly (.ch .ch4) t ((takeByte bs).map fun p => (.setNoise p.1, p.2))
  | 13 => onOnly (.ch .ch4) t ((takeNat bs).map fun p => (.setScf p.1, p.2))
  | 14 => onOnly (.ch .ch4) t ((takeNat bs).map fun p => (.setDrf p.1, p.2))
  | 15 => onOnly (.ch .ch4) t
      ((takeCode stepSelOfCode bs).map fun p => (.setStepSelection p.1, p.2))
  | _ => .error .noSuchRow

/-- Rows 16 to 25 of R101: sequencer, mixer, Synth and the free functions. -/
def decodeSynthRow (row : Nat) (t : Target) (bs : List Byte) : Decoded :=
  match row with
  | 16 => onOnly .seq t (some (.seqReset, bs))
  | 17 => onOnly .mix t ((takeByte bs).map fun p => (.mixSetEnable p.1, p.2))
  | 18 => onOnly .mix t do
      let (tm, bs) ← takeCode termOfCode bs
      let (e, bs) ← takeCode boolOfCode bs
      some (.setTerminalEnable tm e, bs)
  | 19 => onOnly .mix t do
      let (tm, bs) ← takeCode termOfCode bs
      let (v, bs) ← takeNat bs
      some (.setTerminalVolume tm v, bs)
  | 20 => onOnly .synth t (some (.synthStep, bs))
  | 21 => onOnly .synth t do
      let (l, bs) ← takeBuf bs
      let (r, bs) ← takeBuf bs
      let (n, bs) ← takeNat bs
      some (.fillStereo l r n, bs)
  | 22 => onOnly .synth t do
      let (b, bs) ← takeBuf bs
      let (n, bs) ← takeNat bs
      some (.fillInterleaved b n, bs)
  | 23 => onOnly .synth t ((takeSynthField bs).map fun p => (.synthQuery p.1, p.2))
  | 24 => onOnly .free t ((takeNat bs).map fun p => (.fromGbFreq p.1, p.2))
  | 25 => onOnly .free t ((takeFloat bs).map fun p => (.toGbFreq p.1, p.2))
  | _ => .error .noSuchRow

/-- Rows 26 to 31 of R101: the Osc. -/
def decodeOscRow (row : Nat) (t : Target) (bs : List Byte) : Decoded :=
  match row with
  | 26 => onOnly .osc t do
      let (m, bs) ← takePos bs
      let (l, bs) ← takePos bs
      let (r, bs) ← takePosRat bs
      some (.oscNew m l r, bs)
  | 27 => onOnly .osc t do
      let (k, bs) ← takeNat bs
      let (v, bs) ← takeNat bs
      some (.oscSetFrequency k v, bs)
  | 28 => onOnly .osc t do
      let (k, bs) ← takeNat bs
      let (w, bs) ← takeList takeInt bs
      some (.oscSetWaveform k w, bs)
  | 29 => onOnly .osc t do
      let (k, bs) ← takeNat bs
      let (m, bs) ← takeCode boolOfCode bs
      some (.oscSetMuted k m, bs)
  | 30 => onOnly .osc t do
      let (k, bs) ← takeNat bs
      let (f, bs) ← takeCode oscFieldOfCode bs
      some (.oscQuery k f, bs)
  | 31 => onOnly .osc t do
      let (k, bs) ← takeNat bs
      let (b, bs) ← takeBuf bs
      let (n, bs) ← takeNat bs
      some (.generate k b n, bs)
  | _ => .error .noSuchRow

/-- Rows 32 to 37 of R101: the internal events. -/
def decodeInternalRow (row : Nat) (t : Target) (bs : List Byte) : Decoded :=
  match row with
  | 32 => onChan t fun c => (takeNat bs).map fun p => (.timerStep c p.1, p.2)
  | 33 => onChan t fun c => some (.lengthStep c, bs)
  | 34 => onCapable Chan.toEnvChan t fun c => some (.envStep c, bs)
  | 35 => onOnly (.ch .ch1) t (some (.sweepStep, bs))
  | 36 => onOnly .seq t (some (.frameEvent, bs))
  | 37 => onOnly .synth t ((takeNat bs).map fun p => (.advance p.1, p.2))
  | _ => .error .noSuchRow

/-- The row with this number, on this target. -/
def decodeRow (row : Nat) (t : Target) (bs : List Byte) : Decoded :=
  if row ≤ 15 then decodeChannelRow row t bs
  else if row ≤ 25 then decodeSynthRow row t bs
  else if row ≤ 31 then decodeOscRow row t bs
  else decodeInternalRow row t bs

/-- The operation at the head of a byte list, and the bytes after it. -/
def decodeOp : List Byte → Decoded
  | row :: target :: bs =>
    match Target.ofCode target with
    | some t => decodeRow row.toNat t bs
    | none => if 1 ≤ row.toNat ∧ row.toNat ≤ 37 then .error .noSuchTarget else .error .noSuchRow
  | _ => .error .noOperation

/-- The operation a call's byte image is: exactly one row with exactly its arguments (R113). -/
def decodeCall (bs : List Byte) : Except DecodeError Instr :=
  match decodeOp bs with
  | .ok (i, []) => .ok i
  | .ok (_, _ :: _) => .error .surplusArguments
  | .error e => .error e

/-! ## Words as the opcode table numbers them -/

/-- The first `k` bytes of the number `w`, bits 7..0 first. -/
def littleEndianBytes : Nat → Nat → List Byte
  | 0, _ => []
  | k + 1, w => BitVec.ofNat 8 w :: littleEndianBytes k (w / 256)

/-- How many zero bytes stand above a table word. -/
def tablePadding : Nat := 64

/-- The bytes of a table word: its low `nbits` bits, bits 7..0 in the first byte, then zeros. -/
def tableBytes (nbits w : Nat) : List Byte :=
  littleEndianBytes ((nbits + 7) / 8) (w % 2 ^ nbits) ++ List.replicate tablePadding 0#8

/-- The operation the decoder reads from a table word. -/
def decodeTableWord (nbits w : Nat) : Option Instr :=
  match decodeOp (tableBytes nbits w) with
  | .ok (i, _) => some i
  | .error _ => none

/-- The bytes of a table word that its operation takes up; all of them where there is none. -/
def tableCallBytes (nbits w : Nat) : List Byte :=
  match decodeOp (tableBytes nbits w) with
  | .ok (_, rest) => (tableBytes nbits w).take ((tableBytes nbits w).length - rest.length)
  | .error _ => tableBytes nbits w

/-! ## The encoder -/

/-- The target code of `Target.ofCode`. -/
def Target.code : Target → Byte
  | .ch .ch1 => 1
  | .ch .ch2 => 2
  | .ch .ch3 => 3
  | .ch .ch4 => 4
  | .seq => 5
  | .mix => 6
  | .synth => 7
  | .osc => 8
  | .free => 9

/-- A natural in groups of 7 bits; `fuel` bounds the number of bytes after the first. -/
def natBytesFuel : Nat → Nat → List Byte
  | 0, n => [BitVec.ofNat 8 n]
  | fuel + 1, n =>
    if n < 128 then [BitVec.ofNat 8 n]
    else BitVec.ofNat 8 (n % 128 + 128) :: natBytesFuel fuel (n / 128)

/-- The bytes `takeNat` reads back as `n`. -/
def natBytes (n : Nat) : List Byte := natBytesFuel n n

def intBytes : ℤ → List Byte
  | .ofNat n => natBytes (2 * n)
  | .negSucc n => natBytes (2 * n + 1)

def ratBytes (q : ℚ) : List Byte := intBytes q.num ++ natBytes (q.den - 1)

def posRatBytes (q : ℚ) : List Byte := natBytes (q.num.toNat - 1) ++ natBytes (q.den - 1)

/-- A count, then the values. -/
def listBytes {α : Type} (one : α → List Byte) (xs : List α) : List Byte :=
  natBytes xs.length ++ xs.flatMap one

def boolCode : Bool → Byte
  | false => 0
  | true => 1

def Duty.code : Duty → Byte
  | .duty12 => 0
  | .duty25 => 1
  | .duty50 => 2
  | .duty75 => 3

def Level.code : Level → Byte
  | .mute => 0
  | .full => 1
  | .half => 2
  | .quarter => 3

def StepSel.code : StepSel → Byte
  | .steps15 => 0
  | .steps7 => 1

def Term.code : Term → Byte
  | .left => 0
  | .right => 1

def Chan.code (c : Chan) : Byte := (Target.ch c).code

def CommonField.code : CommonField → Byte
  | .freq => 0
  | .length => 1
  | .enabled => 2
  | .continuous => 3
  | .timer => 4
  | .raw => 5

def EnvField.code : EnvField → Byte
  | .initVolume => 0
  | .volume => 1
  | .direction => 2
  | .period => 3
  | .counter => 4

def SweepField.code : SweepField → Byte
  | .shift => 0
  | .period => 1
  | .mode => 2
  | .shadow => 3
  | .counter => 4

def OscField.code : OscField → Byte
  | .multiplier => 0
  | .waveLength => 1
  | .rate => 2
  | .freq => 3
  | .wave => 4
  | .muted => 5
  | .dirty => 6
  | .spd => 7
  | .spp => 8
  | .deltas => 9
  | .phase => 10
  | .leftover => 11
  | .seed => 12

def SynthField.bytes : SynthField → List Byte
  | .common c f => [0, c.code, f.code]
  | .env c f => [1, c.toChan.code, f.code]
  | .sweep f => [2, f.code]
  | .duty c => [3, c.toChan.code]
  | .dutyIndex c => [4, c.toChan.code]
  | .waveRam => [5]
  | .level => [6]
  | .position => [7]
  | .lfsr => [8]
  | .scf => [9]
  | .drf => [10]
  | .stepSel => [11]
  | .seqStep => [12]
  | .seqAcc => [13]
  | .mixMask => [14]
  | .termEnable t => [15, t.code]
  | .termVol t => [16, t.code]
  | .facc => [17]

def BufRef.bytes (b : BufRef) : List Byte := natBytes b.buf ++ natBytes b.size

def HostFloat.bytes : HostFloat → List Byte
  | .finite q => 0 :: ratBytes q
  | .posInf => [1]
  | .negInf => [2]
  | .nan => [3]

/-- The row of R101 an operation is. -/
def Instr.row : Instr → Nat
  | .setFrequency _ _ => 1
  | .setLength _ _ => 2
  | .setContinuousOutput _ _ => 3
  | .disable _ => 4
  | .reset _ => 5
  | .getCurrentVolume _ => 6
  | .setEnv _ _ => 7
  | .setDuty _ _ => 8
  | .setSweep _ => 9
  | .setWaveform _ => 10
  | .setOutputLevel _ => 11
  | .setNoise _ => 12
  | .setScf _ => 13
  | .setDrf _ => 14
  | .setStepSelection _ => 15
  | .seqReset => 16
  | .mixSetEnable _ => 17
  | .setTerminalEnable _ _ => 18
  | .setTerminalVolume _ _ => 19
  | .synthStep => 20
  | .fillStereo _ _ _ => 21
  | .fillInterleaved _ _ => 22
  | .synthQuery _ => 23
  | .fromGbFreq _ => 24
  | .toGbFreq _ => 25
  | .oscNew _ _ _ => 26
  | .oscSetFrequency _ _ => 27
  | .oscSetWaveform _ _ => 28
  | .oscSetMuted _ _ => 29
  | .oscQuery _ _ => 30
  | .generate _ _ _ => 31
  | .timerStep _ _ => 32
  | .lengthStep _ => 33
  | .envStep _ => 34
  | .sweepStep => 35
  | .frameEvent => 36
  | .advance _ => 37

/-- What an operation is called on: the targets column of R101. -/
def Instr.target : Instr → Target
  | .setFrequency c _ | .setLength c _ | .setContinuousOutput c _ => .ch c
  | .disable c | .reset c | .getCurrentVolume c => .ch c
  | .setEnv c _ => .ch c.toChan
  | .setDuty c _ => .ch c.toChan
  | .setSweep _ => .ch .ch1
  | .setWaveform _ | .setOutputLevel _ => .ch .ch3
  | .setNoise _ | .setScf _ | .setDrf _ | .setStepSelection _ => .ch .ch4
  | .seqReset => .seq
  | .mixSetEnable _ | .setTerminalEnable _ _ | .setTerminalVolume _ _ => .mix
  | .synthStep | .fillStereo _ _ _ | .fillInterleaved _ _ | .synthQuery _ => .synth
  | .fromGbFreq _ | .toGbFreq _ => .free
  | .oscNew _ _ _ | .oscSetFrequency _ _ | .oscSetWaveform _ _ => .osc
  | .oscSetMuted _ _ | .oscQuery _ _ | .generate _ _ _ => .osc
  | .timerStep c _ | .lengthStep c => .ch c
  | .envStep c => .ch c.toChan
  | .sweepStep => .ch .ch1
  | .frameEvent => .seq
  | .advance _ => .synth

/-- The argument bytes of an operation. -/
def Instr.argBytes : Instr → List Byte
  | .setFrequency _ v => natBytes v
  | .setLength _ n => natBytes n
  | .setContinuousOutput _ on => [boolCode on]
  | .disable _ | .reset _ | .getCurrentVolume _ => []
  | .setEnv _ b => [b]
  | .setDuty _ d => [d.code]
  | .setSweep b => [b]
  | .setWaveform w => listBytes (fun b => [b]) w
  | .setOutputLevel l => [l.code]
  | .setNoise b => [b]
  | .setScf n => natBytes n
  | .setDrf n => natBytes n
  | .setStepSelection m => [m.code]
  | .seqReset => []
  | .mixSetEnable b => [b]
  | .setTerminalEnable t e => [t.code, boolCode e]
  | .setTerminalVolume t v => t.code :: natBytes v
  | .synthStep => []
  | .fillStereo l r n => l.bytes ++ r.bytes ++ natBytes n
  | .fillInterleaved b n => b.bytes ++ natBytes n
  | .synthQuery f => f.bytes
  | .fromGbFreq reg => natBytes reg
  | .toGbFreq hz => hz.bytes
  | .oscNew m l r => natBytes (m - 1) ++ natBytes (l - 1) ++ posRatBytes r
  | .oscSetFrequency k v => natBytes k ++ natBytes v
  | .oscSetWaveform k w => natBytes k ++ listBytes intBytes w
  | .oscSetMuted k m => natBytes k ++ [boolCode m]
  | .oscQuery k f => natBytes k ++ [f.code]
  | .generate k b n => natBytes k ++ b.bytes ++ natBytes n
  | .timerStep _ k => natBytes k
  | .lengthStep _ | .envStep _ | .sweepStep | .frameEvent => []
  | .advance n => natBytes n

/-- The byte image of a well-formed operation. -/
def encode (i : Instr) : List Byte :=
  BitVec.ofNat 8 i.row :: i.target.code :: i.argBytes

end Sys2Proof
end

