-- ==== Sys2Proof/Machine/State.lean ====
section
/-! DEFINITION. The state of the machine: the Synth state `S` and the Osc instances `O` of
spec/10_state.md, the HOST buffers of spec/20_memory.md R80, the OPEN parameters a model takes as
arguments (spec/00_scope.md R11), and what passes between the block and its host: the calls the host
has yet to make and the value the last one returned. All plain data. Numbers the spec treats as naturals
stay naturals (R14); the ranges of their fields are the invariant of Sys2Proof/Safety.lean. -/

namespace Sys2Proof.Machine

/-! ## Channels -/

/-- The common fields of a channel (R22). -/
structure Common where
  freq : Nat
  length : Nat
  enabled : Bool
  continuous : Bool
  timer : Nat
  raw : Nat
  deriving DecidableEq, Repr

/-- An envelope unit (R25). -/
structure Envelope where
  initVolume : Nat
  volume : Nat
  direction : Direction
  period : Nat
  counter : Nat
  deriving DecidableEq, Repr

/-- The sweep unit (R27). -/
structure Sweep where
  shift : Nat
  period : Nat
  mode : SweepMode
  shadow : Nat
  counter : Nat
  deriving DecidableEq, Repr

/-- The state of a pulse channel's kind (R29). -/
structure Pulse where
  duty : Duty
  dutyIndex : Nat
  deriving DecidableEq, Repr

/-- The state of the wave channel's kind (R30). `waveRam` is the WAVE memory: an address between 0 and
15 that is not listed holds 0. -/
structure Wave where
  waveRam : List Host.Cell
  level : Level
  position : Nat
  deriving DecidableEq, Repr

/-- The state of the noise channel's kind (R31). -/
structure Noise where
  lfsr : BitVec 15
  scf : Nat
  drf : Nat
  stepSel : StepSel
  deriving DecidableEq, Repr

/-- ch1, SweepPulse (R140). -/
structure SweepPulseChannel where
  common : Common
  env : Envelope
  pulse : Pulse
  sweep : Sweep
  deriving DecidableEq, Repr

/-- ch2, Pulse (R140). -/
structure PulseChannel where
  common : Common
  env : Envelope
  pulse : Pulse
  deriving DecidableEq, Repr

/-- ch3, Wave (R140). -/
structure WaveChannel where
  common : Common
  wave : Wave
  deriving DecidableEq, Repr

/-- ch4, Noise (R140). -/
structure NoiseChannel where
  common : Common
  env : Envelope
  noise : Noise
  deriving DecidableEq, Repr

/-! ## Sequencer, mixer, Synth -/

/-- The frame sequencer (R32). -/
structure Sequencer where
  step : Nat
  acc : Nat
  deriving DecidableEq, Repr

/-- One value for each terminal. -/
structure PerTerm (α : Type) where
  left : α
  right : α
  deriving DecidableEq, Repr

/-- The mixer (R33). -/
structure Mixer where
  mask : Byte
  termEnable : PerTerm Bool
  termVol : PerTerm Nat
  deriving DecidableEq, Repr

/-- The Synth state `S` (R20). -/
structure Synth where
  ch1 : SweepPulseChannel
  ch2 : PulseChannel
  ch3 : WaveChannel
  ch4 : NoiseChannel
  seq : Sequencer
  mix : Mixer
  facc : ℚ
  deriving DecidableEq, Repr

/-! ## Osc -/

/-- One transition of an Osc waveform (R37). -/
structure Delta where
  location : ℚ
  change : ℤ
  before : ℤ
  after : ℤ
  deriving DecidableEq, Repr

/-- One Osc instance `O` (R36): `m`, `l` and `r` are the spec's M, L and R. -/
structure Osc where
  m : Nat
  l : Nat
  r : ℚ
  freq : Nat
  wave : List ℤ
  muted : Bool
  dirty : Bool
  spd : ℚ
  spp : ℚ
  deltas : List Delta
  phase : ℚ
  leftover : List ℚ
  seed : ℚ
  deriving DecidableEq, Repr

/-! ## The host's side -/

/-- A value handed to the host: FLOAT_OUT of an exact rational (R352). FLOAT_OUT is OPEN, so the value is
held by its argument; `OutVal.float` is what the host gets (DESIGN CHOICE, notes/assumptions/8.md). -/
structure OutVal where
  floatOut ::
  exact : ℚ
  deriving DecidableEq, Repr

/-- The host's float of an output value. -/
def OutVal.float (v : OutVal) : HostFloat := Config.floatOut v.exact

/-- One HOST(b) buffer: the elements the block has written, by index (R80). -/
abbrev HostBuffer := List (Nat × OutVal)

/-- All HOST buffers, by number. -/
abbrev HostMem := List (Nat × HostBuffer)

/-- What the last operation returned to its caller (DESIGN CHOICE, notes/assumptions/5.md). -/
inductive Returned where
  | nothing
  | nat (n : Nat)
  | bool (b : Bool)
  | rat (q : ℚ)
  | out (v : OutVal)
  | pair (left right : OutVal)
  | direction (d : Direction)
  | mode (m : SweepMode)
  | duty (d : Duty)
  | level (l : Level)
  | stepSel (m : StepSel)
  | bytes (bs : List Byte)
  | ints (zs : List ℤ)
  | rats (qs : List ℚ)
  | deltas (ds : List Delta)
  | oscInstance (k : Nat)
  deriving DecidableEq, Repr

/-- The OPEN parameters the machine's rules read (R11). No operation changes them (R350).
DESIGN CHOICE, notes/assumptions/6.md. -/
structure Params where
  ground : ℚ
  sampleRate : ℚ
  sinc : SincTable
  sweepDoubleCheck : Bool
  deriving DecidableEq, Repr

/-- The passive state machines a host calls: the Synth and each Osc instance (R463). -/
inductive Agent where
  | synth
  | osc (k : Nat)
  deriving DecidableEq, Repr

/-- Who makes a call: the host, or the block itself for an internal event (R101). -/
inductive Caller where
  | host
  | block
  deriving DecidableEq, Repr

/-- One call of the program (R100): who makes it, on which agents an earlier call has not returned when
it starts (R455), and its byte image. DESIGN CHOICE, notes/assumptions/2.md to 4.md. -/
structure PendingCall where
  caller : Caller
  busy : List Agent
  bytes : List Byte
  deriving DecidableEq, Repr

/-! ## State -/

/-- The whole machine. `synth` and `oscs` are the spec's `S` and the instances `O`, in order of
construction (DESIGN CHOICE, notes/assumptions/12.md, 14.md); `host` is the HOST address space; `params`
the OPEN parameters; `returned` and `calls` are the host interface. -/
structure State where
  synth : Synth
  oscs : List Osc
  host : HostMem
  params : Params
  returned : Returned
  calls : List PendingCall
  deriving DecidableEq, Repr

/-- Faults: there are none. No operation raises an exception (R450), and every operation is defined in
every state (R483). -/
inductive Fault where
  deriving DecidableEq, Repr

/-- Refusals (R454 to R456). Each marks the run as outside the model and changes no state: safe. -/
inductive Refusal where
  /-- An operation the model gives no meaning yet; raised by `exec` alone. Safe. -/
  | notModelled (mnemonic : String)
  /-- BadShape: a buffer or array argument of the wrong size (R454). Raised by the meanings of
  `setWaveform`, the Osc `setWaveform`, both fills and `generate`. Safe. -/
  | badShape
  /-- Overlap: a call on an agent whose last call has not returned (R455). Raised by `admission`. Safe. -/
  | overlap
  /-- NoSuchOperation: a call that is no row of R101 (R456). Raised by `admission`, and by the meanings of
  the Osc rows on an instance that does not exist. Safe. -/
  | noSuchOperation
  deriving DecidableEq, Repr

/-! ## Construction values (R40, R41, R480) -/

def Common.construction : Common :=
  { freq := 0, length := 0, enabled := false, continuous := false, timer := 0, raw := 0 }

def Envelope.construction : Envelope :=
  { initVolume := 0, volume := 0, direction := .attenuate, period := 0, counter := 0 }

def Sweep.construction : Sweep :=
  { shift := 0, period := 0, mode := .addition, shadow := 0, counter := 0 }

def Pulse.construction : Pulse := { duty := .duty12, dutyIndex := 0 }

def Wave.construction : Wave := { waveRam := [], level := .mute, position := 0 }

def Noise.construction : Noise := { lfsr := 0x7FFF, scf := 0, drf := 0, stepSel := .steps15 }

/-- The Synth at construction (R40). -/
def Synth.construction : Synth where
  ch1 := { common := .construction, env := .construction, pulse := .construction,
           sweep := .construction }
  ch2 := { common := .construction, env := .construction, pulse := .construction }
  ch3 := { common := .construction, wave := .construction }
  ch4 := { common := .construction, env := .construction, noise := .construction }
  seq := { step := 0, acc := 0 }
  mix := { mask := 0, termEnable := ⟨false, false⟩, termVol := ⟨0, 0⟩ }
  facc := 0

/-- The implementation's parameters. -/
def Params.config : Params where
  ground := Config.ground
  sampleRate := Config.sampleRate
  sinc := Config.sinc
  sweepDoubleCheck := Config.sweepDoubleCheck

/-- Right after construction (R480): the Synth of R40, no Osc instance yet, nothing written to the host's
buffers, no call pending. -/
def State.reset : State where
  synth := .construction
  oscs := []
  host := []
  params := .config
  returned := .nothing
  calls := []

end Sys2Proof.Machine
end

