-- ==== Sys2Proof/Machine/Ops.lean ====
section
/-! DEFINITION. The named operations over the two memories and the registers.

The block takes no exception and returns from none: no operation raises one, nothing is saved and nothing
is vectored (spec/60_exceptions.md R450, R457, R459). So there is no operation of that kind here. -/

namespace Sys2Proof.Machine

/-! ## Cells in canonical form -/

/-- Addresses strictly rising. -/
abbrev Cells.Sorted {α : Type} (m : List (Nat × α)) : Prop := (m.map Prod.fst).Pairwise (· < ·)

/-- What is listed at address `a`. -/
def Cells.find {α : Type} (a : Nat) : List (Nat × α) → Option α
  | [] => none
  | (k, v) :: m => if k = a then some v else Cells.find a m

/-- List `v` at address `a`, in place of what was listed there. -/
def Cells.insert {α : Type} (a : Nat) (v : α) : List (Nat × α) → List (Nat × α)
  | [] => [(a, v)]
  | (k, w) :: m =>
    if a < k then (a, v) :: (k, w) :: m
    else if a = k then (a, v) :: m
    else (k, w) :: Cells.insert a v m

/-- List nothing at address `a`. -/
def Cells.erase {α : Type} (a : Nat) : List (Nat × α) → List (Nat × α)
  | [] => []
  | (k, w) :: m => if k = a then m else (k, w) :: Cells.erase a m

/-! ## The WAVE memory (R80, R81) -/

/-- What an unlisted WAVE address reads as: the construction value 0 (R30). -/
def Memory.unlisted : Byte := 0

/-- The canonical form: 16 addresses, strictly rising, none listed with what an unlisted one reads as. -/
abbrev Memory.wf (m : List Host.Cell) : Prop :=
  Cells.Sorted m ∧ ∀ c ∈ m, c.1 < 16 ∧ c.2 ≠ Memory.unlisted

/-- `MemRead(WAVE, i, 1)` (R80). -/
def Memory.read (m : List Host.Cell) (i : Nat) : Byte := (Cells.find i m).getD Memory.unlisted

/-- `MemWrite(WAVE, i, 1, v)` (R80). -/
def Memory.write (m : List Host.Cell) (i : Nat) (v : Byte) : List Host.Cell :=
  if v = Memory.unlisted then Cells.erase i m else Cells.insert i v m

/-- The bytes `w` at addresses `i`, `i + 1`, and so on. -/
def Memory.writeFrom (m : List Host.Cell) (i : Nat) : List Byte → List Host.Cell
  | [] => m
  | b :: bs => Memory.writeFrom (Memory.write m i b) (i + 1) bs

/-- All 16 bytes of WAVE. -/
def Memory.bytes (m : List Host.Cell) : List Byte := (List.range 16).map (Memory.read m)

/-! ## The HOST buffers (R80, R92) -/

/-- The canonical form: buffers and, in each, elements strictly rising; a buffer is listed only if an
element of it is. -/
abbrev HostMem.wf (m : HostMem) : Prop :=
  Cells.Sorted m ∧ ∀ b ∈ m, Cells.Sorted b.2 ∧ b.2 ≠ []

/-- Element `i` of HOST(b), if the block has written it. The block itself never reads one (R80).
DESIGN CHOICE, notes/assumptions/11.md. -/
def HostMem.read (m : HostMem) (b i : Nat) : Option OutVal :=
  (Cells.find b m).bind (Cells.find i)

/-- `MemWrite(HOST(b), i, 1, v)` (R80). -/
def HostMem.write (m : HostMem) (b i : Nat) (v : OutVal) : HostMem :=
  Cells.insert b (Cells.insert i v ((Cells.find b m).getD [])) m

/-- The values `vs` at elements `i`, `i + 1`, and so on of HOST(b). -/
def HostMem.writeFrom (m : HostMem) (b i : Nat) : List OutVal → HostMem
  | [] => m
  | v :: vs => HostMem.writeFrom (HostMem.write m b i v) b (i + 1) vs

/-! ## The channel registers (R22, R25, R29) -/

/-- The common fields of a channel. -/
def Synth.common (s : Synth) : Chan → Common
  | .ch1 => s.ch1.common
  | .ch2 => s.ch2.common
  | .ch3 => s.ch3.common
  | .ch4 => s.ch4.common

/-- The Synth with other common fields on one channel. -/
def Synth.setCommon (s : Synth) (c : Chan) (x : Common) : Synth :=
  match c with
  | .ch1 => { s with ch1 := { s.ch1 with common := x } }
  | .ch2 => { s with ch2 := { s.ch2 with common := x } }
  | .ch3 => { s with ch3 := { s.ch3 with common := x } }
  | .ch4 => { s with ch4 := { s.ch4 with common := x } }

/-- The envelope unit of a channel that has one. -/
def Synth.env (s : Synth) : EnvChan → Envelope
  | .ch1 => s.ch1.env
  | .ch2 => s.ch2.env
  | .ch4 => s.ch4.env

/-- The Synth with another envelope unit on one channel. -/
def Synth.setEnv (s : Synth) (c : EnvChan) (x : Envelope) : Synth :=
  match c with
  | .ch1 => { s with ch1 := { s.ch1 with env := x } }
  | .ch2 => { s with ch2 := { s.ch2 with env := x } }
  | .ch4 => { s with ch4 := { s.ch4 with env := x } }

/-- The duty registers of a pulse channel. -/
def Synth.pulse (s : Synth) : PulseChan → Pulse
  | .ch1 => s.ch1.pulse
  | .ch2 => s.ch2.pulse

/-- The Synth with other duty registers on one pulse channel. -/
def Synth.setPulse (s : Synth) (c : PulseChan) (x : Pulse) : Synth :=
  match c with
  | .ch1 => { s with ch1 := { s.ch1 with pulse := x } }
  | .ch2 => { s with ch2 := { s.ch2 with pulse := x } }

/-- The sweep unit of ch1. -/
def Synth.sweep (s : Synth) : Sweep := s.ch1.sweep

/-- The Synth with another sweep unit. -/
def Synth.setSweep (s : Synth) (x : Sweep) : Synth := { s with ch1 := { s.ch1 with sweep := x } }

/-- The wave registers of ch3. -/
def Synth.wave (s : Synth) : Wave := s.ch3.wave

/-- The Synth with other wave registers. -/
def Synth.setWave (s : Synth) (x : Wave) : Synth := { s with ch3 := { s.ch3 with wave := x } }

/-- The noise registers of ch4. -/
def Synth.noise (s : Synth) : Noise := s.ch4.noise

/-- The Synth with other noise registers. -/
def Synth.setNoise (s : Synth) (x : Noise) : Synth := { s with ch4 := { s.ch4 with noise := x } }

/-- The Synth with another raw sample on one channel. -/
def Synth.setRaw (s : Synth) (c : Chan) (r : Nat) : Synth :=
  s.setCommon c { s.common c with raw := r }

/-- The value of one terminal. -/
def PerTerm.get {α : Type} (p : PerTerm α) : Term → α
  | .left => p.left
  | .right => p.right

/-- Another value on one terminal. -/
def PerTerm.set {α : Type} (p : PerTerm α) (t : Term) (v : α) : PerTerm α :=
  match t with
  | .left => { p with left := v }
  | .right => { p with right := v }

/-! ## What an operation leaves of the whole state -/

/-- A Synth operation that returns nothing. -/
def State.setSynth (s : State) (x : Synth) : State := { s with synth := x, returned := .nothing }

/-- An operation that only returns a value (R86). -/
def State.giveBack (s : State) (v : Returned) : State := { s with returned := v }

/-- An operation of Osc instance `k` that returns nothing. -/
def State.setOsc (s : State) (k : Nat) (o : Osc) : State :=
  { s with oscs := s.oscs.set k o, returned := .nothing }

end Sys2Proof.Machine
end

