-- ==== Sys2Proof/Machine/Operands.lean ====
section
/-! DEFINITION. The arithmetic of spec/00_scope.md R14, every packed argument of spec/30_encoding.md R104
to R108, the constant tables DUTY (R191) and DIV (R276), the nibbles of WAVE (R82) and the taps of SINC
(R12). -/

namespace Sys2Proof.Machine

/-! ## Arithmetic (R13, R14) -/

/-- `b[hi:lo]`, the unsigned field of bits hi down to lo (R13). -/
def bitField (b : Byte) (hi lo : Nat) : Nat := b.toNat / 2 ^ lo % 2 ^ (hi + 1 - lo)

/-- `sat_dec(c)` (R14). -/
def satDec (c : Nat) : Nat := if 0 < c then c - 1 else 0

/-- `a >> s` on naturals (R14). -/
def shiftRight (a s : Nat) : Nat := a / 2 ^ s

/-- `x mod y` on rationals: `x - y * floor(x / y)` (R14). -/
def ratMod (x y : ℚ) : ℚ := x - y * ⌊x / y⌋

/-- `f` applied `n` times. -/
def repeated {α : Type} (f : α → α) : Nat → α → α
  | 0, x => x
  | n + 1, x => repeated f n (f x)

/-! ## Packed bytes -/

/-- ENV byte `VVVVDPPP` (R104): initial volume. -/
def envVolume (b : Byte) : Nat := bitField b 7 4

/-- ENV byte: direction. -/
def envDirection (b : Byte) : Direction := if bitField b 3 3 = 1 then .amplify else .attenuate

/-- ENV byte: period. -/
def envPeriod (b : Byte) : Nat := bitField b 2 0

/-- SWEEP byte `xTTTMSSS` (R105): period. Bit 7 is ignored. -/
def sweepPeriod (b : Byte) : Nat := bitField b 6 4

/-- SWEEP byte: mode. -/
def sweepMode (b : Byte) : SweepMode := if bitField b 3 3 = 1 then .subtraction else .addition

/-- SWEEP byte: shift. -/
def sweepShift (b : Byte) : Nat := bitField b 2 0

/-- NOISE byte `SSSSWDDD` (R106): scf, 14 and 15 clamped to 13. -/
def noiseScf (b : Byte) : Nat := min (bitField b 7 4) 13

/-- NOISE byte: step selection. -/
def noiseStepSel (b : Byte) : StepSel := if bitField b 3 3 = 1 then .steps7 else .steps15

/-- NOISE byte: drf. -/
def noiseDrf (b : Byte) : Nat := bitField b 2 0

/-- The number i of a channel. -/
def chanNumber : Chan → Nat
  | .ch1 => 1
  | .ch2 => 2
  | .ch3 => 3
  | .ch4 => 4

/-- MASK byte (R108): bit i-1 routes channel i to the left terminal, bit i+3 to the right (R331). -/
def route (mask : Byte) (t : Term) (c : Chan) : Bool :=
  match t with
  | .left => mask.getLsbD (chanNumber c - 1)
  | .right => mask.getLsbD (chanNumber c + 3)

/-! ## Registers as the rules clamp them -/

/-- `clamp(v, 0, 0x7FF)` (R103). -/
def clampFreq (v : Nat) : Nat := min v Config.freqMax

/-- LMAX(ch): 63 for ch1, ch2 and ch4, 255 for ch3 (R157). -/
def lengthMax : Chan → Nat
  | .ch1 => 63
  | .ch2 => 63
  | .ch3 => 255
  | .ch4 => 63

/-! ## Tables -/

/-- DUTY (R191): one row per duty code; row 2 is the source's, the others are the spec's own choice
(D17). -/
def dutyRow : Duty → List Nat
  | .duty12 => [0, 0, 0, 0, 0, 0, 0, 1]
  | .duty25 => [1, 0, 0, 0, 0, 0, 0, 1]
  | .duty50 => [1, 0, 0, 0, 0, 1, 1, 1]
  | .duty75 => [0, 1, 1, 1, 1, 1, 1, 0]

/-- The raw sample of a duty at an index: SAMPLE_MAX for 1, SAMPLE_MIN for 0 (R191). -/
def dutySample (d : Duty) (i : Nat) : Nat :=
  if (dutyRow d).getD i 0 = 1 then Config.sampleMax else Config.sampleMin

/-- DIV (R276). -/
def divTable : List Nat := [8, 16, 32, 48, 64, 80, 96, 112]

/-- `DIV[drf]`. -/
def divisor (drf : Nat) : Nat := divTable.getD drf 0

/-- The nibble at position p of WAVE: high nibble of the byte at an even position, low nibble at an odd
one (R82). -/
def nibble (m : List Host.Cell) (p : Nat) : Nat :=
  if p % 2 = 0 then bitField (Memory.read m (shiftRight p 1)) 7 4
  else bitField (Memory.read m (shiftRight p 1)) 3 0

/-- `SINC[ph][k]` (R12). -/
def sincTap (t : SincTable) (ph k : Nat) : ℚ := ((t[ph]?).bind fun row => row[k]?).getD 0

/-- `v(c, ph, k)`, the weight of one tap of a step of height c, with the error compensation on the centre
tap (R397). -/
def stepTap (t : SincTable) (c : ℚ) (ph k : Nat) : ℚ :=
  if k = Config.sincCenter then
    c - (((List.range Config.sincTaps).filter (· ≠ Config.sincCenter)).map
      fun j => c * sincTap t ph j).sum
  else c * sincTap t ph k

end Sys2Proof.Machine
end

