-- ==== Sys2Proof/Machine/Conversions.lean ====
section
/-! DEFINITION. Rows 24 and 25 of spec/30_encoding.md R101: the frequency conversions
(spec/48_conversions.md). They read and write no state of `S` or of any Osc. -/

namespace Sys2Proof.Machine

/-- The exact hertz of a register value (R430). -/
def gbHertz (reg : Nat) : ℚ := 131072 / (2048 - (clampFreq reg : ℚ))

/-- `round_half_up(x)` (R432). -/
def roundHalfUp (x : ℚ) : ℤ := ⌊x + 1 / 2⌋

/-- The register value of a host float (R432). -/
def gbRegister : HostFloat → Nat
  | .finite hz =>
    if hz ≤ 0 then Config.freqMax
    else
      let r := roundHalfUp (2048 - 131072 / hz)
      if r < 0 ∨ (Config.freqMax : ℤ) < r then Config.freqMax else r.toNat
  | .posInf => Config.freqMax
  | .negInf => Config.freqMax
  | .nan => Config.freqMax

/-- `fromGbFreq(reg)` (R430), for every natural (R101, R112; DEDUCED above 0xFFFF,
notes/assumptions/18.md). -/
def execFromGbFreq (reg : Nat) (s : State) : Host.Outcome State Fault Refusal :=
  .next (s.giveBack (.out (.floatOut (gbHertz reg))))

/-- `toGbFreq(hz)` (R432). -/
def execToGbFreq (hz : HostFloat) (s : State) : Host.Outcome State Fault Refusal :=
  .next (s.giveBack (.nat (gbRegister hz)))

end Sys2Proof.Machine
end

