-- ==== Sys2Proof/Machine/Osc.lean ====
section
/-! DEFINITION. Rows 26 to 31 of spec/30_encoding.md R101: the band-limited oscillator (spec/47_osc.md). -/

namespace Sys2Proof.Machine

/-! ## Recompute (R386 to R389) -/

/-- The new samplesPerDelta (R386). -/
def Osc.newSpd (o : Osc) : ℚ :=
  (2048 - (o.freq : ℚ)) * (o.m : ℚ) * o.r / (Config.clock : ℚ)

/-- The new samplesPerPeriod (R386). -/
def Osc.newSpp (o : Osc) : ℚ := o.newSpd * (o.l : ℚ)

/-- The phase carried over a recompute: its fraction of the period is kept (R387). -/
def Osc.newPhase (o : Osc) : ℚ := if 0 < o.spp then o.phase * o.newSpp / o.spp else 0

/-- The transition at step `i` of the waveform, if the value changes there (R388). -/
def deltaAt (spd : ℚ) (prev cur : ℤ) (i : Nat) : List Delta :=
  if cur ≠ prev then
    [{ location := (i : ℚ) * spd, change := cur - prev, before := prev, after := cur }]
  else []

/-- The transitions from step `i` on, `prev` being the value before it. -/
def deltasFrom (spd : ℚ) (prev : ℤ) (i : Nat) : List ℤ → List Delta
  | [] => []
  | w :: ws => deltaAt spd prev w i ++ deltasFrom spd w (i + 1) ws

/-- The transition list of a periodic waveform: the step before step 0 is the last one (R388). -/
def waveDeltas (spd : ℚ) (wave : List ℤ) : List Delta :=
  deltasFrom spd (wave.getLastD 0) 0 wave

/-- `recompute()` (R386 to R389). -/
def Osc.recompute (o : Osc) : Osc :=
  { o with
    spd := o.newSpd
    spp := o.newSpp
    phase := o.newPhase
    deltas := waveDeltas o.newSpd o.wave
    dirty := false }

/-- The recompute that `generate` begins with, if one is due (R390). -/
def Osc.refresh (o : Osc) : Osc := if o.dirty then o.recompute else o

/-! ## Generate (R390 to R399) -/

/-- The samples from the block's start to the first occurrence of a delta:
`(location - phase) mod spp` (R392). -/
def Osc.wait (o : Osc) (d : Delta) : ℚ := ratMod (d.location - o.phase) o.spp

/-- How many occurrences of a delta the block of `n` samples holds: the m with
`wait + m spp < n` (R392). -/
def Osc.occurrenceCount (o : Osc) (n : Nat) (d : Delta) : Nat :=
  ⌈((n : ℚ) - o.wait d) / o.spp⌉.toNat

/-- The times τ at which a delta occurs in the block of `n` samples (R392). -/
def Osc.occurrences (o : Osc) (n : Nat) (d : Delta) : List ℚ :=
  (List.range (o.occurrenceCount n d)).map fun m =>
    (Config.sincCenter : ℚ) + o.wait d + (m : ℚ) * o.spp

/-- `E[i] <- E[i] + x`. -/
def addAt (e : List ℚ) (i : Nat) (x : ℚ) : List ℚ := e.modify i (· + x)

/-- The SINC row of an occurrence: `floor((τ - floor τ) * 32)` (R395). -/
def sincRow (τ : ℚ) : Nat := ⌊(τ - ⌊τ⌋) * (Config.sincPhases : ℚ)⌋.toNat

/-- The index of E on which tap 0 of an occurrence lands: `floor τ - SINC_CENTER` (R395). -/
def firstTap (τ : ℚ) : Nat := ⌊τ⌋.toNat - Config.sincCenter

/-- Splat one occurrence of a step of height `c` (R395). -/
def splat (t : SincTable) (c : ℚ) (e : List ℚ) (τ : ℚ) : List ℚ :=
  (List.range Config.sincTaps).foldl
    (fun e k => addAt e (firstTap τ + k) (stepTap t c (sincRow τ) k)) e

/-- Splat every occurrence of one delta. -/
def splatDelta (t : SincTable) (o : Osc) (n : Nat) (e : List ℚ) (d : Delta) : List ℚ :=
  (o.occurrences n d).foldl (splat t (d.change : ℚ)) e

/-- The working buffer E before the splats: the leftover, then zeros; `n + 14` elements (R394). -/
def Osc.carried (o : Osc) (n : Nat) : List ℚ :=
  (List.range (n + 14)).map fun j => if j ≤ 13 then o.leftover.getD j 0 else 0

/-- The working buffer E after the splats (R394, R395). -/
def Osc.working (t : SincTable) (o : Osc) (n : Nat) : List ℚ :=
  o.deltas.foldl (splatDelta t o n) (o.carried n)

/-- Running sums from a seed (R398). -/
def runningSums (a : ℚ) : List ℚ → List ℚ
  | [] => []
  | x :: xs => (a + x) :: runningSums (a + x) xs

/-- The `n` samples `synth_block` writes (R398). -/
def Osc.samples (t : SincTable) (o : Osc) (n : Nat) : List ℚ :=
  runningSums o.seed ((o.working t n).take n)

/-- The phase `n` samples later (R391, R399). -/
def Osc.phaseAfter (o : Osc) (n : Nat) : ℚ := ratMod (o.phase + (n : ℚ)) o.spp

/-- The instance after `synth_block` (R399): an empty block leaves the seed. -/
def Osc.afterBlock (t : SincTable) (o : Osc) (n : Nat) : Osc :=
  { o with
    seed := if 0 < n then (o.samples t n).getLastD o.seed else o.seed
    leftover := (List.range 14).map fun j => (o.working t n).getD (n + j) 0
    phase := o.phaseAfter n }

/-- The instance after `muted_block` (R391); an empty block leaves seed and leftover as they were (R390, R403;
DEDUCED, notes/assumptions/20.md). -/
def Osc.afterMuted (o : Osc) (n : Nat) : Osc :=
  { o with
    seed := if 0 < n then 0 else o.seed
    leftover := if 0 < n then List.replicate 14 0 else o.leftover
    phase := o.phaseAfter n }

/-- What `generate` writes (R390). -/
def Osc.generated (t : SincTable) (o : Osc) (n : Nat) : List ℚ :=
  if o.refresh.muted then List.replicate n 0 else o.refresh.samples t n

/-- The instance after `generate` (R390). -/
def Osc.afterGenerate (t : SincTable) (o : Osc) (n : Nat) : Osc :=
  if o.refresh.muted then o.refresh.afterMuted n else o.refresh.afterBlock t n

/-! ## Construction and queries -/

/-- An Osc instance at construction (R36, R380). -/
def Osc.construction (m l : Nat) (r : ℚ) : Osc where
  m := m
  l := l
  r := r
  freq := 0
  wave := List.replicate l 0
  muted := false
  dirty := true
  spd := 0
  spp := 0
  deltas := []
  phase := 0
  leftover := List.replicate 14 0
  seed := 0

/-- The field of `O` with this name (R384; DESIGN CHOICE, notes/assumptions/19.md). -/
def Osc.get (o : Osc) : OscField → Returned
  | .multiplier => .nat o.m
  | .waveLength => .nat o.l
  | .rate => .rat o.r
  | .freq => .nat o.freq
  | .wave => .ints o.wave
  | .muted => .bool o.muted
  | .dirty => .bool o.dirty
  | .spd => .rat o.spd
  | .spp => .rat o.spp
  | .deltas => .deltas o.deltas
  | .phase => .rat o.phase
  | .leftover => .rats o.leftover
  | .seed => .rat o.seed

/-! ## Meanings -/

/-- `Osc.new(M, L, R)` (R380): the new instance comes after those there are, and is returned. Its argument
types exclude M = 0, L = 0 and R ≤ 0, so a term with one of these is no row of R101 (R456; DEDUCED,
notes/assumptions/13.md). -/
def execOscNew (m l : Nat) (r : ℚ) (s : State) : Host.Outcome State Fault Refusal :=
  if 1 ≤ m ∧ 1 ≤ l ∧ 0 < r then
    .next { s with
      oscs := s.oscs ++ [Osc.construction m l r], returned := .oscInstance s.oscs.length }
  else .refused .noSuchOperation

/-- An operation of instance `k`; where there is none, no such operation (R456; DESIGN CHOICE,
notes/assumptions/12.md). -/
def withOsc (s : State) (k : Nat) (f : Osc → Host.Outcome State Fault Refusal) :
    Host.Outcome State Fault Refusal :=
  match s.oscs[k]? with
  | some o => f o
  | none => .refused .noSuchOperation

/-- `setFrequency(v)` of an Osc (R381). -/
def execOscSetFrequency (k v : Nat) (s : State) : Host.Outcome State Fault Refusal :=
  withOsc s k fun o => .next (s.setOsc k { o with freq := clampFreq v, dirty := true })

/-- `setWaveform(w)` of an Osc (R382): exactly L values, any other number is refused (R454). -/
def execOscSetWaveform (k : Nat) (w : List ℤ) (s : State) : Host.Outcome State Fault Refusal :=
  withOsc s k fun o =>
    if w.length = o.l then .next (s.setOsc k { o with wave := w, dirty := true })
    else .refused .badShape

/-- `setMuted(m)` of an Osc (R383): `dirty` is not set. -/
def execOscSetMuted (k : Nat) (m : Bool) (s : State) : Host.Outcome State Fault Refusal :=
  withOsc s k fun o => .next (s.setOsc k { o with muted := m })

/-- `query(field)` of an Osc (R384): changes nothing of any instance. -/
def execOscQuery (k : Nat) (f : OscField) (s : State) : Host.Outcome State Fault Refusal :=
  withOsc s k fun o => .next (s.giveBack (o.get f))

/-- `generate(buf, n)` (R390); a buffer of exactly `n` elements, any other size is refused (R85, R101, R454). -/
def execGenerate (k : Nat) (buf : BufRef) (n : Nat) (s : State) :
    Host.Outcome State Fault Refusal :=
  withOsc s k fun o =>
    if buf.size = n then
      .next { s.setOsc k (o.afterGenerate s.params.sinc n) with
        host := s.host.writeFrom buf.buf 0 ((o.generated s.params.sinc n).map .floatOut) }
    else .refused .badShape

end Sys2Proof.Machine
end

