-- ==== Sys2Proof/Machine/Flags.lean ====
section
/-! DEFINITION. The block's flags. A channel's `enabled` is its one status flag (spec/10_state.md R23): set
by `reset()` alone, cleared by `disable()`, length expiry and sweep overflow, read by the channel output.
`continuous` gates the length unit (R24). -/

namespace Sys2Proof.Machine

/-- `ch.enabled <- false` (R159). -/
def disableChan (c : Chan) (s : Synth) : Synth := s.setCommon c { s.common c with enabled := false }

/-- `ch.enabled <- true` and `ch.timer <- 0`, the common part of `reset()` (R160). -/
def enableChan (c : Chan) (s : Synth) : Synth :=
  s.setCommon c { s.common c with enabled := true, timer := 0 }

/-- The overflow test of the sweep: a frequency above 0x7FF (R28, R205). -/
def sweepOverflows (f : Nat) : Bool := decide (Config.freqMax < f)

/-- ch1 disabled if `f` overflows (R205). -/
def disableOnOverflow (f : Nat) (s : Synth) : Synth :=
  if sweepOverflows f then disableChan .ch1 s else s

/-- `lengthStep(ch)` (R165): on a disabled channel too (R167). -/
def lengthTick (c : Chan) (s : Synth) : Synth :=
  let x := s.common c
  if x.continuous = false ∧ 0 < x.length then
    let s := s.setCommon c { x with length := x.length - 1 }
    if x.length - 1 = 0 then disableChan c s else s
  else s

/-- The level d(ch), the raw sample with the envelope or the output level applied (R151). -/
def level (s : Synth) : Chan → ℚ
  | .ch1 => (s.ch1.common.raw : ℚ) * s.ch1.env.volume / 15
  | .ch2 => (s.ch2.common.raw : ℚ) * s.ch2.env.volume / 15
  | .ch3 =>
    match s.ch3.wave.level with
    | .mute => 0
    | .full => (shiftRight s.ch3.common.raw 0 : Nat)
    | .half => (shiftRight s.ch3.common.raw 1 : Nat)
    | .quarter => (shiftRight s.ch3.common.raw 2 : Nat)
  | .ch4 => (s.ch4.common.raw : ℚ) * s.ch4.env.volume / 15

/-- The channel output o(ch): GROUND where the channel is disabled (R152). -/
def chanOut (ground : ℚ) (s : Synth) (c : Chan) : ℚ :=
  if (s.common c).enabled then level s c / 15 else ground

end Sys2Proof.Machine
end

