-- ==== Sys2Proof/Machine/Mixer.lean ====
section
/-! DEFINITION. Rows 17 to 19 of spec/30_encoding.md R101: the stereo mixer (spec/45_mixer.md). -/

namespace Sys2Proof.Machine

/-- What channel `c` adds to terminal `t`: `route(t, i) * o_i` (R334). -/
def routed (m : Mixer) (t : Term) (o : Chan → ℚ) (c : Chan) : ℚ :=
  if route m.mask t c then o c else 0

/-- The mixer's output on one terminal for the channel outputs `o` (R334). -/
def mixTerm (m : Mixer) (o : Chan → ℚ) (t : Term) : ℚ :=
  if m.termEnable.get t then
    (routed m t o .ch1 + routed m t o .ch2 + routed m t o .ch3 + routed m t o .ch4) / 4
      * (m.termVol.get t : ℚ) / (Config.maxTermVolume : ℚ)
  else 0

/-- `setEnable(b)` (R330). -/
def execMixSetEnable (b : Byte) (s : State) : Host.Outcome State Fault Refusal :=
  .next (s.setSynth { s.synth with mix := { s.synth.mix with mask := b } })

/-- `setTerminalEnable(t, e)` (R332). -/
def execSetTerminalEnable (t : Term) (e : Bool) (s : State) : Host.Outcome State Fault Refusal :=
  .next (s.setSynth { s.synth with
    mix := { s.synth.mix with termEnable := s.synth.mix.termEnable.set t e } })

/-- `setTerminalVolume(t, v)` (R333). -/
def execSetTerminalVolume (t : Term) (v : Nat) (s : State) : Host.Outcome State Fault Refusal :=
  .next (s.setSynth { s.synth with
    mix := { s.synth.mix with termVol := s.synth.mix.termVol.set t (min v 7) } })

end Sys2Proof.Machine
end

