-- ==== Sys2Proof/Machine/Noise.lean ====
section
/-! DEFINITION. Rows 12 to 15 of spec/30_encoding.md R101: the noise channel (spec/43_noise.md). -/

namespace Sys2Proof.Machine

/-- `lfsr_shift(x, sel)` (R278). -/
def lfsrShift (sel : StepSel) (x : BitVec 15) : BitVec 15 :=
  let bit := (x &&& 1) ^^^ ((x >>> 1) &&& 1)
  let y := (x >>> 1) ||| (bit <<< 14)
  match sel with
  | .steps15 => y
  | .steps7 => (y &&& ~~~(0x40 : BitVec 15)) ||| (bit <<< 6)

/-- The raw noise sample: SAMPLE_MAX where bit 0 of the LFSR is 0 (R279). -/
def noiseSample (x : BitVec 15) : Nat :=
  if x &&& 1 = 0 then Config.sampleMax else Config.sampleMin

/-- `rollover(ch4)` (R279). -/
def noiseRollover (s : Synth) : Synth :=
  let x := lfsrShift s.noise.stepSel s.noise.lfsr
  (s.setNoise { s.noise with lfsr := x }).setRaw .ch4 (noiseSample x)

/-- `noise_reset()` (R280). -/
def noiseReset (s : Synth) : Synth :=
  (s.setNoise { s.noise with lfsr := 0x7FFF }).setRaw .ch4 Config.sampleMin

/-- `setNoise(b)` (R270). -/
def execSetNoise (b : Byte) (s : State) : Host.Outcome State Fault Refusal :=
  .next (s.setSynth (s.synth.setNoise
    { s.synth.noise with scf := noiseScf b, stepSel := noiseStepSel b, drf := noiseDrf b }))

/-- `setScf(s)` (R271). -/
def execSetScf (n : Nat) (s : State) : Host.Outcome State Fault Refusal :=
  .next (s.setSynth (s.synth.setNoise { s.synth.noise with scf := min n 13 }))

/-- `setDrf(r)` (R272). -/
def execSetDrf (n : Nat) (s : State) : Host.Outcome State Fault Refusal :=
  .next (s.setSynth (s.synth.setNoise { s.synth.noise with drf := min n 7 }))

/-- `setStepSelection(m)` (R273). -/
def execSetStepSelection (m : StepSel) (s : State) : Host.Outcome State Fault Refusal :=
  .next (s.setSynth (s.synth.setNoise { s.synth.noise with stepSel := m }))

end Sys2Proof.Machine
end

