-- ==== Sys2Proof/Machine/Envelope.lean ====
section
/-! DEFINITION. Rows 7 and 34 of spec/30_encoding.md R101: the envelope unit
(spec/41_pulse_envelope_sweep.md, section 1). -/

namespace Sys2Proof.Machine

/-- One volume step in a direction, clamped to [0, 15] (R181). -/
def volumeStep (d : Direction) (v : Nat) : Nat :=
  match d with
  | .amplify => min (v + 1) 15
  | .attenuate => v - 1

/-- An envelope tick of one unit (R181): period 0 changes nothing. -/
def Envelope.tick (e : Envelope) : Envelope :=
  if e.period = 0 then e
  else if satDec e.counter ≠ 0 then { e with counter := satDec e.counter }
  else { e with counter := e.period, volume := volumeStep e.direction e.volume }

/-- `envStep(ch)` (R181). -/
def envTick (c : EnvChan) (s : Synth) : Synth := s.setEnv c (s.env c).tick

/-- `env_reset(ch)` (R183). -/
def envReset (c : EnvChan) (s : Synth) : Synth :=
  s.setEnv c { s.env c with volume := (s.env c).initVolume, counter := (s.env c).period }

/-- The envelope unit an ENV byte sets up (R180). -/
def envOfByte (b : Byte) : Envelope where
  initVolume := envVolume b
  volume := envVolume b
  direction := envDirection b
  period := envPeriod b
  counter := envPeriod b

/-- `setEnv(b)` (R180). -/
def execSetEnv (c : EnvChan) (b : Byte) (s : State) : Host.Outcome State Fault Refusal :=
  .next (s.setSynth (s.synth.setEnv c (envOfByte b)))

/-- `envStep()` (R181). -/
def execEnvStep (c : EnvChan) (s : State) : Host.Outcome State Fault Refusal :=
  .next (s.setSynth (envTick c s.synth))

end Sys2Proof.Machine
end

