-- ==== Sys2Proof/Machine/Pulse.lean ====
section
/-! DEFINITION. Row 8 of spec/30_encoding.md R101: the pulse channels
(spec/41_pulse_envelope_sweep.md, section 2). -/

namespace Sys2Proof.Machine

/-- `pulse_reset(ch)` (R192). -/
def pulseReset (c : PulseChan) (s : Synth) : Synth :=
  (s.setPulse c { s.pulse c with dutyIndex := 0 }).setRaw c.toChan (dutySample (s.pulse c).duty 0)

/-- `rollover(ch)` of a pulse channel (R193). -/
def pulseRollover (c : PulseChan) (s : Synth) : Synth :=
  let i := ((s.pulse c).dutyIndex + 1) % 8
  (s.setPulse c { s.pulse c with dutyIndex := i }).setRaw c.toChan (dutySample (s.pulse c).duty i)

/-- `setDuty(d)` (R190). -/
def execSetDuty (c : PulseChan) (d : Duty) (s : State) : Host.Outcome State Fault Refusal :=
  .next (s.setSynth (s.synth.setPulse c { s.synth.pulse c with duty := d }))

end Sys2Proof.Machine
end

