-- ==== Sys2Proof/Machine/Sweep.lean ====
section
/-! DEFINITION. Rows 9 and 35 of spec/30_encoding.md R101: the sweep unit of ch1
(spec/41_pulse_envelope_sweep.md, section 3). -/

namespace Sys2Proof.Machine

/-- `calc(s)`, the sweep calculation, in ℕ with no wrap (R201). -/
def Sweep.calc (sw : Sweep) (f : Nat) : Nat :=
  match sw.mode with
  | .addition => f + shiftRight f sw.shift
  | .subtraction => f - shiftRight f sw.shift

/-- `n` committed to the shadow and to the live frequency of ch1 (R205). -/
def sweepCommit (n : Nat) (s : Synth) : Synth :=
  (s.setSweep { s.sweep with shadow := n }).setCommon .ch1 { s.common .ch1 with freq := n }

/-- A sweep event (R205): the first check, and where it passes and the shift is not 0, the commit and, if
SWEEP_DOUBLE_CHECK, the second check, which commits nothing. -/
def sweepEvent (doubleCheck : Bool) (s : Synth) : Synth :=
  let n1 := s.sweep.calc s.sweep.shadow
  if sweepOverflows n1 then disableChan .ch1 s
  else if s.sweep.shift = 0 then s
  else if doubleCheck then disableOnOverflow (s.sweep.calc n1) (sweepCommit n1 s)
  else sweepCommit n1 s

/-- `sweepStep()` (R205): on a disabled ch1 too. -/
def sweepTick (doubleCheck : Bool) (s : Synth) : Synth :=
  if s.sweep.period = 0 then s
  else if satDec s.sweep.counter ≠ 0 then
    s.setSweep { s.sweep with counter := satDec s.sweep.counter }
  else sweepEvent doubleCheck (s.setSweep { s.sweep with counter := s.sweep.period })

/-- `sweep_reset()` (R206): no overflow check. -/
def sweepReset (s : Synth) : Synth :=
  s.setSweep { s.sweep with shadow := (s.common .ch1).freq, counter := s.sweep.period }

/-- `setSweep(b)` (R200): neither the counter nor the shadow changes. -/
def execSetSweep (b : Byte) (s : State) : Host.Outcome State Fault Refusal :=
  .next (s.setSynth (s.synth.setSweep
    { s.synth.sweep with period := sweepPeriod b, mode := sweepMode b, shift := sweepShift b }))

/-- `sweepStep()` (R205). -/
def execSweepStep (s : State) : Host.Outcome State Fault Refusal :=
  .next (s.setSynth (sweepTick s.params.sweepDoubleCheck s.synth))

end Sys2Proof.Machine
end

