-- ==== Sys2Proof/Machine/Wave.lean ====
section
/-! DEFINITION. Rows 10 and 11 of spec/30_encoding.md R101: the wave channel (spec/42_wave.md). -/

namespace Sys2Proof.Machine

/-- `wave_reset()` (R252). -/
def waveReset (s : Synth) : Synth :=
  (s.setWave { s.wave with position := 0 }).setRaw .ch3 (nibble s.wave.waveRam 0)

/-- `rollover(ch3)` (R250). -/
def waveRollover (s : Synth) : Synth :=
  let p := (s.wave.position + 1) % 32
  (s.setWave { s.wave with position := p }).setRaw .ch3 (nibble s.wave.waveRam p)

/-- `setWaveform(w)` of ch3 (R240): 16 bytes to WAVE 0 to 15; any other size is refused (R454). -/
def execSetWaveform (w : List Byte) (s : State) : Host.Outcome State Fault Refusal :=
  if w.length = 16 then
    .next (s.setSynth (s.synth.setWave
      { s.synth.wave with waveRam := Memory.writeFrom s.synth.wave.waveRam 0 w }))
  else .refused .badShape

/-- `setOutputLevel(l)` (R241). -/
def execSetOutputLevel (l : Level) (s : State) : Host.Outcome State Fault Refusal :=
  .next (s.setSynth (s.synth.setWave { s.synth.wave with level := l }))

end Sys2Proof.Machine
end

