-- ==== Sys2Proof/Machine/Channel.lean ====
section
/-! DEFINITION. Rows 1 to 6, 32 and 33 of spec/30_encoding.md R101: the channel common contract, the timer
and the length unit (spec/40_channel_common.md). -/

namespace Sys2Proof.Machine

/-! ## Timer (R141, R145, R146) -/

/-- P(ch), the cycles of one timer period (R141). -/
def period (s : Synth) : Chan → Nat
  | .ch1 => (2048 - s.ch1.common.freq) * 4
  | .ch2 => (2048 - s.ch2.common.freq) * 4
  | .ch3 => (2048 - s.ch3.common.freq) * 2
  | .ch4 => divisor s.ch4.noise.drf * 2 ^ s.ch4.noise.scf

/-- `rollover(ch)` (R146). -/
def rollover : Chan → Synth → Synth
  | .ch1 => pulseRollover .ch1
  | .ch2 => pulseRollover .ch2
  | .ch3 => waveRollover
  | .ch4 => noiseRollover

/-- `step(ch, k)` (R145; DEDUCED, notes/assumptions/21.md): `floor((timer + k) / P)` rollovers, and the
timer ends in [0, P). P is constant within one call. Sys2Proof/Laws/Ops.lean shows that this is R145's loop
(`timerStep_counts`, `timerStep_loop`). -/
def stepTimer (c : Chan) (k : Nat) (s : Synth) : Synth :=
  let x := s.common c
  let t := x.timer + k
  let p := period s c
  repeated (rollover c) (t / p) (s.setCommon c { x with timer := t % p })

/-- `reset(ch)` (R160). -/
def resetChan (c : Chan) (s : Synth) : Synth :=
  match c with
  | .ch1 => pulseReset .ch1 (sweepReset (envReset .ch1 (enableChan .ch1 s)))
  | .ch2 => pulseReset .ch2 (envReset .ch2 (enableChan .ch2 s))
  | .ch3 => waveReset (enableChan .ch3 s)
  | .ch4 => noiseReset (envReset .ch4 (enableChan .ch4 s))

/-! ## Meanings -/

/-- `setFrequency(v)` (R156). -/
def execSetFrequency (c : Chan) (v : Nat) (s : State) : Host.Outcome State Fault Refusal :=
  .next (s.setSynth (s.synth.setCommon c { s.synth.common c with freq := clampFreq v }))

/-- `setLength(n)` (R157). -/
def execSetLength (c : Chan) (n : Nat) (s : State) : Host.Outcome State Fault Refusal :=
  .next (s.setSynth (s.synth.setCommon c { s.synth.common c with length := min n (lengthMax c) }))

/-- `setContinuousOutput(c)` (R158). -/
def execSetContinuousOutput (c : Chan) (on : Bool) (s : State) :
    Host.Outcome State Fault Refusal :=
  .next (s.setSynth (s.synth.setCommon c { s.synth.common c with continuous := on }))

/-- `disable()` (R159). -/
def execDisable (c : Chan) (s : State) : Host.Outcome State Fault Refusal :=
  .next (s.setSynth (disableChan c s.synth))

/-- `reset()` of a channel (R160). -/
def execReset (c : Chan) (s : State) : Host.Outcome State Fault Refusal :=
  .next (s.setSynth (resetChan c s.synth))

/-- `getCurrentVolume()` (R161): returns o(ch). -/
def execGetCurrentVolume (c : Chan) (s : State) : Host.Outcome State Fault Refusal :=
  .next (s.giveBack (.rat (chanOut s.params.ground s.synth c)))

/-- `step(ch, k)` (R145): returns `ch.raw`. -/
def execTimerStep (c : Chan) (k : Nat) (s : State) : Host.Outcome State Fault Refusal :=
  .next ((s.setSynth (stepTimer c k s.synth)).giveBack
    (.nat ((stepTimer c k s.synth).common c).raw))

/-- `lengthStep()` (R165). -/
def execLengthStep (c : Chan) (s : State) : Host.Outcome State Fault Refusal :=
  .next (s.setSynth (lengthTick c s.synth))

end Sys2Proof.Machine
end

