-- ==== Sys2Proof/Machine/Sequencer.lean ====
section
/-! DEFINITION. Rows 16, 36 and 37 of spec/30_encoding.md R101: the frame sequencer and the cycle advance
(spec/44_sequencer.md). -/

namespace Sys2Proof.Machine

/-- The length ticks of a frame event, ch1 to ch4 (R302, R303). -/
def lengthTicks (s : Synth) : Synth :=
  lengthTick .ch4 (lengthTick .ch3 (lengthTick .ch2 (lengthTick .ch1 s)))

/-- The envelope ticks of a frame event, ch1, ch2, ch4 (R302, R303). -/
def envTicks (s : Synth) : Synth := envTick .ch4 (envTick .ch2 (envTick .ch1 s))

/-- `frame_event(s)` for the sequencer step `n` (R302): length, then sweep, then envelope (R303). -/
def frameEvent (doubleCheck : Bool) (n : Nat) (s : Synth) : Synth :=
  let s := if n ∈ [0, 2, 4, 6] then lengthTicks s else s
  let s := if n ∈ [2, 6] then sweepTick doubleCheck s else s
  if n = 7 then envTicks s else s

/-- A frame boundary (R304, R310): `acc` is cleared, the event of the current step runs, the step moves
on. -/
def frameBoundary (doubleCheck : Bool) (s : Synth) : Synth :=
  let s := frameEvent doubleCheck s.seq.step { s with seq := { s.seq with acc := 0 } }
  { s with seq := { s.seq with step := (s.seq.step + 1) % 8 } }

/-- Every channel's timer by `k` cycles, ch1 to ch4 (R310). -/
def stepTimers (k : Nat) (s : Synth) : Synth :=
  stepTimer .ch4 k (stepTimer .ch3 k (stepTimer .ch2 k (stepTimer .ch1 k s)))

/-- One piece of `advance`: `k` cycles, and the frame boundary if they end at one (R310). -/
def advancePiece (doubleCheck : Bool) (k : Nat) (s : Synth) : Synth :=
  let s := stepTimers k s
  let s := { s with seq := { s.seq with acc := s.seq.acc + k } }
  if s.seq.acc = Config.framePeriod then frameBoundary doubleCheck s else s

/-- The loop of `advance` (R310). Each turn takes at least one cycle, so `n` turns are enough (R460). -/
def advanceLoop (doubleCheck : Bool) : Nat → Nat → Synth → Synth
  | 0, _, s => s
  | fuel + 1, n, s =>
    if n = 0 then s
    else
      let k := min n (Config.framePeriod - s.seq.acc)
      advanceLoop doubleCheck fuel (n - k) (advancePiece doubleCheck k s)

/-- `advance(N)` (R310). -/
def advanceCycles (doubleCheck : Bool) (n : Nat) (s : Synth) : Synth :=
  advanceLoop doubleCheck n n s

/-- `seq.reset()` (R308). -/
def execSeqReset (s : State) : Host.Outcome State Fault Refusal :=
  .next (s.setSynth { s.synth with seq := { step := 0, acc := 0 } })

/-- The frame event of the current step (R302), which moves neither the step nor the count (DEDUCED,
notes/assumptions/22.md). -/
def execFrameEvent (s : State) : Host.Outcome State Fault Refusal :=
  .next (s.setSynth (frameEvent s.params.sweepDoubleCheck s.synth.seq.step s.synth))

/-- `advance(N)` (R310). -/
def execAdvance (n : Nat) (s : State) : Host.Outcome State Fault Refusal :=
  .next (s.setSynth (advanceCycles s.params.sweepDoubleCheck n s.synth))

end Sys2Proof.Machine
end

