-- ==== Sys2Proof/Machine/Synth.lean ====
section
/-! DEFINITION. Rows 20 to 23 of spec/30_encoding.md R101: the Synth facade (spec/46_synth.md). -/

namespace Sys2Proof.Machine

/-- CPS, cycles per output sample (R350). -/
def cyclesPerSample (p : Params) : ℚ := (Config.clock : ℚ) / p.sampleRate

/-- How many cycles the next `step()` advances: `floor(facc + CPS)` (R351). -/
def sampleCycles (p : Params) (s : Synth) : Nat := ⌊s.facc + cyclesPerSample p⌋.toNat

/-- The Synth after one `step()` (R351). -/
def synthAfterStep (p : Params) (s : Synth) : Synth :=
  let n := sampleCycles p s
  advanceCycles p.sweepDoubleCheck n { s with facc := s.facc + cyclesPerSample p - n }

/-- The exact mixer output of one terminal in the current state (R334, R351). -/
def mixOut (p : Params) (s : Synth) (t : Term) : ℚ := mixTerm s.mix (chanOut p.ground s) t

/-- FLOAT_OUT of one terminal's mixer output (R351, R352). -/
def outOf (p : Params) (s : Synth) (t : Term) : OutVal := .floatOut (mixOut p s t)

/-- The loop of both fills (R353, R354): frame `j`, `j + 1`, and so on; `put` writes one frame. -/
def fillLoop (p : Params) (put : Nat → OutVal → OutVal → HostMem → HostMem) :
    Nat → Nat → Synth → HostMem → Synth × HostMem
  | 0, _, s, m => (s, m)
  | n + 1, j, s, m =>
    let s := synthAfterStep p s
    fillLoop p put n (j + 1) s (put j (outOf p s .left) (outOf p s .right) m)

/-- One frame of the two-buffer form: element `j` of each buffer (R353). -/
def putStereo (left right : Nat) (j : Nat) (l r : OutVal) (m : HostMem) : HostMem :=
  (m.write left j l).write right j r

/-- One frame of the interleaved form: left at `2 j`, right at `2 j + 1` (R354). -/
def putInterleaved (buf : Nat) (j : Nat) (l r : OutVal) (m : HostMem) : HostMem :=
  (m.write buf (2 * j) l).write buf (2 * j + 1) r

/-- A field of a channel's common record. -/
def Common.get (x : Common) : CommonField → Returned
  | .freq => .nat x.freq
  | .length => .nat x.length
  | .enabled => .bool x.enabled
  | .continuous => .bool x.continuous
  | .timer => .nat x.timer
  | .raw => .nat x.raw

/-- A field of an envelope unit. -/
def Envelope.get (x : Envelope) : EnvField → Returned
  | .initVolume => .nat x.initVolume
  | .volume => .nat x.volume
  | .direction => .direction x.direction
  | .period => .nat x.period
  | .counter => .nat x.counter

/-- A field of the sweep unit. -/
def Sweep.get (x : Sweep) : SweepField → Returned
  | .shift => .nat x.shift
  | .period => .nat x.period
  | .mode => .mode x.mode
  | .shadow => .nat x.shadow
  | .counter => .nat x.counter

/-- The field of `S` with this name (R360; DESIGN CHOICE, notes/assumptions/19.md). -/
def Synth.get (s : Synth) : SynthField → Returned
  | .common c f => (s.common c).get f
  | .env c f => (s.env c).get f
  | .sweep f => s.sweep.get f
  | .duty c => .duty (s.pulse c).duty
  | .dutyIndex c => .nat (s.pulse c).dutyIndex
  | .waveRam => .bytes (Memory.bytes s.wave.waveRam)
  | .level => .level s.wave.level
  | .position => .nat s.wave.position
  | .lfsr => .nat s.noise.lfsr.toNat
  | .scf => .nat s.noise.scf
  | .drf => .nat s.noise.drf
  | .stepSel => .stepSel s.noise.stepSel
  | .seqStep => .nat s.seq.step
  | .seqAcc => .nat s.seq.acc
  | .mixMask => .nat s.mix.mask.toNat
  | .termEnable t => .bool (s.mix.termEnable.get t)
  | .termVol t => .nat (s.mix.termVol.get t)
  | .facc => .rat s.facc

/-! ## Meanings -/

/-- `synth.step()` (R351): the time advance, then the mixer read. -/
def execSynthStep (s : State) : Host.Outcome State Fault Refusal :=
  let x := synthAfterStep s.params s.synth
  .next { s with synth := x, returned := .pair (outOf s.params x .left) (outOf s.params x .right) }

/-- `synth.fill(left, right, n)` (R353); buffers of exactly `n` elements, any other size is refused (R85,
R101, R454). One buffer may be passed twice (notes/assumptions/10.md). -/
def execFillStereo (left right : BufRef) (n : Nat) (s : State) :
    Host.Outcome State Fault Refusal :=
  if left.size = n ∧ right.size = n then
    let r := fillLoop s.params (putStereo left.buf right.buf) n 0 s.synth s.host
    .next { s with synth := r.1, host := r.2, returned := .nothing }
  else .refused .badShape

/-- `synth.fill(buf, n)`, interleaved (R354); a buffer of exactly `2 n` elements, any other size is refused
(R85, R101, R454). -/
def execFillInterleaved (buf : BufRef) (n : Nat) (s : State) :
    Host.Outcome State Fault Refusal :=
  if buf.size = 2 * n then
    let r := fillLoop s.params (putInterleaved buf.buf) n 0 s.synth s.host
    .next { s with synth := r.1, host := r.2, returned := .nothing }
  else .refused .badShape

/-- `synth.query(field)` (R360): changes no state of `S`. -/
def execSynthQuery (f : SynthField) (s : State) : Host.Outcome State Fault Refusal :=
  .next (s.giveBack (s.synth.get f))

end Sys2Proof.Machine
end

