-- ==== Sys2Proof/Machine/Dispatch.lean ====
section
/-! DEFINITION. The meaning of every operation: one arm per row of spec/30_encoding.md R101. -/

namespace Sys2Proof.Machine

def exec (i : Instr) (s : State) : Host.Outcome State Fault Refusal :=
  match i with
  | .setFrequency c v => Sys2Proof.Machine.execSetFrequency c v s
  | .setLength c n => Sys2Proof.Machine.execSetLength c n s
  | .setContinuousOutput c on => Sys2Proof.Machine.execSetContinuousOutput c on s
  | .disable c => Sys2Proof.Machine.execDisable c s
  | .reset c => Sys2Proof.Machine.execReset c s
  | .getCurrentVolume c => Sys2Proof.Machine.execGetCurrentVolume c s
  | .setEnv c b => Sys2Proof.Machine.execSetEnv c b s
  | .setDuty c d => Sys2Proof.Machine.execSetDuty c d s
  | .setSweep b => Sys2Proof.Machine.execSetSweep b s
  | .setWaveform w => Sys2Proof.Machine.execSetWaveform w s
  | .setOutputLevel l => Sys2Proof.Machine.execSetOutputLevel l s
  | .setNoise b => Sys2Proof.Machine.execSetNoise b s
  | .setScf n => Sys2Proof.Machine.execSetScf n s
  | .setDrf n => Sys2Proof.Machine.execSetDrf n s
  | .setStepSelection m => Sys2Proof.Machine.execSetStepSelection m s
  | .seqReset => Sys2Proof.Machine.execSeqReset s
  | .mixSetEnable b => Sys2Proof.Machine.execMixSetEnable b s
  | .setTerminalEnable t e => Sys2Proof.Machine.execSetTerminalEnable t e s
  | .setTerminalVolume t v => Sys2Proof.Machine.execSetTerminalVolume t v s
  | .synthStep => Sys2Proof.Machine.execSynthStep s
  | .fillStereo left right n => Sys2Proof.Machine.execFillStereo left right n s
  | .fillInterleaved buf n => Sys2Proof.Machine.execFillInterleaved buf n s
  | .synthQuery f => Sys2Proof.Machine.execSynthQuery f s
  | .fromGbFreq reg => Sys2Proof.Machine.execFromGbFreq reg s
  | .toGbFreq hz => Sys2Proof.Machine.execToGbFreq hz s
  | .oscNew m l r => Sys2Proof.Machine.execOscNew m l r s
  | .oscSetFrequency k v => Sys2Proof.Machine.execOscSetFrequency k v s
  | .oscSetWaveform k w => Sys2Proof.Machine.execOscSetWaveform k w s
  | .oscSetMuted k m => Sys2Proof.Machine.execOscSetMuted k m s
  | .oscQuery k f => Sys2Proof.Machine.execOscQuery k f s
  | .generate k buf n => Sys2Proof.Machine.execGenerate k buf n s
  | .timerStep c k => Sys2Proof.Machine.execTimerStep c k s
  | .lengthStep c => Sys2Proof.Machine.execLengthStep c s
  | .envStep c => Sys2Proof.Machine.execEnvStep c s
  | .sweepStep => Sys2Proof.Machine.execSweepStep s
  | .frameEvent => Sys2Proof.Machine.execFrameEvent s
  | .advance n => Sys2Proof.Machine.execAdvance n s

end Sys2Proof.Machine
end

