-- ==== Sys2Proof/Machine/Fetch.lean ====
section
/-! DEFINITION. How the next operation comes from the host's call list: the call boundary of
spec/60_exceptions.md section 2. The block fetches nothing (spec/10_state.md R21); its program is the
sequence of calls (spec/30_encoding.md R100). -/

namespace Sys2Proof.Machine

/-- The agent an operation acts on; none for a free function, or for a constructor (R463). -/
def agentOf : Instr → Option Agent
  | .fromGbFreq _ | .toGbFreq _ | .oscNew _ _ _ => none
  | .oscSetFrequency k _ | .oscSetWaveform k _ | .oscSetMuted k _ => some (.osc k)
  | .oscQuery k _ | .generate k _ _ => some (.osc k)
  | .setFrequency _ _ | .setLength _ _ | .setContinuousOutput _ _ => some .synth
  | .disable _ | .reset _ | .getCurrentVolume _ => some .synth
  | .setEnv _ _ | .setDuty _ _ | .setSweep _ => some .synth
  | .setWaveform _ | .setOutputLevel _ => some .synth
  | .setNoise _ | .setScf _ | .setDrf _ | .setStepSelection _ => some .synth
  | .seqReset => some .synth
  | .mixSetEnable _ | .setTerminalEnable _ _ | .setTerminalVolume _ _ => some .synth
  | .synthStep | .fillStereo _ _ _ | .fillInterleaved _ _ | .synthQuery _ => some .synth
  | .timerStep _ _ | .lengthStep _ | .envStep _ | .sweepStep | .frameEvent | .advance _ =>
    some .synth

/-- Rows 32 to 37, which the host cannot call (R101). -/
def isInternal (i : Instr) : Bool := decide (32 ≤ i.row)

/-- An earlier call on the same agent has not returned (R455). -/
def overlaps (c : PendingCall) (i : Instr) : Bool :=
  match agentOf i with
  | some a => decide (a ∈ c.busy)
  | none => false

/-- The operation a call is, or why it is refused at the boundary: NoSuchOperation for a byte image that
is no row and for a host call of an internal row (R456), Overlap (R455).
The byte images that are no row and the order of the refusals: DESIGN CHOICE, notes/assumptions/15.md,
16.md. -/
def admission (c : PendingCall) : Except Refusal Instr :=
  match decodeCall c.bytes with
  | .error _ => .error .noSuchOperation
  | .ok i =>
    if c.caller = .host ∧ isInternal i = true then .error .noSuchOperation
    else if overlaps c i then .error .overlap
    else .ok i

/-- With no call pending the block does nothing and its state is frozen (R465). -/
def idle (s : State) : State := s

/-- The state in which the call at the head of the list runs: that call is taken off it. -/
def afterFetch (s : State) (rest : List PendingCall) : State := { s with calls := rest }

/-- A call of the operation a table word decodes to, made by whoever may make it. -/
def callOfWord (nbits w : Nat) : PendingCall where
  caller :=
    match decodeTableWord nbits w with
    | some i => if isInternal i then .block else .host
    | none => .host
  busy := []
  bytes := tableCallBytes nbits w

end Sys2Proof.Machine
end

