-- ==== Sys2Proof/Machine/Step.lean ====
section
/-! DEFINITION. One step of the machine: the next call of the host's program, from the call boundary to
its return, as one indivisible transition (spec/20_memory.md R84). -/

namespace Sys2Proof.Machine

/-- One step. With no call pending nothing happens (R465). -/
def step (s : State) : Host.Outcome State Fault Refusal :=
  match s.calls with
  | [] => .next (idle s)
  | c :: rest =>
    match admission c with
    | .ok i => exec i (afterFetch s rest)
    | .error r => .refused r

/-- `s` with a table word as the next call. -/
def State.withFetchWord (s : State) (nbits w : Nat) : State :=
  { s with calls := callOfWord nbits w :: s.calls }

end Sys2Proof.Machine
end

