-- ==== Sys2Proof/Safety.lean ====
section
/-! DEFINITION. What counts as a legal state (the ranges spec/10_state.md gives its fields) and as an
operation that keeps to its own fields, in the terms the claims use. -/

namespace Sys2Proof.Machine

/-! ## Legal states -/

/-- The ranges of R22; `lmax` is the channel's longest length. -/
abbrev Common.ok (x : Common) (lmax : Nat) : Prop :=
  x.freq ≤ 0x7FF ∧ x.length ≤ lmax ∧ x.raw ≤ 15

/-- A raw sample of ch1, ch2 or ch4 is SAMPLE_MIN or SAMPLE_MAX (R150). -/
abbrev Common.twoLevel (x : Common) : Prop := x.raw = 0 ∨ x.raw = 15

/-- The ranges of R25; the volume's is the envelope invariant R26. -/
abbrev Envelope.ok (x : Envelope) : Prop :=
  x.initVolume ≤ 15 ∧ x.volume ≤ 15 ∧ x.period ≤ 7 ∧ x.counter ≤ 7

/-- The ranges of R27; the shadow's is part of the sweep invariant R28. -/
abbrev Sweep.ok (x : Sweep) : Prop :=
  x.shift ≤ 7 ∧ x.period ≤ 7 ∧ x.shadow ≤ 0x7FF ∧ x.counter ≤ 7

/-- The range of R29. -/
abbrev Pulse.ok (x : Pulse) : Prop := x.dutyIndex < 8

/-- The ranges of R30, and WAVE in canonical form. -/
abbrev Wave.ok (x : Wave) : Prop := x.position < 32 ∧ Memory.wf x.waveRam

/-- The ranges of R31. -/
abbrev Noise.ok (x : Noise) : Prop := x.scf ≤ 13 ∧ x.drf ≤ 7

/-- The ranges of R22 to R34 over the whole Synth. -/
abbrev Synth.ok (s : Synth) : Prop :=
  (s.ch1.common.ok 63 ∧ s.ch1.common.twoLevel ∧ s.ch1.env.ok ∧ s.ch1.pulse.ok ∧ s.ch1.sweep.ok) ∧
  (s.ch2.common.ok 63 ∧ s.ch2.common.twoLevel ∧ s.ch2.env.ok ∧ s.ch2.pulse.ok) ∧
  (s.ch3.common.ok 255 ∧ s.ch3.wave.ok) ∧
  (s.ch4.common.ok 63 ∧ s.ch4.common.twoLevel ∧ s.ch4.env.ok ∧ s.ch4.noise.ok) ∧
  (s.seq.step < 8 ∧ s.seq.acc < 8192) ∧
  (s.mix.termVol.left ≤ 7 ∧ s.mix.termVol.right ≤ 7) ∧
  (0 ≤ s.facc ∧ s.facc < 1)

/-- A transition inside one period (R37). -/
abbrev Delta.ok (d : Delta) (spp : ℚ) : Prop :=
  0 ≤ d.location ∧ d.location < spp ∧ d.change = d.after - d.before ∧ d.change ≠ 0

/-- The rates and the transition list are those of the frequency and the waveform (R386, R388). -/
abbrev Osc.current (o : Osc) : Prop :=
  o.spd = o.newSpd ∧ o.spp = o.newSpp ∧ o.deltas = waveDeltas o.spd o.wave

/-- The ranges of R36: before the first recompute, and after it. -/
abbrev Osc.ok (o : Osc) : Prop :=
  (1 ≤ o.m ∧ 1 ≤ o.l ∧ 0 < o.r ∧ o.freq ≤ 0x7FF) ∧
  (o.wave.length = o.l ∧ o.leftover.length = 14) ∧
  ((o.dirty = true ∧ o.spp = 0 ∧ o.phase = 0 ∧ o.deltas = []) ∨
    (0 < o.spp ∧ 0 ≤ o.phase ∧ o.phase < o.spp ∧ ∀ d ∈ o.deltas, d.ok o.spp)) ∧
  (o.dirty = false → o.current)

/-- The machine's invariant: every field in the range the spec gives it, both memories in canonical form,
and the OPEN parameters legal (GROUND is not 0, R153; SAMPLE_RATE is positive, R350). -/
abbrev State.Inv (s : State) : Prop :=
  s.synth.ok ∧ (∀ o ∈ s.oscs, o.ok) ∧ HostMem.wf s.host ∧ s.params.ground ≠ 0 ∧ 0 < s.params.sampleRate

/-! ## What an operation leaves alone -/

/-- Everything but the Synth and the returned value is as before. -/
abbrev State.sameBeside (s t : State) : Prop :=
  t.oscs = s.oscs ∧ t.host = s.host ∧ t.params = s.params ∧ t.calls = s.calls

/-- Of the whole machine only the Synth fields `fs` may differ, and nothing is returned. The fields are
those of R360, every byte of WAVE among them; no element of a HOST buffer and no Osc field differs. -/
def State.changesOnly (fs : List SynthField) (s t : State) : Prop :=
  (∀ f, f ∉ fs → t.synth.get f = s.synth.get f) ∧ s.sameBeside t ∧ t.returned = .nothing

/-- The Synth is untouched, and so are the parameters and the call list. -/
abbrev State.sameSynth (s t : State) : Prop :=
  t.synth = s.synth ∧ t.params = s.params ∧ t.calls = s.calls

/-- The transient fields a channel's `reset()` reloads (R481, R482); all others are persisted. -/
def transientFields : Chan → List SynthField
  | .ch1 => [.common .ch1 .enabled, .common .ch1 .timer, .common .ch1 .raw, .env .ch1 .volume,
      .env .ch1 .counter, .sweep .shadow, .sweep .counter, .dutyIndex .ch1]
  | .ch2 => [.common .ch2 .enabled, .common .ch2 .timer, .common .ch2 .raw, .env .ch2 .volume,
      .env .ch2 .counter, .dutyIndex .ch2]
  | .ch3 => [.common .ch3 .enabled, .common .ch3 .timer, .common .ch3 .raw, .position]
  | .ch4 => [.common .ch4 .enabled, .common .ch4 .timer, .common .ch4 .raw, .env .ch4 .volume,
      .env .ch4 .counter, .lfsr]

/-- The fields a rollover of a channel moves, with its timer (R145, R146). -/
def timedFields : Chan → List SynthField
  | .ch1 => [.common .ch1 .timer, .common .ch1 .raw, .dutyIndex .ch1]
  | .ch2 => [.common .ch2 .timer, .common .ch2 .raw, .dutyIndex .ch2]
  | .ch3 => [.common .ch3 .timer, .common .ch3 .raw, .position]
  | .ch4 => [.common .ch4 .timer, .common .ch4 .raw, .lfsr]

/-- The internal events of sequencer step `n`, in the order of R303: the table of R302. -/
def frameSchedule : Nat → List Instr
  | 0 => [.lengthStep .ch1, .lengthStep .ch2, .lengthStep .ch3, .lengthStep .ch4]
  | 2 => [.lengthStep .ch1, .lengthStep .ch2, .lengthStep .ch3, .lengthStep .ch4, .sweepStep]
  | 4 => [.lengthStep .ch1, .lengthStep .ch2, .lengthStep .ch3, .lengthStep .ch4]
  | 6 => [.lengthStep .ch1, .lengthStep .ch2, .lengthStep .ch3, .lengthStep .ch4, .sweepStep]
  | 7 => [.envStep .ch1, .envStep .ch2, .envStep .ch4]
  | _ => []

/-- Every channel's timer by `k` cycles, ch1 to ch4 (R310). -/
def timerPieces (k : Nat) : List Instr :=
  [.timerStep .ch1 k, .timerStep .ch2 k, .timerStep .ch3 k, .timerStep .ch4 k]

/-- A run of operations, one after the other; none where one of them is refused. -/
def runAll : List Instr → State → Option State
  | [], s => some s
  | i :: is, s =>
    match exec i s with
    | .next t => runAll is t
    | .fault _ => none
    | .refused _ => none

end Sys2Proof.Machine
end

