-- ==== Sys2Proof/Certificates/Slice0/Obligations.lean ====
section
/-! DEFINITION. The statements about the model that the provers are given, from the numbered rules of
spec/. A statement about an operation says that it answers a next state, what that state holds, and that
nothing else differs: `State.changesOnly` lists every field of the Synth that may. -/

open Sys2Proof Sys2Proof.Machine

/-! ## The call boundary -/

/-- R84, R100, R465: the next call of the program, decoded, runs as one transition, in the state whose
call list has lost it; with no call pending the state is frozen. The call list and its byte images are the
model's own (notes/assumptions/1.md, 2.md, 3.md, 4.md). -/
def Obligations.StepRunsTheDecodedCall : Prop :=
  (∀ (s : State) (c : PendingCall) (rest : List PendingCall) (i : Instr),
    s.calls = c :: rest → decodeCall c.bytes = .ok i → (c.caller = .host → i.row ≤ 31) →
    (∀ a, agentOf i = some a → a ∉ c.busy) →
    step s = exec i { s with calls := rest }) ∧
  (∀ s : State, s.calls = [] → step s = .next s)

/-- R456: a call that is no row of R101 is refused, and so is a host call of an internal row; a channel
without the capability has no such row. The model's own are: the byte images (notes/assumptions/1.md);
that a cut, bad or surplus argument is refused in this way (15.md); that a host call of an internal row is
so refused on a busy Synth too, before Overlap (16.md); and that an operation of an Osc instance there is
not is refused in the same way (12.md). -/
def Obligations.UnknownOperationIsRefused : Prop :=
  (∀ (s : State) (c : PendingCall) (rest : List PendingCall) (e : DecodeError),
    s.calls = c :: rest → decodeCall c.bytes = .error e → step s = .refused .noSuchOperation) ∧
  (∀ (s : State) (c : PendingCall) (rest : List PendingCall) (i : Instr),
    s.calls = c :: rest → decodeCall c.bytes = .ok i → c.caller = .host → 32 ≤ i.row →
    step s = .refused .noSuchOperation) ∧
  (∀ args : List Byte,
    decodeCall (7 :: (Target.ch .ch3).code :: args) = .error .noSuchTarget ∧
    decodeCall (9 :: (Target.ch .ch2).code :: args) = .error .noSuchTarget ∧
    decodeCall (10 :: (Target.ch .ch1).code :: args) = .error .noSuchTarget ∧
    decodeCall (8 :: (Target.ch .ch4).code :: args) = .error .noSuchTarget) ∧
  (∀ (row target : Byte) (args : List Byte), row.toNat = 0 ∨ 37 < row.toNat →
    decodeCall (row :: target :: args) = .error .noSuchRow) ∧
  (∀ (i : Instr) (k : Nat) (s : State), agentOf i = some (.osc k) → s.oscs.length ≤ k →
    exec i s = .refused .noSuchOperation)

/-- R455: a call on an agent whose earlier call has not returned is refused; a call on any other agent
never is for that reason. The model's own are: that a call says which agents are busy
(notes/assumptions/4.md); that a block's call of an internal row overlaps like a host's (3.md); and that
Overlap comes before the refusal of a missing instance or a wrong size (16.md). -/
def Obligations.OverlapIsRefused : Prop :=
  (∀ (s : State) (c : PendingCall) (rest : List PendingCall) (i : Instr) (a : Agent),
    s.calls = c :: rest → decodeCall c.bytes = .ok i → (c.caller = .host → i.row ≤ 31) →
    agentOf i = some a → a ∈ c.busy → step s = .refused .overlap) ∧
  (∀ (s : State) (c : PendingCall) (rest : List PendingCall) (i : Instr),
    s.calls = c :: rest → decodeCall c.bytes = .ok i → (∀ a, agentOf i = some a → a ∉ c.busy) →
    step s ≠ .refused .overlap)

/-- R85, R101, R454: the five calls with a size are refused with BadShape exactly where the size is not
the one asked for: 16, L, n, 2n and n. R454's list names the shorter buffers of the fills and of `generate`;
a longer one is R85's call of any other shape. -/
def Obligations.WrongSizesAreBadShape : Prop :=
  (∀ (w : List Byte) (s : State),
    exec (.setWaveform w) s = .refused .badShape ↔ w.length ≠ 16) ∧
  (∀ (k : Nat) (w : List ℤ) (s : State) (o : Osc), s.oscs[k]? = some o →
    (exec (.oscSetWaveform k w) s = .refused .badShape ↔ w.length ≠ o.l)) ∧
  (∀ (left right : BufRef) (n : Nat) (s : State),
    exec (.fillStereo left right n) s = .refused .badShape ↔ left.size ≠ n ∨ right.size ≠ n) ∧
  (∀ (buf : BufRef) (n : Nat) (s : State),
    exec (.fillInterleaved buf n) s = .refused .badShape ↔ buf.size ≠ 2 * n) ∧
  (∀ (k : Nat) (buf : BufRef) (n : Nat) (s : State) (o : Osc), s.oscs[k]? = some o →
    (exec (.generate k buf n) s = .refused .badShape ↔ buf.size ≠ n))

/-! ## Encoding -/

/-- Some calls written out from the layouts of R104 to R109 and the byte layout of notes/assumptions/1.md
decode to the operation they stand for. -/
def Obligations.SampleCallsDecode : Prop :=
  decodeCall [1, 1, 0xD0, 0x0F] = .ok (.setFrequency .ch1 2000) ∧
  decodeCall [7, 2, 0xA3] = .ok (.setEnv .ch2 0xA3) ∧
  decodeCall [9, 1, 0x1F] = .ok (.setSweep 0x1F) ∧
  decodeCall [12, 4, 0x5B] = .ok (.setNoise 0x5B) ∧
  decodeCall [17, 6, 0x11] = .ok (.mixSetEnable 0x11) ∧
  decodeCall [20, 7] = .ok .synthStep ∧
  decodeCall [26, 8, 3, 7, 0xFF, 0xFF, 0x01, 0] = .ok (.oscNew 4 8 32768) ∧
  decodeCall [31, 8, 0, 1, 0x80, 0x01, 0x80, 0x01] = .ok (.generate 0 ⟨1, 128⟩ 128)

/-- R100, R113, R115: decoding the byte image of any well-formed operation gives it back, with every
argument at every value, and leaves what follows it. The byte layout is the model's own
(notes/assumptions/1.md). -/
def Obligations.DecodeInvertsEncode : Prop :=
  ∀ i : Instr, i.wellFormed = true →
    decodeCall (encode i) = .ok i ∧ ∀ rest : List Byte, decodeOp (encode i ++ rest) = .ok (i, rest)

/-! ## Invariants of the machine -/

/-- R40, R41, R480: the state right after construction meets the machine's invariant. -/
def Obligations.ResetStateIsLegal : Prop := State.reset.Inv

/-- R14, R22 to R34, R36, R153, R350: every field stays in the range the spec gives it, both memories stay
canonical and the parameters stay legal, from any legal state and over any call. -/
def Obligations.StepKeepsTheInvariant : Prop :=
  ∀ s t : State, s.Inv → step s = .next t → t.Inv

/-- R450, R459, R460: every well-formed operation (its buffers of exactly the size R85 and R101 ask for)
on an instance that exists (and, for an Osc waveform, with L values) runs to completion; it changes
neither the parameters nor the calls still pending. The numbering of instances and the list of pending
calls are the model's own (notes/assumptions/12.md, 2.md). -/
def Obligations.EveryOperationCompletes : Prop :=
  ∀ (i : Instr) (s : State), i.wellFormed = true →
    (∀ k, agentOf i = some (.osc k) → k < s.oscs.length) →
    (∀ k w o, i = .oscSetWaveform k w → s.oscs[k]? = some o → w.length = o.l) →
    ∃ t, exec i s = .next t ∧ t.params = s.params ∧ t.calls = s.calls

/-- R86: every host operation but the generating ones (rows 20 to 22 and 31) and the constructor (row 26)
is idempotent. -/
def Obligations.SettersAndReadsAreIdempotent : Prop :=
  ∀ (i : Instr) (s t : State), s.Inv → i.row ≤ 31 → i.row ∉ [20, 21, 22, 26, 31] →
    exec i s = .next t → exec i t = .next t

/-- R404, R463: an operation on one agent leaves every other agent as it is. -/
def Obligations.AgentsAreIndependent : Prop :=
  ∀ (i : Instr) (s t : State), exec i s = .next t →
    (agentOf i ≠ some .synth → t.synth = s.synth) ∧
    (∀ k o, agentOf i ≠ some (.osc k) → s.oscs[k]? = some o → t.oscs[k]? = some o)

/-! ## Channels -/

/-- R156: the frequency is clamped to 0x7FF and nothing else changes, the sweep shadow among the rest; the
timer period follows at once, but for ch4, whose period does not read it. -/
def Obligations.SetFrequencyClamps : Prop :=
  ∀ (c : Chan) (v : Nat) (s : State), ∃ t, exec (.setFrequency c v) s = .next t ∧
    t.synth.get (.common c .freq) = .nat (min v 0x7FF) ∧
    s.changesOnly [.common c .freq] t ∧
    period t.synth c = match c with
      | .ch1 => (2048 - min v 0x7FF) * 4
      | .ch2 => (2048 - min v 0x7FF) * 4
      | .ch3 => (2048 - min v 0x7FF) * 2
      | .ch4 => period s.synth .ch4

/-- R157: the length is clamped to 255 on ch3 and to 63 on the others, and nothing else changes. -/
def Obligations.SetLengthClamps : Prop :=
  ∀ (c : Chan) (n : Nat) (s : State), ∃ t, exec (.setLength c n) s = .next t ∧
    t.synth.get (.common c .length) = .nat (min n (if c = .ch3 then 255 else 63)) ∧
    s.changesOnly [.common c .length] t

/-- R158: only `continuous` changes; true, a length tick then changes nothing; false, the countdown goes on
from the length as it is. -/
def Obligations.SetContinuousOutputGatesTheLength : Prop :=
  ∀ (c : Chan) (on : Bool) (s : State), ∃ t, exec (.setContinuousOutput c on) s = .next t ∧
    t.synth.get (.common c .continuous) = .bool on ∧
    s.changesOnly [.common c .continuous] t ∧
    (on = true → exec (.lengthStep c) t = .next t) ∧
    (on = false → ∃ u, exec (.lengthStep c) t = .next u ∧
      (u.synth.common c).length = (s.synth.common c).length - 1)

/-- R159: only `enabled` changes; from now on the channel's output is GROUND. -/
def Obligations.DisableClearsEnabledAlone : Prop :=
  ∀ (c : Chan) (s : State), ∃ t, exec (.disable c) s = .next t ∧
    t.synth.get (.common c .enabled) = .bool false ∧
    s.changesOnly [.common c .enabled] t ∧
    exec (.getCurrentVolume c) t = .next { t with returned := .rat s.params.ground }

/-- R160, R481, R482: `reset()` of a channel loads its transient fields, each from where the table says,
and changes nothing else. -/
def Obligations.ChannelResetLoadsTransientFields : Prop :=
  ∀ (c : Chan) (s : State), ∃ t, exec (.reset c) s = .next t ∧
    s.changesOnly (transientFields c) t ∧
    t.synth.get (.common c .enabled) = .bool true ∧
    t.synth.get (.common c .timer) = .nat 0 ∧
    (∀ e : EnvChan, e.toChan = c →
      t.synth.get (.env e .volume) = s.synth.get (.env e .initVolume) ∧
      t.synth.get (.env e .counter) = s.synth.get (.env e .period)) ∧
    (c = .ch1 →
      t.synth.get (.sweep .shadow) = s.synth.get (.common .ch1 .freq) ∧
      t.synth.get (.sweep .counter) = s.synth.get (.sweep .period)) ∧
    (∀ p : PulseChan, p.toChan = c →
      t.synth.get (.dutyIndex p) = .nat 0 ∧
      t.synth.get (.common c .raw) = .nat (match (s.synth.pulse p).duty with
        | .duty12 => 0
        | .duty25 => 15
        | .duty50 => 15
        | .duty75 => 0)) ∧
    (c = .ch3 →
      t.synth.get .position = .nat 0 ∧
      t.synth.get (.common .ch3 .raw) =
        .nat ((Memory.read s.synth.wave.waveRam 0).toNat / 16)) ∧
    (c = .ch4 →
      t.synth.get .lfsr = .nat 0x7FFF ∧ t.synth.get (.common .ch4 .raw) = .nat 0)

/-- R161, R152, R151, R242: the value returned is GROUND where the channel is disabled, and otherwise the
raw sample scaled by the envelope or shifted by the output level, over 15; no state changes. -/
def Obligations.GetCurrentVolumeReturnsTheOutput : Prop :=
  (∀ (e : EnvChan) (s : State), exec (.getCurrentVolume e.toChan) s = .next { s with
    returned := .rat (if (s.synth.common e.toChan).enabled
      then ((s.synth.common e.toChan).raw : ℚ) / 15 * ((s.synth.env e).volume / 15)
      else s.params.ground) }) ∧
  (∀ s : State, exec (.getCurrentVolume .ch3) s = .next { s with
    returned := .rat (if (s.synth.common .ch3).enabled
      then match s.synth.wave.level with
        | .mute => 0
        | .full => ((s.synth.common .ch3).raw : ℚ) / 15
        | .half => (((s.synth.common .ch3).raw / 2 : ℕ) : ℚ) / 15
        | .quarter => (((s.synth.common .ch3).raw / 4 : ℕ) : ℚ) / 15
      else s.params.ground) })

/-- R145: `step(ch, k)` is the loop of its pseudocode: below P it only counts; at or above P the timer
loses P, the channel rolls over and the loop goes on. It returns the raw sample. -/
def Obligations.TimerStepIsTheLoop : Prop :=
  ∀ (c : Chan) (k : Nat) (s : State), 0 < period s.synth c →
    ∃ t, exec (.timerStep c k) s = .next t ∧ s.sameBeside t ∧
      t.returned = .nat (t.synth.common c).raw ∧
      ((s.synth.common c).timer + k < period s.synth c →
        t.synth = s.synth.setCommon c
          { s.synth.common c with timer := (s.synth.common c).timer + k }) ∧
      (period s.synth c ≤ (s.synth.common c).timer + k →
        exec (.timerStep c 0) { s with
          synth := rollover c (s.synth.setCommon c { s.synth.common c with
            timer := (s.synth.common c).timer + k - period s.synth c }) } = .next t)

/-- R145, R146, R148, R193, R250, R279: from a legal state `step(ch, k)` makes floor((timer + k) / P)
rollovers, whether the channel is enabled or not (R147), the timer ends below P, and only the channel's
timer, raw sample and position move. With no rollover the raw sample stays; with at least one it is the
sample of the final duty index, position or LFSR. -/
def Obligations.TimerStepCountsRollovers : Prop :=
  ∀ (c : Chan) (k : Nat) (s : State), s.synth.ok →
    let rolls := ((s.synth.common c).timer + k) / period s.synth c
    ∃ t, exec (.timerStep c k) s = .next t ∧ s.sameBeside t ∧
      (∀ f, f ∉ timedFields c → t.synth.get f = s.synth.get f) ∧
      (t.synth.common c).timer = ((s.synth.common c).timer + k) % period s.synth c ∧
      (t.synth.common c).timer < period s.synth c ∧
      (rolls = 0 → (t.synth.common c).raw = (s.synth.common c).raw) ∧
      (∀ p : PulseChan, p.toChan = c →
        (t.synth.pulse p).dutyIndex = ((s.synth.pulse p).dutyIndex + rolls) % 8 ∧
        (0 < rolls → (t.synth.common c).raw = 15 * (match (s.synth.pulse p).duty with
          | .duty12 => [0, 0, 0, 0, 0, 0, 0, 1]
          | .duty25 => [1, 0, 0, 0, 0, 0, 0, 1]
          | .duty50 => [1, 0, 0, 0, 0, 1, 1, 1]
          | .duty75 => [0, 1, 1, 1, 1, 1, 1, 0]).getD (t.synth.pulse p).dutyIndex 0)) ∧
      (c = .ch3 →
        t.synth.wave.position = (s.synth.wave.position + rolls) % 32 ∧
        (0 < rolls → (t.synth.common c).raw = if t.synth.wave.position % 2 = 0
          then (Memory.read s.synth.wave.waveRam (t.synth.wave.position / 2)).toNat / 16
          else (Memory.read s.synth.wave.waveRam (t.synth.wave.position / 2)).toNat % 16)) ∧
      (c = .ch4 →
        t.synth.noise.lfsr =
          repeated (lfsrShift s.synth.noise.stepSel) rolls s.synth.noise.lfsr ∧
        (0 < rolls → (t.synth.common c).raw =
          if t.synth.noise.lfsr.getLsbD 0 then 0 else 15))

/-- R165, R167: a length tick counts down where the length is not 0 and not gated, on a disabled channel
too, and disables where it reaches 0; otherwise it changes nothing. -/
def Obligations.LengthStepCountsDown : Prop :=
  ∀ (c : Chan) (s : State), ∃ t, exec (.lengthStep c) s = .next t ∧
    s.changesOnly [.common c .length, .common c .enabled] t ∧
    (if (s.synth.common c).continuous = false ∧ 0 < (s.synth.common c).length then
      (t.synth.common c).length = (s.synth.common c).length - 1 ∧
      (t.synth.common c).enabled =
        ((s.synth.common c).enabled && decide ((s.synth.common c).length ≠ 1))
    else t.synth = s.synth)

/-- R166: after `setLength n` with `continuous` false, the channel is disabled at the n-th length tick and
not before, and a length of 0 never expires. -/
def Obligations.LengthExpiresAtTheNthTick : Prop :=
  ∀ (c : Chan) (n j : Nat) (s : State), n ≤ (if c = .ch3 then 255 else 63) →
    (s.synth.common c).continuous = false →
    ∃ t, runAll (.setLength c n :: List.replicate j (.lengthStep c)) s = some t ∧
      (t.synth.common c).length = n - j ∧
      (t.synth.common c).enabled = ((s.synth.common c).enabled && decide (n = 0 ∨ j < n))

/-! ## Envelope -/

/-- R180, R104: the ENV byte `VVVVDPPP` loads the five envelope fields and nothing else changes. -/
def Obligations.SetEnvLoadsTheByte : Prop :=
  ∀ (c : EnvChan) (b : Byte) (s : State), ∃ t, exec (.setEnv c b) s = .next t ∧
    s.changesOnly [.env c .initVolume, .env c .volume, .env c .direction, .env c .period,
      .env c .counter] t ∧
    t.synth.get (.env c .initVolume) = .nat (b.toNat / 16) ∧
    t.synth.get (.env c .volume) = .nat (b.toNat / 16) ∧
    t.synth.get (.env c .direction) =
      .direction (if b.getLsbD 3 then .amplify else .attenuate) ∧
    t.synth.get (.env c .period) = .nat (b.toNat % 8) ∧
    t.synth.get (.env c .counter) = .nat (b.toNat % 8)

/-- R181: with period 0 an envelope tick changes nothing; otherwise it counts down, and where the counter
is at 1 or 0 reloads it and moves the volume by one in its direction, never outside [0, 15]. -/
def Obligations.EnvStepMovesTheVolume : Prop :=
  ∀ (c : EnvChan) (s : State), ∃ t, exec (.envStep c) s = .next t ∧
    s.changesOnly [.env c .volume, .env c .counter] t ∧
    ((t.synth.env c).counter, (t.synth.env c).volume) =
      (if (s.synth.env c).period = 0 then ((s.synth.env c).counter, (s.synth.env c).volume)
      else if 2 ≤ (s.synth.env c).counter then
        ((s.synth.env c).counter - 1, (s.synth.env c).volume)
      else ((s.synth.env c).period,
        if (s.synth.env c).direction = .amplify then min ((s.synth.env c).volume + 1) 15
        else max ((s.synth.env c).volume - 1) 0))

/-- R182: no sequence of `setEnv`, `reset()` and envelope ticks takes the volume outside [0, 15]. -/
def Obligations.EnvelopeVolumeStaysBounded : Prop :=
  ∀ (c : EnvChan) (ops : List Instr) (s : State),
    (∀ i ∈ ops, (∃ b, i = .setEnv c b) ∨ i = .reset c.toChan ∨ i = .envStep c) →
    (s.synth.env c).volume ≤ 15 → (s.synth.env c).initVolume ≤ 15 →
    ∃ t, runAll ops s = some t ∧ (t.synth.env c).volume ≤ 15

/-! ## Pulse -/

/-- R190: only `duty` changes; the raw sample follows at the next rollover, at the next index of the new
pattern. -/
def Obligations.SetDutyWaitsForTheRollover : Prop :=
  ∀ (c : PulseChan) (d : Duty) (s : State), ∃ t, exec (.setDuty c d) s = .next t ∧
    t.synth.get (.duty c) = .duty d ∧
    s.changesOnly [.duty c] t ∧
    ((rollover c.toChan t.synth).common c.toChan).raw =
      dutySample d (((s.synth.pulse c).dutyIndex + 1) % 8)

/-- R191, R192, R193, R194: after `reset()`, the j-th period of a pulse channel plays entry j mod 8 of its
duty pattern. -/
def Obligations.DutyPatternRepeats : Prop :=
  ∀ (c : PulseChan) (j : Nat) (s : State), (s.synth.common c.toChan).freq ≤ 0x7FF →
    ∃ t, runAll [.reset c.toChan,
        .timerStep c.toChan (j * ((2048 - (s.synth.common c.toChan).freq) * 4))] s = some t ∧
      t.returned = .nat (15 * (match (s.synth.pulse c).duty with
        | .duty12 => [0, 0, 0, 0, 0, 0, 0, 1]
        | .duty25 => [1, 0, 0, 0, 0, 0, 0, 1]
        | .duty50 => [1, 0, 0, 0, 0, 1, 1, 1]
        | .duty75 => [0, 1, 1, 1, 1, 1, 1, 0]).getD (j % 8) 0) ∧
      (t.synth.pulse c).dutyIndex = j % 8 ∧ (t.synth.common c.toChan).timer = 0

/-! ## Sweep -/

/-- R200, R105: the SWEEP byte `xTTTMSSS` loads period, mode and shift; bit 7 has no effect, and neither
the counter nor the shadow changes. -/
def Obligations.SetSweepLoadsTheByte : Prop :=
  ∀ (b : Byte) (s : State), ∃ t, exec (.setSweep b) s = .next t ∧
    s.changesOnly [.sweep .period, .sweep .mode, .sweep .shift] t ∧
    t.synth.get (.sweep .period) = .nat (b.toNat / 16 % 8) ∧
    t.synth.get (.sweep .mode) = .mode (if b.getLsbD 3 then .subtraction else .addition) ∧
    t.synth.get (.sweep .shift) = .nat (b.toNat % 8) ∧
    exec (.setSweep (b ^^^ 0x80)) s = .next t

/-- R205, R201: a sweep tick, case by case: off, counting, first check, no commit, commit and second check.
It may move the shadow, the counter, and ch1's frequency and `enabled`, and nothing else. -/
def Obligations.SweepStepFollowsTheAlgorithm : Prop :=
  ∀ s : State, ∃ t, exec .sweepStep s = .next t ∧
    s.changesOnly [.sweep .shadow, .sweep .counter, .common .ch1 .freq, .common .ch1 .enabled] t ∧
    let sw := s.synth.sweep
    let x := s.synth.common .ch1
    let next : Nat → Nat := fun f =>
      if sw.mode = .addition then f + f / 2 ^ sw.shift else f - f / 2 ^ sw.shift
    (t.synth.sweep.counter, t.synth.sweep.shadow, (t.synth.common .ch1).freq,
        (t.synth.common .ch1).enabled) =
      (if sw.period = 0 then (sw.counter, sw.shadow, x.freq, x.enabled)
      else if 2 ≤ sw.counter then (sw.counter - 1, sw.shadow, x.freq, x.enabled)
      else if 0x7FF < next sw.shadow then (sw.period, sw.shadow, x.freq, false)
      else if sw.shift = 0 then (sw.period, sw.shadow, x.freq, x.enabled)
      else (sw.period, next sw.shadow, next sw.shadow, x.enabled &&
        !(s.params.sweepDoubleCheck && decide (0x7FF < next (next sw.shadow)))))

/-- R207, R208, R28, R23, R452: subtraction never disables and never raises the shadow; addition that
overflows disables at the tick whose counter reaches 0 and commits nothing. The disable lasts: no
operation but the channel's own `reset()`, and so no step that runs another call, turns a disabled channel
on. -/
def Obligations.SweepOverflowOnlyInAddition : Prop :=
  (∀ s : State, s.synth.sweep.mode = .subtraction → s.synth.sweep.shadow ≤ 0x7FF →
    ∃ t, exec .sweepStep s = .next t ∧
      (t.synth.common .ch1).enabled = (s.synth.common .ch1).enabled ∧
      t.synth.sweep.shadow ≤ s.synth.sweep.shadow) ∧
  (∀ s : State, s.synth.sweep.mode = .addition → s.synth.sweep.period ≠ 0 →
    s.synth.sweep.counter ≤ 1 → 0 < s.synth.sweep.shift →
    0x7FF < s.synth.sweep.shadow + s.synth.sweep.shadow / 2 ^ s.synth.sweep.shift →
    ∃ t, exec .sweepStep s = .next t ∧
      (t.synth.common .ch1).enabled = false ∧
      (t.synth.common .ch1).freq = (s.synth.common .ch1).freq ∧
      t.synth.sweep.shadow = s.synth.sweep.shadow) ∧
  (∀ (c : Chan) (i : Instr) (s t : State), exec i s = .next t → i ≠ .reset c →
    (s.synth.common c).enabled = false → (t.synth.common c).enabled = false) ∧
  (∀ (c : Chan) (s t : State), step s = .next t → (s.synth.common c).enabled = false →
    (∀ call rest, s.calls = call :: rest → decodeCall call.bytes ≠ .ok (.reset c)) →
    (t.synth.common c).enabled = false)

/-! ## Wave -/

/-- R240, R82: 16 bytes go to WAVE 0 to 15, byte i holding nibble 2i in its high half and nibble 2i + 1 in
its low half; the raw sample, the position and every other field stay. -/
def Obligations.SetWaveformFillsWave : Prop :=
  ∀ (w : List Byte) (s : State), w.length = 16 → Memory.wf s.synth.wave.waveRam →
    ∃ t, exec (.setWaveform w) s = .next t ∧
      s.changesOnly [.waveRam] t ∧
      (∀ i, i < 16 →
        Memory.read t.synth.wave.waveRam i = w.getD i 0 ∧
        nibble t.synth.wave.waveRam (2 * i) = (w.getD i 0).toNat / 16 ∧
        nibble t.synth.wave.waveRam (2 * i + 1) = (w.getD i 0).toNat % 16) ∧
      t.synth.get .waveRam = .bytes w

/-- R241, R242: only the level changes; an enabled ch3 then outputs 0, r, r >> 1 or r >> 2, over 15. -/
def Obligations.SetOutputLevelShiftsTheOutput : Prop :=
  ∀ (l : Level) (s : State), ∃ t, exec (.setOutputLevel l) s = .next t ∧
    t.synth.get .level = .level l ∧
    s.changesOnly [.level] t ∧
    ((s.synth.common .ch3).enabled = true →
      exec (.getCurrentVolume .ch3) t = .next { t with returned := .rat (match l with
        | .mute => 0
        | .full => ((s.synth.common .ch3).raw : ℚ) / 15
        | .half => (((s.synth.common .ch3).raw / 2 : ℕ) : ℚ) / 15
        | .quarter => (((s.synth.common .ch3).raw / 4 : ℕ) : ℚ) / 15) })

/-- R245, R250, R252, R82: after `reset()`, the j-th period of ch3 plays nibble j mod 32 of WAVE, high
nibble first. -/
def Obligations.WaveChannelPlaysItsNibbles : Prop :=
  ∀ (j : Nat) (s : State), (s.synth.common .ch3).freq ≤ 0x7FF →
    ∃ t, runAll [.reset .ch3, .timerStep .ch3 (j * ((2048 - (s.synth.common .ch3).freq) * 2))] s
        = some t ∧
      t.synth.wave.position = j % 32 ∧
      t.returned = .nat (if j % 2 = 0
        then (Memory.read s.synth.wave.waveRam (j % 32 / 2)).toNat / 16
        else (Memory.read s.synth.wave.waveRam (j % 32 / 2)).toNat % 16)

/-! ## Noise -/

/-- R270, R106, R271, R272, R273: the NOISE byte `SSSSWDDD` and the three single setters load their fields,
clamped, and nothing else changes. -/
def Obligations.NoiseSettersLoadTheirFields : Prop :=
  (∀ (b : Byte) (s : State), ∃ t, exec (.setNoise b) s = .next t ∧
    s.changesOnly [.scf, .stepSel, .drf] t ∧
    t.synth.get .scf = .nat (min (b.toNat / 16) 13) ∧
    t.synth.get .stepSel = .stepSel (if b.getLsbD 3 then .steps7 else .steps15) ∧
    t.synth.get .drf = .nat (b.toNat % 8)) ∧
  (∀ (n : Nat) (s : State), ∃ t, exec (.setScf n) s = .next t ∧
    s.changesOnly [.scf] t ∧ t.synth.get .scf = .nat (min n 13)) ∧
  (∀ (n : Nat) (s : State), ∃ t, exec (.setDrf n) s = .next t ∧
    s.changesOnly [.drf] t ∧ t.synth.get .drf = .nat (min n 7)) ∧
  (∀ (m : StepSel) (s : State), ∃ t, exec (.setStepSelection m) s = .next t ∧
    s.changesOnly [.stepSel] t ∧ t.synth.get .stepSel = .stepSel m)

/-- R278: one shift of the LFSR, bit by bit, in both modes. -/
def Obligations.LfsrShiftBitByBit : Prop :=
  ∀ (x : BitVec 15) (i : Nat), i < 15 →
    ((lfsrShift .steps15 x).getLsbD i =
      if i = 14 then x.getLsbD 0 ^^ x.getLsbD 1 else x.getLsbD (i + 1)) ∧
    ((lfsrShift .steps7 x).getLsbD i =
      if i = 14 ∨ i = 6 then x.getLsbD 0 ^^ x.getLsbD 1 else x.getLsbD (i + 1))

/-- R276, R277, R279, R280: after `reset()`, j periods of DIV[drf] << scf cycles shift the LFSR j times from
0x7FFF, and the raw sample is 15 where its bit 0 is 0 and 0 where it is 1. -/
def Obligations.NoiseChannelShiftsTheLfsr : Prop :=
  ∀ (j : Nat) (s : State), s.synth.noise.drf ≤ 7 →
    ∃ t, runAll [.reset .ch4, .timerStep .ch4 (j *
        (8 * (if s.synth.noise.drf = 0 then 1 else 2 * s.synth.noise.drf)
          * 2 ^ s.synth.noise.scf))] s = some t ∧
      t.synth.noise.lfsr = repeated (lfsrShift s.synth.noise.stepSel) j 0x7FFF ∧
      t.returned = .nat (if t.synth.noise.lfsr.getLsbD 0 then 0 else 15)

/-- R282, R283: from the reset seed the 15-bit sequence repeats after 32767 shifts and not before, the
7-bit mode's raw samples after 127; seven low bits 0 lock the 7-bit mode at SAMPLE_MAX, after 8 shifts the
register is 0, and 0 is a fixed point of both modes. -/
def Obligations.NoiseRepeatsAndLocksUp : Prop :=
  (repeated (lfsrShift .steps15) 32767 0x7FFF = 0x7FFF ∧
    ∀ j, 0 < j → j < 32767 → repeated (lfsrShift .steps15) j 0x7FFF ≠ 0x7FFF) ∧
  (∀ j, noiseSample (repeated (lfsrShift .steps7) (j + 127) 0x7FFF) =
    noiseSample (repeated (lfsrShift .steps7) j 0x7FFF)) ∧
  (∀ (x : BitVec 15), x.toNat % 128 = 0 →
    (∀ j, (repeated (lfsrShift .steps7) j x).toNat % 128 = 0 ∧
      noiseSample (repeated (lfsrShift .steps7) j x) = 15) ∧
    repeated (lfsrShift .steps7) 8 x = 0) ∧
  (∀ sel, lfsrShift sel 0 = 0)

/-! ## Sequencer -/

/-- R308, R491: both sequencer fields become 0 and no channel field changes; the next frame event then
comes after 8192 cycles and no sooner. -/
def Obligations.SeqResetRestartsTheFrame : Prop :=
  ∀ s : State, ∃ t, exec .seqReset s = .next t ∧
    t.synth.seq = ⟨0, 0⟩ ∧ s.changesOnly [.seqStep, .seqAcc] t ∧
    (∃ u, exec (.advance 8191) t = .next u ∧ u.synth.seq = ⟨0, 8191⟩) ∧
    (∃ u, exec (.advance 8192) t = .next u ∧ u.synth.seq = ⟨1, 0⟩)

/-- R302, R303: the frame event of the current step is the run of the ticks the schedule lists for it, in
its order. That it moves neither the step nor the cycle count is the model's reading
(notes/assumptions/22.md): R310 clears the count before it and moves the step after it. -/
def Obligations.FrameEventFollowsTheSchedule : Prop :=
  ∀ s : State, ∃ t u, exec .frameEvent s = .next t ∧
    runAll (frameSchedule s.synth.seq.step) s = some u ∧
    t.synth = u.synth ∧ s.sameBeside t ∧ t.returned = .nothing ∧ t.synth.seq = s.synth.seq

/-- R310, R304: an advance of 0 cycles changes nothing; one that ends before the frame boundary only steps
the timers and counts; one that ends at it then runs the frame event, clears the count and moves the step
on; one that goes past it is the piece up to the boundary and then the rest. -/
def Obligations.AdvanceStopsAtEachFrame : Prop :=
  ∀ (n : Nat) (s : State), s.synth.seq.acc < 8192 →
    exec (.advance 0) s = .next { s with returned := .nothing } ∧
    (n < 8192 - s.synth.seq.acc → 0 < n → ∃ t u, exec (.advance n) s = .next t ∧
      runAll (timerPieces n) s = some u ∧ s.sameBeside t ∧
      t.synth = { u.synth with seq := ⟨s.synth.seq.step, s.synth.seq.acc + n⟩ }) ∧
    (n = 8192 - s.synth.seq.acc → ∃ t u v, exec (.advance n) s = .next t ∧
      runAll (timerPieces n) s = some u ∧ s.sameBeside t ∧
      exec .frameEvent { u with synth := { u.synth with seq := ⟨s.synth.seq.step, 0⟩ } } = .next v ∧
      t.synth = { v.synth with seq := ⟨(s.synth.seq.step + 1) % 8, 0⟩ }) ∧
    (8192 - s.synth.seq.acc < n → ∃ t u, exec (.advance n) s = .next t ∧
      exec (.advance (8192 - s.synth.seq.acc)) s = .next u ∧
      exec (.advance (n - (8192 - s.synth.seq.acc))) u = .next t)

/-- R311, R304: after n cycles the count is (acc + n) mod 8192, and one frame event has run for each 8192
cycles counted. -/
def Obligations.AdvanceCountsFrameEvents : Prop :=
  ∀ (n : Nat) (s : State), s.synth.seq.step < 8 → s.synth.seq.acc < 8192 →
    ∃ t, exec (.advance n) s = .next t ∧
      t.synth.seq.acc = (s.synth.seq.acc + n) % 8192 ∧
      t.synth.seq.step = (s.synth.seq.step + (s.synth.seq.acc + n) / 8192) % 8

/-- R310, R88: an advance split anywhere is the same advance: time has no seams. -/
def Obligations.AdvanceSplitsAnywhere : Prop :=
  ∀ (a b : Nat) (s : State), s.synth.ok →
    ∃ t u, exec (.advance (a + b)) s = .next t ∧ runAll [.advance a, .advance b] s = some u ∧ t = u

/-! ## Mixer -/

/-- R330, R332, R333: each mixer setter writes its field, the volume clamped to 7, and nothing else. -/
def Obligations.MixerSettersWriteTheirFields : Prop :=
  (∀ (b : Byte) (s : State), ∃ t, exec (.mixSetEnable b) s = .next t ∧
    s.changesOnly [.mixMask] t ∧ t.synth.mix.mask = b) ∧
  (∀ (m : Term) (e : Bool) (s : State), ∃ t, exec (.setTerminalEnable m e) s = .next t ∧
    s.changesOnly [.termEnable m] t ∧ t.synth.get (.termEnable m) = .bool e) ∧
  (∀ (m : Term) (v : Nat) (s : State), ∃ t, exec (.setTerminalVolume m v) s = .next t ∧
    s.changesOnly [.termVol m] t ∧ t.synth.get (.termVol m) = .nat (min v 7))

/-- R331, R334, R335: a terminal's output is the sum of the channels its mask bits route (bit i-1 left, bit
i+3 right), over 4, times its volume over 7, and exactly 0 where the terminal is off. -/
def Obligations.MixSumsTheRoutedChannels : Prop :=
  ∀ (m : Mixer) (o1 o2 o3 o4 : ℚ) (t : Term),
    let bit : Nat → ℚ := fun i =>
      if m.mask.getLsbD (match t with | .left => i - 1 | .right => i + 3) then 1 else 0
    mixTerm m (fun | .ch1 => o1 | .ch2 => o2 | .ch3 => o3 | .ch4 => o4) t =
      match (match t with | .left => m.termEnable.left | .right => m.termEnable.right) with
      | false => 0
      | true => (bit 1 * o1 + bit 2 * o2 + bit 3 * o3 + bit 4 * o4) / 4 *
          ((match t with | .left => m.termVol.left | .right => m.termVol.right) / 7)

/-- R336: with no routed channel disabled a terminal's output lies in [0, 1]; with one channel alone
routed, at volume 7, it is that channel's output over 4. -/
def Obligations.MixStaysInRange : Prop :=
  (∀ (s : State) (t : Term), s.synth.ok →
    (∀ c, route s.synth.mix.mask t c = true → (s.synth.common c).enabled = true) →
    0 ≤ mixOut s.params s.synth t ∧ mixOut s.params s.synth t ≤ 1) ∧
  (∀ (s : State) (t : Term) (c : Chan), s.synth.mix.termEnable.get t = true →
    s.synth.mix.termVol.get t = 7 → (∀ c', route s.synth.mix.mask t c' = decide (c' = c)) →
    mixOut s.params s.synth t = chanOut s.params.ground s.synth c / 4)

/-! ## Synth -/

/-- R350, R351: `step()` adds CPS to the fraction, advances the whole cycles of it, keeps the rest in
[0, 1), and returns the mixer output of the state at the end of the tick. -/
def Obligations.SynthStepAdvancesThenMixes : Prop :=
  ∀ s : State, 0 ≤ s.synth.facc → s.synth.facc < 1 → 0 < s.params.sampleRate →
    let total := s.synth.facc + 4194304 / s.params.sampleRate
    ∃ t u, exec .synthStep s = .next t ∧
      exec (.advance ⌊total⌋.toNat) { s with synth := { s.synth with facc := total - ⌊total⌋ } }
        = .next u ∧
      t.synth = u.synth ∧ s.sameBeside t ∧
      t.synth.facc = total - ⌊total⌋ ∧ 0 ≤ t.synth.facc ∧ t.synth.facc < 1 ∧
      t.returned = .pair
        (.floatOut (mixTerm t.synth.mix (chanOut s.params.ground t.synth) .left))
        (.floatOut (mixTerm t.synth.mix (chanOut s.params.ground t.synth) .right))

/-- R351, R492: j calls of `step()` advance exactly floor(j CPS + facc) cycles, in one piece or in j. -/
def Obligations.StepsLoseNoCycle : Prop :=
  ∀ (j : Nat) (s : State), s.Inv →
    let total := s.synth.facc + j * (4194304 / s.params.sampleRate)
    ∃ t u, runAll (List.replicate j .synthStep) s = some t ∧
      exec (.advance ⌊total⌋.toNat) s = .next u ∧
      t.synth = { u.synth with facc := total - ⌊total⌋ }

/-- R353, R361, R92: `fill(left, right, n)` on buffers of exactly n elements leaves the Synth as n calls
of `step()` do, writes element j of both buffers with the pair of call j + 1, and writes no other element.
That the host may pass one buffer twice, where the right value is then written last, is the model's
reading (notes/assumptions/10.md). -/
def Obligations.FillStereoIsRepeatedSteps : Prop :=
  ∀ (left right : BufRef) (n : Nat) (s : State), left.size = n → right.size = n →
    ∃ t u, exec (.fillStereo left right n) s = .next t ∧
      runAll (List.replicate n .synthStep) s = some u ∧
      t.synth = u.synth ∧ t.oscs = s.oscs ∧ t.params = s.params ∧ t.calls = s.calls ∧
      (∀ j, j < n → ∃ v l r, runAll (List.replicate (j + 1) .synthStep) s = some v ∧
        v.returned = .pair l r ∧ t.host.read right.buf j = some r ∧
        t.host.read left.buf j = some (if left.buf = right.buf then r else l)) ∧
      (∀ b i, (b = left.buf ∨ b = right.buf → n ≤ i) → t.host.read b i = s.host.read b i)

/-- R354, R361, R92: the interleaved form, on a buffer of exactly 2n elements, writes the pair of call j +
1 at elements 2j and 2j + 1, left first, and no other element. -/
def Obligations.FillInterleavedIsRepeatedSteps : Prop :=
  ∀ (buf : BufRef) (n : Nat) (s : State), buf.size = 2 * n →
    ∃ t u, exec (.fillInterleaved buf n) s = .next t ∧
      runAll (List.replicate n .synthStep) s = some u ∧
      t.synth = u.synth ∧ t.oscs = s.oscs ∧ t.params = s.params ∧ t.calls = s.calls ∧
      (∀ j, j < n → ∃ v l r, runAll (List.replicate (j + 1) .synthStep) s = some v ∧
        v.returned = .pair l r ∧ t.host.read buf.buf (2 * j) = some l ∧
        t.host.read buf.buf (2 * j + 1) = some r) ∧
      (∀ b i, (b = buf.buf → 2 * n ≤ i) → t.host.read b i = s.host.read b i)

/-- R360, R384, R86: a query returns the field it names and changes nothing, and the fields it can name
are the whole Synth and the whole Osc: two legal Synths that answer every query alike are the same, and so
are two instances. The form of a result is the model's own (notes/assumptions/19.md). -/
def Obligations.QueriesShowTheWholeState : Prop :=
  (∀ (f : SynthField) (s : State), exec (.synthQuery f) s = .next { s with returned :=
    match f with
    | .common c .freq => .nat (s.synth.common c).freq
    | .common c .length => .nat (s.synth.common c).length
    | .common c .enabled => .bool (s.synth.common c).enabled
    | .common c .continuous => .bool (s.synth.common c).continuous
    | .common c .timer => .nat (s.synth.common c).timer
    | .common c .raw => .nat (s.synth.common c).raw
    | .env c .initVolume => .nat (s.synth.env c).initVolume
    | .env c .volume => .nat (s.synth.env c).volume
    | .env c .direction => .direction (s.synth.env c).direction
    | .env c .period => .nat (s.synth.env c).period
    | .env c .counter => .nat (s.synth.env c).counter
    | .sweep .shift => .nat s.synth.ch1.sweep.shift
    | .sweep .period => .nat s.synth.ch1.sweep.period
    | .sweep .mode => .mode s.synth.ch1.sweep.mode
    | .sweep .shadow => .nat s.synth.ch1.sweep.shadow
    | .sweep .counter => .nat s.synth.ch1.sweep.counter
    | .duty c => .duty (s.synth.pulse c).duty
    | .dutyIndex c => .nat (s.synth.pulse c).dutyIndex
    | .waveRam => .bytes ((List.range 16).map (Memory.read s.synth.ch3.wave.waveRam))
    | .level => .level s.synth.ch3.wave.level
    | .position => .nat s.synth.ch3.wave.position
    | .lfsr => .nat s.synth.ch4.noise.lfsr.toNat
    | .scf => .nat s.synth.ch4.noise.scf
    | .drf => .nat s.synth.ch4.noise.drf
    | .stepSel => .stepSel s.synth.ch4.noise.stepSel
    | .seqStep => .nat s.synth.seq.step
    | .seqAcc => .nat s.synth.seq.acc
    | .mixMask => .nat s.synth.mix.mask.toNat
    | .termEnable .left => .bool s.synth.mix.termEnable.left
    | .termEnable .right => .bool s.synth.mix.termEnable.right
    | .termVol .left => .nat s.synth.mix.termVol.left
    | .termVol .right => .nat s.synth.mix.termVol.right
    | .facc => .rat s.synth.facc }) ∧
  (∀ (k : Nat) (f : OscField) (s : State) (o : Osc), s.oscs[k]? = some o →
    exec (.oscQuery k f) s = .next { s with returned :=
      match f with
      | .multiplier => .nat o.m
      | .waveLength => .nat o.l
      | .rate => .rat o.r
      | .freq => .nat o.freq
      | .wave => .ints o.wave
      | .muted => .bool o.muted
      | .dirty => .bool o.dirty
      | .spd => .rat o.spd
      | .spp => .rat o.spp
      | .deltas => .deltas o.deltas
      | .phase => .rat o.phase
      | .leftover => .rats o.leftover
      | .seed => .rat o.seed }) ∧
  (∀ s t : Synth, s.ok → t.ok → (∀ f, s.get f = t.get f) → s = t) ∧
  (∀ o p : Osc, (∀ f, o.get f = p.get f) → o = p)

/-! ## Conversions -/

/-- R430, R431, R101, R112: `fromGbFreq` returns FLOAT_OUT of 131072 / (2048 - min(reg, 0x7FF)), between
64 and 131072, for every natural reg, and changes no state. That a reg above R430's 0xFFFF is clamped like
any other is the model's reading of R101 and R112 (notes/assumptions/18.md). -/
def Obligations.FromGbFreqIsTheFormula : Prop :=
  ∀ (reg : Nat) (s : State), ∃ hz : ℚ,
    exec (.fromGbFreq reg) s = .next { s with returned := .out (.floatOut hz) } ∧
    hz * (2048 - (min reg 0x7FF : ℕ)) = 131072 ∧ 64 ≤ hz ∧ hz ≤ 131072

/-- R432: `toGbFreq` rounds 2048 - 131072 / hz half up; a value that is not a finite positive number, or
whose result leaves 0 to 0x7FF, gives 0x7FF. No state changes. -/
def Obligations.ToGbFreqRoundsHalfUp : Prop :=
  (∀ (hz : HostFloat) (s : State), hz = .nan ∨ hz = .posInf ∨ hz = .negInf ∨
      (∃ q, hz = .finite q ∧ q ≤ 0) →
    exec (.toGbFreq hz) s = .next { s with returned := .nat 0x7FF }) ∧
  (∀ (q : ℚ) (s : State), 0 < q → ∃ r : Nat,
    exec (.toGbFreq (.finite q)) s = .next { s with returned := .nat r } ∧
    (if 0 ≤ ⌊2048 - 131072 / q + 1 / 2⌋ ∧ ⌊2048 - 131072 / q + 1 / 2⌋ ≤ 0x7FF
      then (r : ℤ) = ⌊2048 - 131072 / q + 1 / 2⌋ else r = 0x7FF))

/-- R433 (its exact part), R434: `toGbFreq` undoes `fromGbFreq`, and the frequencies that give a register
value below 0x7FF are exactly those of its interval. -/
def Obligations.ConversionsRoundTrip : Prop :=
  (∀ (reg : Nat) (hz : ℚ) (s : State), reg ≤ 0x7FF →
    exec (.fromGbFreq reg) s =
      .next { s with returned := .out (.floatOut hz) } →
    exec (.toGbFreq (.finite hz)) s = .next { s with returned := .nat reg }) ∧
  (∀ (r : Nat) (q : ℚ) (s : State), r < 0x7FF →
    (exec (.toGbFreq (.finite q)) s = .next { s with returned := .nat r } ↔
      131072 / (2048 + 1 / 2 - (r : ℚ)) ≤ q ∧ q < 131072 / (2047 + 1 / 2 - (r : ℚ)))) ∧
  (∀ (q : ℚ) (s : State), 262144 ≤ q →
    exec (.toGbFreq (.finite q)) s = .next { s with returned := .nat 0x7FF })

/-! ## Osc -/

/-- R380, R36, R41: `Osc.new` adds one instance at the construction values and changes nothing else of the
machine. That it comes last in the list of instances and is returned by its place there is the model's own
(notes/assumptions/12.md). -/
def Obligations.OscNewAddsAnInstance : Prop :=
  ∀ (m l : Nat) (r : ℚ) (s : State), 1 ≤ m → 1 ≤ l → 0 < r →
    ∃ t o, exec (.oscNew m l r) s = .next t ∧ s.sameSynth t ∧ t.host = s.host ∧
      t.returned = .oscInstance s.oscs.length ∧ t.oscs = s.oscs ++ [o] ∧
      o.m = m ∧ o.l = l ∧ o.r = r ∧ o.freq = 0 ∧ o.wave.length = l ∧ (∀ w ∈ o.wave, w = 0) ∧
      o.muted = false ∧ o.dirty = true ∧ o.spd = 0 ∧ o.spp = 0 ∧ o.deltas = [] ∧ o.phase = 0 ∧
      o.leftover.length = 14 ∧ (∀ x ∈ o.leftover, x = 0) ∧ o.seed = 0

/-- R381, R382, R383, R385: the three setters of an instance write their field, the first two set `dirty`,
and nothing else of the machine changes. -/
def Obligations.OscSettersWriteTheirFields : Prop :=
  ∀ (k : Nat) (s : State) (o : Osc), s.oscs[k]? = some o →
    (∀ v : Nat, exec (.oscSetFrequency k v) s = .next { s with
      oscs := s.oscs.set k { o with freq := min v 0x7FF, dirty := true }, returned := .nothing }) ∧
    (∀ w : List ℤ, w.length = o.l → exec (.oscSetWaveform k w) s = .next { s with
      oscs := s.oscs.set k { o with wave := w, dirty := true }, returned := .nothing }) ∧
    (∀ m : Bool, exec (.oscSetMuted k m) s = .next { s with
      oscs := s.oscs.set k { o with muted := m }, returned := .nothing })

/-- R386 to R390, R403: an empty block on a dirty instance, muted or not, recomputes the rates, carries
the phase over at its fraction of the period, rebuilds the transition list in ascending order and clears
`dirty`; seed and leftover stay as they were, and nothing else changes. For a muted instance that is R390
and R403 against R391's pseudocode (notes/assumptions/20.md). -/
def Obligations.EmptyBlockRecomputes : Prop :=
  ∀ (k : Nat) (buf : BufRef) (s : State) (o : Osc), s.oscs[k]? = some o → o.ok → o.dirty = true →
    buf.size = 0 →
    let spd := (2048 - (o.freq : ℚ)) * o.m * o.r / 4194304
    ∃ t p, exec (.generate k buf 0) s = .next t ∧ t.oscs[k]? = some p ∧
      s.sameSynth t ∧ t.host = s.host ∧ (∀ k', k' ≠ k → t.oscs[k']? = s.oscs[k']?) ∧
      p.spd = spd ∧ p.spp = spd * o.l ∧ 0 < p.spd ∧
      p.phase = (if 0 < o.spp then o.phase * (spd * o.l) / o.spp else 0) ∧
      p.deltas.Pairwise (fun a b => a.location < b.location) ∧
      (∀ d, d ∈ p.deltas ↔ ∃ i, i < o.l ∧
        let prev := o.wave.getD ((i + o.l - 1) % o.l) 0
        o.wave.getD i 0 ≠ prev ∧ d = ⟨i * spd, o.wave.getD i 0 - prev, prev, o.wave.getD i 0⟩) ∧
      p.dirty = false ∧ p.m = o.m ∧ p.l = o.l ∧ p.r = o.r ∧ p.freq = o.freq ∧ p.wave = o.wave ∧
      p.muted = o.muted ∧
      p.leftover = o.leftover ∧ p.seed = o.seed

/-- R397, R402: the 15 taps of an injected step sum to its change for every SINC table, the taps beside the
centre are the scaled SINC row, and the changes of one period sum to 0. -/
def Obligations.InjectedStepsSumExactly : Prop :=
  (∀ (t : SincTable) (c : ℚ) (ph : Nat), ((List.range 15).map (stepTap t c ph)).sum = c) ∧
  (∀ (t : SincTable) (c : ℚ) (ph k : Nat) (hp : ph < 32) (hk : k < 15), k ≠ 7 →
    stepTap t c ph k = c * t[ph][k]) ∧
  (∀ (spd : ℚ) (wave : List ℤ), ((waveDeltas spd wave).map Delta.change).sum = 0)

/-- R392, R395, R396: the occurrences of a transition in a block are exactly the times its period returns
before the block's end, each listed once, in rising order; an occurrence's first tap lands on floor(tau) -
7 and its SINC row is floor((tau - floor(tau)) * 32), and every tap lands inside the working buffer. -/
def Obligations.OccurrencesAreExact : Prop :=
  (∀ (o : Osc) (n : Nat) (d : Delta), 0 < o.spp →
    (o.occurrences n d).Pairwise (· < ·) ∧
    ∀ τ : ℚ,
      (τ ∈ o.occurrences n d ↔
        (∃ m : Nat, τ = 7 + ratMod (d.location - o.phase) o.spp + m * o.spp) ∧ τ < n + 7) ∧
      (τ ∈ o.occurrences n d → 7 ≤ τ ∧ firstTap τ + 14 ≤ n + 13 ∧ sincRow τ < 32)) ∧
  (∀ τ : ℚ, 7 ≤ τ →
    (firstTap τ : ℤ) = ⌊τ⌋ - 7 ∧ (sincRow τ : ℤ) = ⌊(τ - (⌊τ⌋ : ℚ)) * 32⌋)

/-- R394, R395: element j of the working buffer is the carried leftover plus, for every transition and each
of its occurrences, the tap that lands on j. -/
def Obligations.WorkingBufferSumsTheTaps : Prop :=
  ∀ (t : SincTable) (o : Osc) (n j : Nat), 0 < o.spp → j < n + 14 →
    (o.working t n).length = n + 14 ∧
    (o.working t n).getD j 0 = (if j ≤ 13 then o.leftover.getD j 0 else 0) +
      (o.deltas.map fun d => ((o.occurrences n d).map fun τ =>
        if firstTap τ ≤ j ∧ j ≤ firstTap τ + 14
        then stepTap t d.change (sincRow τ) (j - firstTap τ) else 0).sum).sum

/-- R390, R391, R398, R399, R92: `generate`, on a buffer of exactly n elements, writes elements 0 to n-1
and no other, zeros where muted and the running sum of the working buffer from the seed where not; it then
carries the seed, the leftover and the phase, and changes nothing else of the machine. A muted block
clears seed and leftover, but for an empty one, which leaves them (R390, R403 against R391's pseudocode:
notes/assumptions/20.md). -/
def Obligations.GenerateWritesOneBlock : Prop :=
  ∀ (k : Nat) (buf : BufRef) (n : Nat) (s : State) (o : Osc), s.oscs[k]? = some o → o.ok →
    buf.size = n →
    let q := o.refresh
    let e := q.working s.params.sinc n
    ∃ t p, exec (.generate k buf n) s = .next t ∧ t.oscs = s.oscs.set k p ∧
      s.sameSynth t ∧ t.returned = .nothing ∧
      (∀ b i, (b = buf.buf → n ≤ i) → t.host.read b i = s.host.read b i) ∧
      (∀ j, j < n → t.host.read buf.buf j = some (.floatOut
        (if o.muted then 0 else q.seed + (e.take (j + 1)).sum))) ∧
      p = { q with
        seed := if o.muted then (if n = 0 then q.seed else 0) else q.seed + (e.take n).sum
        leftover := if o.muted then (if n = 0 then q.leftover else List.replicate 14 0)
          else (List.range 14).map fun j => e.getD (n + j) 0
        phase := ratMod (q.phase + n) q.spp }

/-- R493: consecutive blocks of a and b samples give the samples and the instance of one block of a + b;
a headline rule of the Osc: leftover, seed and phase carry everything across a block boundary. -/
def Obligations.BlocksJoinWithoutASeam : Prop :=
  ∀ (t : SincTable) (o : Osc) (a b : Nat), o.ok →
    o.generated t (a + b) = o.generated t a ++ (o.afterGenerate t a).generated t b ∧
    (o.afterGenerate t (a + b)) = (o.afterGenerate t a).afterGenerate t b
end

