-- ==== Sys2Proof/Laws/Decode.lean ====
section
/-! SUPPORT. Each argument reader of the decoder reads back what its writer of the encoder wrote, and
leaves what follows it. -/

namespace Sys2Proof

theorem toNat_ofNat_byte {n : Nat} (h : n < 256) : (BitVec.ofNat 8 n).toNat = n := by
  rw [BitVec.toNat_ofNat]; exact Nat.mod_eq_of_lt h

@[simp] theorem takeByte_cons (b : Byte) (bs : List Byte) : takeByte (b :: bs) = some (b, bs) := rfl

/-- Enough fuel is all `natBytesFuel` needs. -/
theorem takeNat_natBytesFuel (fuel n : Nat) (h : n < 128 ∨ n ≤ fuel) (rest : List Byte) :
    takeNat (natBytesFuel fuel n ++ rest) = some (n, rest) := by
  induction fuel generalizing n with
  | zero =>
    have hn : n < 128 := by omega
    simp [natBytesFuel, takeNat, toNat_ofNat_byte (show n < 256 by omega), hn]
  | succ fuel ih =>
    by_cases hn : n < 128
    · simp [natBytesFuel, takeNat, toNat_ofNat_byte (show n < 256 by omega), hn]
    · have hb : n % 128 + 128 < 256 := by omega
      have hi := ih (n / 128) (by omega)
      have hs : ¬ n % 128 + 128 < 128 := by omega
      have he : n % 128 + 128 - 128 + 128 * (n / 128) = n := by omega
      simp only [natBytesFuel, hn, if_false, List.cons_append, takeNat, toNat_ofNat_byte hb, hs, hi,
        Option.map_some, he]

@[simp] theorem takeNat_natBytes (n : Nat) (rest : List Byte) :
    takeNat (natBytes n ++ rest) = some (n, rest) :=
  takeNat_natBytesFuel n n (Or.inr le_rfl) rest

@[simp] theorem takeInt_intBytes (z : ℤ) (rest : List Byte) :
    takeInt (intBytes z ++ rest) = some (z, rest) := by
  cases z with
  | ofNat n => simp [takeInt, intBytes]
  | negSucc n =>
    have h1 : (2 * n + 1) % 2 = 1 := by omega
    have h2 : (2 * n + 1) / 2 = n := by omega
    simp [takeInt, intBytes, h1, h2]

theorem takePos_natBytes {n : Nat} (h : 1 ≤ n) (rest : List Byte) :
    takePos (natBytes (n - 1) ++ rest) = some (n, rest) := by
  simp [takePos, Nat.sub_add_cancel h]

@[simp] theorem takeRat_ratBytes (q : ℚ) (rest : List Byte) :
    takeRat (ratBytes q ++ rest) = some (q, rest) := by
  simp [takeRat, ratBytes, takePos_natBytes q.den_pos, Rat.mkRat_self]

theorem takePosRat_posRatBytes {q : ℚ} (h : 0 < q) (rest : List Byte) :
    takePosRat (posRatBytes q ++ rest) = some (q, rest) := by
  have hn : 0 < q.num := Rat.num_pos.2 h
  have h1 : 1 ≤ q.num.toNat := by omega
  have h2 : ((q.num.toNat : ℕ) : ℤ) = q.num := Int.toNat_of_nonneg hn.le
  simp [takePosRat, posRatBytes, takePos_natBytes h1, takePos_natBytes q.den_pos, h2, Rat.mkRat_self]

/-- A list of values each of which reads back. -/
theorem takeList_listBytes {α : Type} {one : List Byte → Option (α × List Byte)} {put : α → List Byte}
    (h : ∀ x rest, one (put x ++ rest) = some (x, rest)) (xs : List α) (rest : List Byte) :
    takeList one (listBytes put xs ++ rest) = some (xs, rest) := by
  have many : ∀ ys : List α, takeMany one ys.length (ys.flatMap put ++ rest) = some (ys, rest) := by
    intro ys
    induction ys with
    | nil => rfl
    | cons y ys ih => simp [takeMany, h, ih]
  simp [takeList, listBytes, many]

@[simp] theorem takeBuf_bytes (b : BufRef) (rest : List Byte) :
    takeBuf (b.bytes ++ rest) = some (b, rest) := by
  simp [takeBuf, BufRef.bytes]

@[simp] theorem takeFloat_bytes (x : HostFloat) (rest : List Byte) :
    takeFloat (x.bytes ++ rest) = some (x, rest) := by
  cases x <;> simp [takeFloat, HostFloat.bytes]

@[simp] theorem takeSynthField_bytes (f : SynthField) (rest : List Byte) :
    takeSynthField (f.bytes ++ rest) = some (f, rest) := by
  cases f with
  | common c f => cases c <;> cases f <;> rfl
  | env c f => cases c <;> cases f <;> rfl
  | sweep f => cases f <;> rfl
  | duty c => cases c <;> rfl
  | dutyIndex c => cases c <;> rfl
  | termEnable t => cases t <;> rfl
  | termVol t => cases t <;> rfl
  | _ => rfl

@[simp] theorem ofCode_code (t : Target) : Target.ofCode t.code = some t := by
  cases t with
  | ch c => cases c <;> rfl
  | _ => rfl

@[simp] theorem toEnvChan_toChan (c : EnvChan) : c.toChan.toEnvChan = some c := by cases c <;> rfl

@[simp] theorem toPulseChan_toChan (c : PulseChan) : c.toChan.toPulseChan = some c := by
  cases c <;> rfl

end Sys2Proof
end

