-- ==== Sys2Proof/Laws/Memory.lean ====
section
/-! SUPPORT. The laws of both memories: reading after writing, writing elsewhere, and that every memory
operation keeps the canonical form. -/

namespace Sys2Proof.Machine

/-! ## Cells -/

@[simp] theorem Cells.find_insert {α : Type} (m : List (Nat × α)) (a b : Nat) (v : α) :
    Cells.find b (Cells.insert a v m) = if b = a then some v else Cells.find b m := by
  induction m with
  | nil => simp [Cells.insert, Cells.find, eq_comm]
  | cons e m ih =>
    obtain ⟨k, w⟩ := e
    simp only [Cells.insert]
    split_ifs <;> simp only [Cells.find, ih] <;> split_ifs <;> first | rfl | omega

/-- Nothing is listed below the first address of a sorted list. -/
theorem Cells.find_none_of_lt {α : Type} {m : List (Nat × α)} {a : Nat}
    (h : ∀ e ∈ m, a < e.1) : Cells.find a m = none := by
  induction m with
  | nil => rfl
  | cons e m ih =>
    have ha := h e (by simp)
    simp only [Cells.find]
    rw [if_neg (by omega), ih fun x hx => h x (by simp [hx])]

theorem Cells.sorted_cons {α : Type} {e : Nat × α} {m : List (Nat × α)} :
    Cells.Sorted (e :: m) ↔ (∀ x ∈ m, e.1 < x.1) ∧ Cells.Sorted m := by
  simp [Cells.Sorted, List.pairwise_cons]

theorem Cells.find_erase {α : Type} {m : List (Nat × α)} (hm : Cells.Sorted m) (a b : Nat) :
    Cells.find b (Cells.erase a m) = if b = a then none else Cells.find b m := by
  induction m with
  | nil => simp [Cells.erase, Cells.find]
  | cons e m ih =>
    obtain ⟨hlt, hm⟩ := Cells.sorted_cons.1 hm
    simp only [Cells.erase]
    by_cases hk : e.1 = a
    · rw [if_pos hk]
      by_cases hb : b = a
      · rw [if_pos hb, Cells.find_none_of_lt]
        intro x hx
        have := hlt x hx
        omega
      · simp only [Cells.find]
        rw [if_neg hb, if_neg (by omega)]
    · rw [if_neg hk]
      simp only [Cells.find, ih hm]
      split_ifs <;> first | rfl | omega

/-- An address listed after an insertion is the new one or was listed before. -/
theorem Cells.mem_insert {α : Type} {m : List (Nat × α)} {a : Nat} {v : α} {e : Nat × α}
    (h : e ∈ Cells.insert a v m) : e = (a, v) ∨ e ∈ m := by
  induction m with
  | nil => simpa [Cells.insert] using h
  | cons x m ih =>
    simp only [Cells.insert] at h
    split_ifs at h <;> simp only [List.mem_cons] at h ⊢
    · tauto
    · tauto
    · rcases h with h | h
      · tauto
      · rcases ih h with h | h <;> tauto

theorem Cells.mem_erase {α : Type} {m : List (Nat × α)} {a : Nat} {e : Nat × α}
    (h : e ∈ Cells.erase a m) : e ∈ m := by
  induction m with
  | nil => simp [Cells.erase] at h
  | cons x m ih =>
    simp only [Cells.erase] at h
    split_ifs at h <;> simp only [List.mem_cons] at h ⊢
    · tauto
    · rcases h with h | h
      · tauto
      · exact Or.inr (ih h)

theorem Cells.sorted_insert {α : Type} {m : List (Nat × α)} (hm : Cells.Sorted m) (a : Nat) (v : α) :
    Cells.Sorted (Cells.insert a v m) := by
  induction m with
  | nil => simp [Cells.insert, Cells.Sorted]
  | cons x m ih =>
    obtain ⟨hlt, hs⟩ := Cells.sorted_cons.1 hm
    simp only [Cells.insert]
    split_ifs with h1 h2
    · refine Cells.sorted_cons.2 ⟨fun y hy => ?_, hm⟩
      rcases List.mem_cons.1 hy with rfl | hy
      · exact h1
      · exact h1.trans (hlt y hy)
    · exact Cells.sorted_cons.2 ⟨fun y hy => by have := hlt y hy; omega, hs⟩
    · refine Cells.sorted_cons.2 ⟨fun y hy => ?_, ih hs⟩
      rcases Cells.mem_insert hy with rfl | hy
      · simp only; omega
      · exact hlt y hy

theorem Cells.sorted_erase {α : Type} {m : List (Nat × α)} (hm : Cells.Sorted m) (a : Nat) :
    Cells.Sorted (Cells.erase a m) := by
  induction m with
  | nil => exact hm
  | cons x m ih =>
    obtain ⟨hlt, hs⟩ := Cells.sorted_cons.1 hm
    simp only [Cells.erase]
    split_ifs
    · exact hs
    · exact Cells.sorted_cons.2 ⟨fun y hy => hlt y (Cells.mem_erase hy), ih hs⟩

theorem Cells.insert_ne_nil {α : Type} (m : List (Nat × α)) (a : Nat) (v : α) :
    Cells.insert a v m ≠ [] := by
  cases m <;> simp only [Cells.insert] <;> (try split_ifs) <;> simp

theorem Cells.mem_of_find {α : Type} {m : List (Nat × α)} {a : Nat} {v : α}
    (h : Cells.find a m = some v) : (a, v) ∈ m := by
  induction m with
  | nil => simp [Cells.find] at h
  | cons x m ih =>
    obtain ⟨k, w⟩ := x
    simp only [Cells.find] at h
    split_ifs at h with hk
    · obtain rfl := Option.some.inj h
      simp [hk]
    · simp [ih h]

theorem Cells.find_of_mem {α : Type} {m : List (Nat × α)} (hm : Cells.Sorted m) {a : Nat} {v : α}
    (h : (a, v) ∈ m) : Cells.find a m = some v := by
  induction m with
  | nil => simp at h
  | cons x m ih =>
    obtain ⟨hlt, hs⟩ := Cells.sorted_cons.1 hm
    rcases List.mem_cons.1 h with rfl | h
    · simp [Cells.find]
    · have := hlt _ h
      simp only [Cells.find]
      rw [if_neg (by omega), ih hs h]

/-- Two sorted lists that list the same are the same list. -/
theorem Cells.ext {α : Type} {m m' : List (Nat × α)} (hm : Cells.Sorted m) (hm' : Cells.Sorted m')
    (h : ∀ a, Cells.find a m = Cells.find a m') : m = m' := by
  induction m generalizing m' with
  | nil =>
    cases m' with
    | nil => rfl
    | cons y m' => simpa [Cells.find] using h y.1
  | cons x m ih =>
    obtain ⟨hx, hs⟩ := Cells.sorted_cons.1 hm
    cases m' with
    | nil => simpa [Cells.find] using h x.1
    | cons y m' =>
      obtain ⟨hy, hs'⟩ := Cells.sorted_cons.1 hm'
      have hxy : x ∈ y :: m' := Cells.mem_of_find (by rw [← h]; simp [Cells.find])
      have hyx : y ∈ x :: m := Cells.mem_of_find (by rw [h]; simp [Cells.find])
      have he : x = y := by
        rcases List.mem_cons.1 hxy with e | e
        · exact e
        · rcases List.mem_cons.1 hyx with e' | e'
          · exact e'.symm
          · have := hy x e; have := hx y e'; omega
      subst he
      rw [ih hs hs' fun a => ?_]
      have := h a
      simp only [Cells.find] at this
      split_ifs at this with ha
      · rw [Cells.find_none_of_lt fun e he => ha ▸ hx e he,
          Cells.find_none_of_lt fun e he => ha ▸ hy e he]
      · exact this

/-! ## WAVE -/

@[simp] theorem Memory.read_nil (i : Nat) : Memory.read [] i = 0 := rfl

theorem Memory.read_write {m : List Host.Cell} (hm : Memory.wf m) (i j : Nat) (v : Byte) :
    Memory.read (Memory.write m i v) j = if j = i then v else Memory.read m j := by
  unfold Memory.read Memory.write
  split_ifs with h1 h2 h2
  · rw [Cells.find_erase hm.1, if_pos h2]
    exact h1.symm
  · rw [Cells.find_erase hm.1, if_neg h2]
  · simp [h2]
  · simp [h2]

theorem Memory.wf_write {m : List Host.Cell} (hm : Memory.wf m) {i : Nat} (hi : i < 16) (v : Byte) :
    Memory.wf (Memory.write m i v) := by
  unfold Memory.write
  split_ifs with h
  · exact ⟨Cells.sorted_erase hm.1 i, fun c hc => hm.2 c (Cells.mem_erase hc)⟩
  · refine ⟨Cells.sorted_insert hm.1 i v, fun c hc => ?_⟩
    rcases Cells.mem_insert hc with rfl | hc
    · exact ⟨hi, h⟩
    · exact hm.2 c hc

theorem Memory.wf_writeFrom {m : List Host.Cell} (hm : Memory.wf m) {i : Nat} {w : List Byte}
    (h : i + w.length ≤ 16) : Memory.wf (Memory.writeFrom m i w) := by
  induction w generalizing m i with
  | nil => exact hm
  | cons b w ih =>
    simp only [List.length_cons] at h
    exact ih (Memory.wf_write hm (by omega) b) (by omega)

theorem Memory.read_writeFrom {m : List Host.Cell} (hm : Memory.wf m) {i : Nat} {w : List Byte}
    (h : i + w.length ≤ 16) (j : Nat) :
    Memory.read (Memory.writeFrom m i w) j =
      if i ≤ j ∧ j < i + w.length then w.getD (j - i) 0 else Memory.read m j := by
  induction w generalizing m i with
  | nil => rw [if_neg (by simp)]; rfl
  | cons b w ih =>
    simp only [List.length_cons] at h
    rw [Memory.writeFrom, ih (Memory.wf_write hm (by omega) b) (by omega), Memory.read_write hm]
    by_cases hj : j = i
    · subst hj
      rw [if_neg (by omega), if_pos rfl, if_pos (by simp)]
      simp
    · by_cases hlt : i + 1 ≤ j ∧ j < i + 1 + w.length
      · rw [if_pos hlt, if_pos (by simp; omega)]
        obtain ⟨d, hd⟩ : ∃ d, j - i = d + 1 := ⟨j - i - 1, by omega⟩
        rw [hd, List.getD_cons_succ, show j - (i + 1) = d by omega]
      · rw [if_neg hlt, if_neg hj, if_neg (by simp; omega)]

/-- Equal reads are equal memories: the form is canonical. -/
theorem Memory.ext {m m' : List Host.Cell} (hm : Memory.wf m) (hm' : Memory.wf m')
    (h : ∀ i, Memory.read m i = Memory.read m' i) : m = m' := by
  refine Cells.ext hm.1 hm'.1 fun a => ?_
  have := h a
  unfold Memory.read at this
  cases h1 : Cells.find a m with
  | none =>
    cases h2 : Cells.find a m' with
    | none => rfl
    | some v => simp [h1, h2] at this; exact absurd this.symm (hm'.2 _ (Cells.mem_of_find h2)).2
  | some v =>
    cases h2 : Cells.find a m' with
    | none => simp [h1, h2] at this; exact absurd this (hm.2 _ (Cells.mem_of_find h1)).2
    | some u => simp [h1, h2] at this; rw [this]

/-- Past the 16 bytes nothing is listed, so a read gives the unlisted value. -/
theorem Memory.read_of_ge {m : List Host.Cell} (hm : Memory.wf m) {i : Nat} (hi : 16 ≤ i) :
    Memory.read m i = Memory.unlisted := by
  unfold Memory.read
  cases h : Cells.find i m with
  | none => rfl
  | some v => have := (hm.2 _ (Cells.mem_of_find h)).1; simp only at this; omega

/-! ## HOST -/

@[simp] theorem HostMem.read_write (m : HostMem) (b i b' i' : Nat) (v : OutVal) :
    HostMem.read (HostMem.write m b i v) b' i' =
      if b' = b ∧ i' = i then some v else HostMem.read m b' i' := by
  unfold HostMem.read HostMem.write
  rw [Cells.find_insert]
  by_cases hb : b' = b
  · subst hb
    rw [if_pos rfl, Option.bind_some, Cells.find_insert]
    by_cases hi : i' = i
    · simp [hi]
    · rw [if_neg hi, if_neg (by tauto)]
      cases Cells.find b' m <;> rfl
  · rw [if_neg hb, if_neg (by tauto)]

theorem HostMem.wf_write {m : HostMem} (hm : HostMem.wf m) (b i : Nat) (v : OutVal) :
    HostMem.wf (HostMem.write m b i v) := by
  unfold HostMem.write
  refine ⟨Cells.sorted_insert hm.1 b _, fun e he => ?_⟩
  rcases Cells.mem_insert he with rfl | he
  · refine ⟨Cells.sorted_insert ?_ i v, Cells.insert_ne_nil _ _ _⟩
    cases h : Cells.find b m with
    | none => simp [Cells.Sorted]
    | some x => exact (hm.2 _ (Cells.mem_of_find h)).1
  · exact hm.2 e he

theorem HostMem.wf_writeFrom {m : HostMem} (hm : HostMem.wf m) (b i : Nat) (vs : List OutVal) :
    HostMem.wf (HostMem.writeFrom m b i vs) := by
  induction vs generalizing m i with
  | nil => exact hm
  | cons v vs ih => exact ih (HostMem.wf_write hm b i v) (i + 1)

theorem HostMem.read_writeFrom (m : HostMem) (b i : Nat) (vs : List OutVal) (b' i' : Nat) :
    HostMem.read (HostMem.writeFrom m b i vs) b' i' =
      if b' = b ∧ i ≤ i' ∧ i' < i + vs.length then vs[i' - i]? else HostMem.read m b' i' := by
  induction vs generalizing m i with
  | nil => rw [if_neg (by simp only [List.length_nil]; omega)]; rfl
  | cons v vs ih =>
    rw [HostMem.writeFrom, ih, HostMem.read_write]
    by_cases hb : b' = b
    · subst hb
      by_cases hi : i' = i
      · subst hi
        rw [if_neg (by omega), if_pos ⟨rfl, rfl⟩, if_pos (by simp)]
        simp
      · by_cases hlt : i + 1 ≤ i' ∧ i' < i + 1 + vs.length
        · rw [if_pos ⟨rfl, hlt⟩, if_pos (by simp; omega)]
          obtain ⟨d, hd⟩ : ∃ d, i' - i = d + 1 := ⟨i' - i - 1, by omega⟩
          rw [hd, List.getElem?_cons_succ, show i' - (i + 1) = d by omega]
        · rw [if_neg (by omega), if_neg (by omega), if_neg (by simp; omega)]
    · rw [if_neg (by tauto), if_neg (by tauto), if_neg (by tauto)]

end Sys2Proof.Machine
end

