-- ==== Sys2Proof/Laws/State.lean ====
section
/-! SUPPORT. One lemma per field per update of the state, so that no later proof unfolds a record
update. -/

namespace Sys2Proof.Machine

/-! ## What a register read gives after a register write -/

@[simp] theorem common_setCommon (s : Synth) (c c' : Chan) (x : Common) :
    (s.setCommon c x).common c' = if c' = c then x else s.common c' := by
  cases c <;> cases c' <;> rfl
@[simp] theorem env_setEnv (s : Synth) (c c' : EnvChan) (x : Envelope) :
    (s.setEnv c x).env c' = if c' = c then x else s.env c' := by
  cases c <;> cases c' <;> rfl
@[simp] theorem pulse_setPulse (s : Synth) (c c' : PulseChan) (x : Pulse) :
    (s.setPulse c x).pulse c' = if c' = c then x else s.pulse c' := by
  cases c <;> cases c' <;> rfl
@[simp] theorem sweep_setSweep (s : Synth) (x : Sweep) : (s.setSweep x).sweep = x := rfl
@[simp] theorem wave_setWave (s : Synth) (x : Wave) : (s.setWave x).wave = x := rfl
@[simp] theorem noise_setNoise (s : Synth) (x : Noise) : (s.setNoise x).noise = x := rfl

/-! ## What a write of one kind of register leaves of the others -/

@[simp] theorem env_setCommon (s : Synth) (c : Chan) (x : Common) (e : EnvChan) :
    (s.setCommon c x).env e = s.env e := by cases c <;> cases e <;> rfl
@[simp] theorem pulse_setCommon (s : Synth) (c : Chan) (x : Common) (e : PulseChan) :
    (s.setCommon c x).pulse e = s.pulse e := by cases c <;> cases e <;> rfl
@[simp] theorem sweep_setCommon (s : Synth) (c : Chan) (x : Common) :
    (s.setCommon c x).sweep = s.sweep := by cases c <;> rfl
@[simp] theorem wave_setCommon (s : Synth) (c : Chan) (x : Common) :
    (s.setCommon c x).wave = s.wave := by cases c <;> rfl
@[simp] theorem noise_setCommon (s : Synth) (c : Chan) (x : Common) :
    (s.setCommon c x).noise = s.noise := by cases c <;> rfl
@[simp] theorem seq_setCommon (s : Synth) (c : Chan) (x : Common) :
    (s.setCommon c x).seq = s.seq := by cases c <;> rfl
@[simp] theorem mix_setCommon (s : Synth) (c : Chan) (x : Common) :
    (s.setCommon c x).mix = s.mix := by cases c <;> rfl
@[simp] theorem facc_setCommon (s : Synth) (c : Chan) (x : Common) :
    (s.setCommon c x).facc = s.facc := by cases c <;> rfl
@[simp] theorem common_setEnv (s : Synth) (c : EnvChan) (x : Envelope) (e : Chan) :
    (s.setEnv c x).common e = s.common e := by cases c <;> cases e <;> rfl
@[simp] theorem pulse_setEnv (s : Synth) (c : EnvChan) (x : Envelope) (e : PulseChan) :
    (s.setEnv c x).pulse e = s.pulse e := by cases c <;> cases e <;> rfl
@[simp] theorem sweep_setEnv (s : Synth) (c : EnvChan) (x : Envelope) :
    (s.setEnv c x).sweep = s.sweep := by cases c <;> rfl
@[simp] theorem wave_setEnv (s : Synth) (c : EnvChan) (x : Envelope) :
    (s.setEnv c x).wave = s.wave := by cases c <;> rfl
@[simp] theorem noise_setEnv (s : Synth) (c : EnvChan) (x : Envelope) :
    (s.setEnv c x).noise = s.noise := by cases c <;> rfl
@[simp] theorem seq_setEnv (s : Synth) (c : EnvChan) (x : Envelope) :
    (s.setEnv c x).seq = s.seq := by cases c <;> rfl
@[simp] theorem mix_setEnv (s : Synth) (c : EnvChan) (x : Envelope) :
    (s.setEnv c x).mix = s.mix := by cases c <;> rfl
@[simp] theorem facc_setEnv (s : Synth) (c : EnvChan) (x : Envelope) :
    (s.setEnv c x).facc = s.facc := by cases c <;> rfl
@[simp] theorem common_setPulse (s : Synth) (c : PulseChan) (x : Pulse) (e : Chan) :
    (s.setPulse c x).common e = s.common e := by cases c <;> cases e <;> rfl
@[simp] theorem env_setPulse (s : Synth) (c : PulseChan) (x : Pulse) (e : EnvChan) :
    (s.setPulse c x).env e = s.env e := by cases c <;> cases e <;> rfl
@[simp] theorem sweep_setPulse (s : Synth) (c : PulseChan) (x : Pulse) :
    (s.setPulse c x).sweep = s.sweep := by cases c <;> rfl
@[simp] theorem wave_setPulse (s : Synth) (c : PulseChan) (x : Pulse) :
    (s.setPulse c x).wave = s.wave := by cases c <;> rfl
@[simp] theorem noise_setPulse (s : Synth) (c : PulseChan) (x : Pulse) :
    (s.setPulse c x).noise = s.noise := by cases c <;> rfl
@[simp] theorem seq_setPulse (s : Synth) (c : PulseChan) (x : Pulse) :
    (s.setPulse c x).seq = s.seq := by cases c <;> rfl
@[simp] theorem mix_setPulse (s : Synth) (c : PulseChan) (x : Pulse) :
    (s.setPulse c x).mix = s.mix := by cases c <;> rfl
@[simp] theorem facc_setPulse (s : Synth) (c : PulseChan) (x : Pulse) :
    (s.setPulse c x).facc = s.facc := by cases c <;> rfl
@[simp] theorem common_setSweep (s : Synth) (x : Sweep) (e : Chan) :
    (s.setSweep x).common e = s.common e := by cases e <;> rfl
@[simp] theorem env_setSweep (s : Synth) (x : Sweep) (e : EnvChan) :
    (s.setSweep x).env e = s.env e := by cases e <;> rfl
@[simp] theorem pulse_setSweep (s : Synth) (x : Sweep) (e : PulseChan) :
    (s.setSweep x).pulse e = s.pulse e := by cases e <;> rfl
@[simp] theorem wave_setSweep (s : Synth) (x : Sweep) :
    (s.setSweep x).wave = s.wave := rfl
@[simp] theorem noise_setSweep (s : Synth) (x : Sweep) :
    (s.setSweep x).noise = s.noise := rfl
@[simp] theorem seq_setSweep (s : Synth) (x : Sweep) :
    (s.setSweep x).seq = s.seq := rfl
@[simp] theorem mix_setSweep (s : Synth) (x : Sweep) :
    (s.setSweep x).mix = s.mix := rfl
@[simp] theorem facc_setSweep (s : Synth) (x : Sweep) :
    (s.setSweep x).facc = s.facc := rfl
@[simp] theorem common_setWave (s : Synth) (x : Wave) (e : Chan) :
    (s.setWave x).common e = s.common e := by cases e <;> rfl
@[simp] theorem env_setWave (s : Synth) (x : Wave) (e : EnvChan) :
    (s.setWave x).env e = s.env e := by cases e <;> rfl
@[simp] theorem pulse_setWave (s : Synth) (x : Wave) (e : PulseChan) :
    (s.setWave x).pulse e = s.pulse e := by cases e <;> rfl
@[simp] theorem sweep_setWave (s : Synth) (x : Wave) :
    (s.setWave x).sweep = s.sweep := rfl
@[simp] theorem noise_setWave (s : Synth) (x : Wave) :
    (s.setWave x).noise = s.noise := rfl
@[simp] theorem seq_setWave (s : Synth) (x : Wave) :
    (s.setWave x).seq = s.seq := rfl
@[simp] theorem mix_setWave (s : Synth) (x : Wave) :
    (s.setWave x).mix = s.mix := rfl
@[simp] theorem facc_setWave (s : Synth) (x : Wave) :
    (s.setWave x).facc = s.facc := rfl
@[simp] theorem common_setNoise (s : Synth) (x : Noise) (e : Chan) :
    (s.setNoise x).common e = s.common e := by cases e <;> rfl
@[simp] theorem env_setNoise (s : Synth) (x : Noise) (e : EnvChan) :
    (s.setNoise x).env e = s.env e := by cases e <;> rfl
@[simp] theorem pulse_setNoise (s : Synth) (x : Noise) (e : PulseChan) :
    (s.setNoise x).pulse e = s.pulse e := by cases e <;> rfl
@[simp] theorem sweep_setNoise (s : Synth) (x : Noise) :
    (s.setNoise x).sweep = s.sweep := rfl
@[simp] theorem wave_setNoise (s : Synth) (x : Noise) :
    (s.setNoise x).wave = s.wave := rfl
@[simp] theorem seq_setNoise (s : Synth) (x : Noise) :
    (s.setNoise x).seq = s.seq := rfl
@[simp] theorem mix_setNoise (s : Synth) (x : Noise) :
    (s.setNoise x).mix = s.mix := rfl
@[simp] theorem facc_setNoise (s : Synth) (x : Noise) :
    (s.setNoise x).facc = s.facc := rfl

/-! ## Sequencer, mixer and accumulator writes -/

@[simp] theorem common_with_seq (s : Synth) (x : Sequencer) (e : Chan) :
    (Synth.common { s with seq := x } e) = s.common e := by cases e <;> rfl
@[simp] theorem env_with_seq (s : Synth) (x : Sequencer) (e : EnvChan) :
    (Synth.env { s with seq := x } e) = s.env e := by cases e <;> rfl
@[simp] theorem pulse_with_seq (s : Synth) (x : Sequencer) (e : PulseChan) :
    (Synth.pulse { s with seq := x } e) = s.pulse e := by cases e <;> rfl
@[simp] theorem sweep_with_seq (s : Synth) (x : Sequencer) :
    (Synth.sweep { s with seq := x }) = s.sweep := rfl
@[simp] theorem wave_with_seq (s : Synth) (x : Sequencer) :
    (Synth.wave { s with seq := x }) = s.wave := rfl
@[simp] theorem noise_with_seq (s : Synth) (x : Sequencer) :
    (Synth.noise { s with seq := x }) = s.noise := rfl
@[simp] theorem common_with_mix (s : Synth) (x : Mixer) (e : Chan) :
    (Synth.common { s with mix := x } e) = s.common e := by cases e <;> rfl
@[simp] theorem env_with_mix (s : Synth) (x : Mixer) (e : EnvChan) :
    (Synth.env { s with mix := x } e) = s.env e := by cases e <;> rfl
@[simp] theorem pulse_with_mix (s : Synth) (x : Mixer) (e : PulseChan) :
    (Synth.pulse { s with mix := x } e) = s.pulse e := by cases e <;> rfl
@[simp] theorem sweep_with_mix (s : Synth) (x : Mixer) :
    (Synth.sweep { s with mix := x }) = s.sweep := rfl
@[simp] theorem wave_with_mix (s : Synth) (x : Mixer) :
    (Synth.wave { s with mix := x }) = s.wave := rfl
@[simp] theorem noise_with_mix (s : Synth) (x : Mixer) :
    (Synth.noise { s with mix := x }) = s.noise := rfl
@[simp] theorem common_with_facc (s : Synth) (x : ℚ) (e : Chan) :
    (Synth.common { s with facc := x } e) = s.common e := by cases e <;> rfl
@[simp] theorem env_with_facc (s : Synth) (x : ℚ) (e : EnvChan) :
    (Synth.env { s with facc := x } e) = s.env e := by cases e <;> rfl
@[simp] theorem pulse_with_facc (s : Synth) (x : ℚ) (e : PulseChan) :
    (Synth.pulse { s with facc := x } e) = s.pulse e := by cases e <;> rfl
@[simp] theorem sweep_with_facc (s : Synth) (x : ℚ) :
    (Synth.sweep { s with facc := x }) = s.sweep := rfl
@[simp] theorem wave_with_facc (s : Synth) (x : ℚ) :
    (Synth.wave { s with facc := x }) = s.wave := rfl
@[simp] theorem noise_with_facc (s : Synth) (x : ℚ) :
    (Synth.noise { s with facc := x }) = s.noise := rfl

/-! ## A register written back is no change -/

@[simp] theorem setCommon_common (s : Synth) (c : Chan) : s.setCommon c (s.common c) = s := by
  cases c <;> rfl
@[simp] theorem setEnv_env (s : Synth) (c : EnvChan) : s.setEnv c (s.env c) = s := by
  cases c <;> rfl
@[simp] theorem setPulse_pulse (s : Synth) (c : PulseChan) : s.setPulse c (s.pulse c) = s := by
  cases c <;> rfl
@[simp] theorem setCommon_setCommon (s : Synth) (c : Chan) (x y : Common) :
    (s.setCommon c x).setCommon c y = s.setCommon c y := by cases c <;> rfl
@[simp] theorem setEnv_setEnv (s : Synth) (c : EnvChan) (x y : Envelope) :
    (s.setEnv c x).setEnv c y = s.setEnv c y := by cases c <;> rfl
@[simp] theorem setPulse_setPulse (s : Synth) (c : PulseChan) (x y : Pulse) :
    (s.setPulse c x).setPulse c y = s.setPulse c y := by cases c <;> rfl

/-- Two Synths with the same registers are the same Synth. -/
theorem Synth.ext_registers {s t : Synth} (hc : ∀ c, s.common c = t.common c)
    (he : ∀ c, s.env c = t.env c) (hp : ∀ c, s.pulse c = t.pulse c) (hs : s.sweep = t.sweep)
    (hw : s.wave = t.wave) (hn : s.noise = t.noise) (hq : s.seq = t.seq) (hm : s.mix = t.mix)
    (hf : s.facc = t.facc) : s = t := by
  have c1 := hc .ch1; have c2 := hc .ch2; have c3 := hc .ch3; have c4 := hc .ch4
  have e1 := he .ch1; have e2 := he .ch2; have e4 := he .ch4
  have p1 := hp .ch1; have p2 := hp .ch2
  obtain ⟨⟨_, _, _, _⟩, ⟨_, _, _⟩, ⟨_, _⟩, ⟨_, _, _⟩, _, _, _⟩ := s
  obtain ⟨⟨_, _, _, _⟩, ⟨_, _, _⟩, ⟨_, _⟩, ⟨_, _, _⟩, _, _, _⟩ := t
  simp_all [Synth.common, Synth.env, Synth.pulse, Synth.sweep, Synth.wave, Synth.noise]

/-! ## Terminals -/

@[simp] theorem PerTerm.get_set {α : Type} (p : PerTerm α) (t t' : Term) (v : α) :
    (p.set t v).get t' = if t' = t then v else p.get t' := by
  cases t <;> cases t' <;> rfl

/-! ## The whole state -/

@[simp] theorem synth_setSynth (s : State) (x : Synth) : (s.setSynth x).synth = x := rfl
@[simp] theorem oscs_setSynth (s : State) (x : Synth) : (s.setSynth x).oscs = s.oscs := rfl
@[simp] theorem host_setSynth (s : State) (x : Synth) : (s.setSynth x).host = s.host := rfl
@[simp] theorem params_setSynth (s : State) (x : Synth) : (s.setSynth x).params = s.params := rfl
@[simp] theorem returned_setSynth (s : State) (x : Synth) : (s.setSynth x).returned = .nothing := rfl
@[simp] theorem calls_setSynth (s : State) (x : Synth) : (s.setSynth x).calls = s.calls := rfl
@[simp] theorem synth_giveBack (s : State) (v : Returned) : (s.giveBack v).synth = s.synth := rfl
@[simp] theorem oscs_giveBack (s : State) (v : Returned) : (s.giveBack v).oscs = s.oscs := rfl
@[simp] theorem host_giveBack (s : State) (v : Returned) : (s.giveBack v).host = s.host := rfl
@[simp] theorem params_giveBack (s : State) (v : Returned) : (s.giveBack v).params = s.params := rfl
@[simp] theorem returned_giveBack (s : State) (v : Returned) : (s.giveBack v).returned = v := rfl
@[simp] theorem calls_giveBack (s : State) (v : Returned) : (s.giveBack v).calls = s.calls := rfl
@[simp] theorem synth_setOsc (s : State) (k : Nat) (o : Osc) : (s.setOsc k o).synth = s.synth := rfl
@[simp] theorem oscs_setOsc (s : State) (k : Nat) (o : Osc) : (s.setOsc k o).oscs = s.oscs.set k o := rfl
@[simp] theorem host_setOsc (s : State) (k : Nat) (o : Osc) : (s.setOsc k o).host = s.host := rfl
@[simp] theorem params_setOsc (s : State) (k : Nat) (o : Osc) : (s.setOsc k o).params = s.params := rfl
@[simp] theorem returned_setOsc (s : State) (k : Nat) (o : Osc) : (s.setOsc k o).returned = .nothing := rfl
@[simp] theorem calls_setOsc (s : State) (k : Nat) (o : Osc) : (s.setOsc k o).calls = s.calls := rfl

end Sys2Proof.Machine
end

