-- ==== Sys2Proof/Laws/Ops.lean ====
section
/-! SUPPORT. One lemma for each shared operation that says what it can do; proofs cite these and do not
unfold the operation. -/

namespace Sys2Proof.Machine

/-! ## Arithmetic -/

@[simp] theorem repeated_zero {α : Type} (f : α → α) (x : α) : repeated f 0 x = x := rfl

theorem repeated_succ {α : Type} (f : α → α) (n : Nat) (x : α) :
    repeated f (n + 1) x = repeated f n (f x) := rfl

theorem repeated_succ' {α : Type} (f : α → α) (n : Nat) (x : α) :
    repeated f (n + 1) x = f (repeated f n x) := by
  induction n generalizing x with
  | zero => rfl
  | succ n ih => rw [repeated_succ, ih, repeated_succ]

theorem repeated_add {α : Type} (f : α → α) (m n : Nat) (x : α) :
    repeated f (m + n) x = repeated f n (repeated f m x) := by
  induction m generalizing x with
  | zero => simp
  | succ m ih => rw [Nat.succ_add, repeated_succ, ih, repeated_succ]

/-- What `f` keeps, `f` applied `n` times keeps. -/
theorem repeated_keeps {α β : Type} (f : α → α) (g : α → β) (h : ∀ x, g (f x) = g x) (n : Nat)
    (x : α) : g (repeated f n x) = g x := by
  induction n generalizing x with
  | zero => rfl
  | succ n ih => rw [repeated_succ, ih, h]

/-- An operation that commutes with `f` commutes with `f` applied `n` times. -/
theorem repeated_comm {α : Type} (f g : α → α) (h : ∀ x, f (g x) = g (f x)) (n : Nat) (x : α) :
    repeated f n (g x) = g (repeated f n x) := by
  induction n generalizing x with
  | zero => rfl
  | succ n ih => rw [repeated_succ, h, ih, repeated_succ]

theorem satDec_eq (c : Nat) : satDec c = c - 1 := by unfold satDec; split_ifs <;> omega

/-- `x mod y` lies in [0, y) (R14). -/
theorem ratMod_range {x y : ℚ} (hy : 0 < y) : 0 ≤ ratMod x y ∧ ratMod x y < y := by
  have h1 := Int.floor_le (x / y)
  have h2 := Int.lt_floor_add_one (x / y)
  have e : x = y * (x / y) := by field_simp
  constructor
  · have := mul_le_mul_of_nonneg_left h1 hy.le
    unfold ratMod; linarith
  · have := mul_lt_mul_of_pos_left h2 hy
    unfold ratMod; linarith

/-- `x mod y` is x where x lies in [0, y). -/
theorem ratMod_of_lt {x y : ℚ} (h0 : 0 ≤ x) (h : x < y) : ratMod x y = x := by
  have hy : 0 < y := h0.trans_lt h
  have : ⌊x / y⌋ = 0 := Int.floor_eq_zero_iff.2 ⟨div_nonneg h0 hy.le, (div_lt_one hy).2 h⟩
  simp [ratMod, this]

/-- Whole periods drop out of `x mod y`. -/
theorem ratMod_add_int_mul {x y : ℚ} (hy : 0 < y) (n : ℤ) : ratMod (x + n * y) y = ratMod x y := by
  have : (x + n * y) / y = x / y + n := by field_simp
  simp only [ratMod, this, Int.floor_add_intCast]
  push_cast
  ring

/-- A field of `hi + 1 - lo` bits is below `2 ^ (hi + 1 - lo)` (R13). -/
theorem bitField_lt (b : Byte) (hi lo : Nat) : bitField b hi lo < 2 ^ (hi + 1 - lo) :=
  Nat.mod_lt _ (by positivity)

theorem nibble_le (m : List Host.Cell) (p : Nat) : nibble m p ≤ 15 := by
  unfold nibble
  split_ifs
  · have := bitField_lt (Memory.read m (shiftRight p 1)) 7 4; omega
  · have := bitField_lt (Memory.read m (shiftRight p 1)) 3 0; omega

theorem dutySample_two (d : Duty) (i : Nat) : dutySample d i = 0 ∨ dutySample d i = 15 := by
  unfold dutySample
  split_ifs
  · exact Or.inr rfl
  · exact Or.inl rfl

theorem noiseSample_two (x : BitVec 15) : noiseSample x = 0 ∨ noiseSample x = 15 := by
  unfold noiseSample
  split_ifs
  · exact Or.inr rfl
  · exact Or.inl rfl

/-! ## Flags and the length unit -/

@[simp] theorem common_disableChan (c c' : Chan) (s : Synth) :
    (disableChan c s).common c' =
      if c' = c then { s.common c with enabled := false } else s.common c' := by
  simp [disableChan]

/-- A length tick either changes nothing or counts down, and disables at 0 (R165). -/
theorem lengthTick_cases (c : Chan) (s : Synth) :
    (((s.common c).continuous = true ∨ (s.common c).length = 0) ∧ lengthTick c s = s) ∨
    ((s.common c).continuous = false ∧ 0 < (s.common c).length ∧
      lengthTick c s = s.setCommon c { s.common c with
        length := (s.common c).length - 1
        enabled := (s.common c).enabled && decide ((s.common c).length ≠ 1) }) := by
  unfold lengthTick
  cases hc : (s.common c).continuous
  · by_cases hl : 0 < (s.common c).length
    · refine Or.inr ⟨rfl, hl, ?_⟩
      by_cases h1 : (s.common c).length = 1
      · simp [h1, disableChan, hc]
      · have : (s.common c).length - 1 ≠ 0 := by omega
        simp [h1, hl, this, hc]
    · exact Or.inl ⟨Or.inr (by omega), by simp [hl]⟩
  · exact Or.inl ⟨Or.inl rfl, by simp [hc]⟩

/-! ## Rollovers and the timer -/

/-- A rollover writes its own channel's raw sample and no other common field (R146). -/
theorem common_rollover (c c' : Chan) (s : Synth) :
    ∃ r, (rollover c s).common c' =
      if c' = c then { s.common c with raw := r } else s.common c' := by
  cases c <;>
    exact ⟨_, by simp [rollover, pulseRollover, waveRollover, noiseRollover, Synth.setRaw,
      PulseChan.toChan]; rfl⟩

@[simp] theorem env_rollover (c : Chan) (e : EnvChan) (s : Synth) :
    (rollover c s).env e = s.env e := by
  cases c <;> simp [rollover, pulseRollover, waveRollover, noiseRollover, Synth.setRaw]

@[simp] theorem sweep_rollover (c : Chan) (s : Synth) : (rollover c s).sweep = s.sweep := by
  cases c <;> simp [rollover, pulseRollover, waveRollover, noiseRollover, Synth.setRaw]

@[simp] theorem seq_rollover (c : Chan) (s : Synth) : (rollover c s).seq = s.seq := by
  cases c <;> simp [rollover, pulseRollover, waveRollover, noiseRollover, Synth.setRaw]

@[simp] theorem mix_rollover (c : Chan) (s : Synth) : (rollover c s).mix = s.mix := by
  cases c <;> simp [rollover, pulseRollover, waveRollover, noiseRollover, Synth.setRaw]

@[simp] theorem facc_rollover (c : Chan) (s : Synth) : (rollover c s).facc = s.facc := by
  cases c <;> simp [rollover, pulseRollover, waveRollover, noiseRollover, Synth.setRaw]

/-- The period reads the frequency registers, and the noise registers for ch4 (R141). -/
theorem period_congr {s t : Synth} (c : Chan) (hc : (t.common c).freq = (s.common c).freq)
    (hs : t.noise.scf = s.noise.scf) (hd : t.noise.drf = s.noise.drf) :
    period t c = period s c := by
  cases c <;> simp_all [period, Synth.common, Synth.noise]

/-- Nothing inside `step` changes P (R145). -/
@[simp] theorem period_rollover (c c' : Chan) (s : Synth) : period (rollover c s) c' = period s c' := by
  refine period_congr c' ?_ ?_ ?_
  · obtain ⟨r, h⟩ := common_rollover c c' s
    rw [h]
    split_ifs with e
    · rw [e]
    · rfl
  · cases c <;> simp [rollover, pulseRollover, waveRollover, noiseRollover, Synth.setRaw]
  · cases c <;> simp [rollover, pulseRollover, waveRollover, noiseRollover, Synth.setRaw]

/-- P is at least 2 in a legal state (R141). -/
theorem two_le_period {s : Synth} (hs : s.ok) (c : Chan) : 2 ≤ period s c := by
  obtain ⟨⟨h1, -⟩, ⟨h2, -⟩, ⟨h3, -⟩, ⟨-, -, -, -, hd⟩, -⟩ := hs
  cases c <;> simp only [period]
  · omega
  · omega
  · omega
  · have h8 : 8 ≤ divisor s.ch4.noise.drf := by
      unfold divisor
      interval_cases s.ch4.noise.drf <;> decide
    have := Nat.one_le_two_pow (n := s.ch4.noise.scf)
    nlinarith

/-- The timer of one channel changed. -/
theorem period_setTimer (c : Chan) (s : Synth) (t : Nat) :
    period (s.setCommon c { s.common c with timer := t }) c = period s c := by
  refine period_congr c ?_ ?_ ?_ <;> simp

/-- A rollover does not look at the timer. -/
theorem rollover_setTimer (c : Chan) (s : Synth) (t : Nat) :
    rollover c (s.setCommon c { s.common c with timer := t }) =
      (rollover c s).setCommon c { (rollover c s).common c with timer := t } := by
  cases c <;> rfl

/-- R145's loop, where it ends: a timer below P after the addition only counts. -/
theorem timerStep_counts {c : Chan} {k : Nat} {s : Synth}
    (h : (s.common c).timer + k < period s c) :
    stepTimer c k s = s.setCommon c { s.common c with timer := (s.common c).timer + k } := by
  simp [stepTimer, Nat.div_eq_of_lt h, Nat.mod_eq_of_lt h]

/-- R145's loop, one turn of it: a timer at or above P loses P and the channel rolls over. -/
theorem timerStep_loop {c : Chan} {k : Nat} {s : Synth} (hp : 0 < period s c)
    (h : period s c ≤ (s.common c).timer + k) :
    stepTimer c k s = stepTimer c 0 (rollover c
      (s.setCommon c { s.common c with timer := (s.common c).timer + k - period s c })) := by
  have hr : ∀ t, (rollover c (s.setCommon c { s.common c with timer := t })).common c
      = { (rollover c s).common c with timer := t } := by
    intro t; rw [rollover_setTimer]; simp
  simp only [stepTimer, hr, Nat.add_zero, period_rollover, period_setTimer]
  have hd : ((s.common c).timer + k) / period s c
      = ((s.common c).timer + k - period s c) / period s c + 1 := by
    rw [Nat.div_eq_sub_div hp h]
  have hm : ((s.common c).timer + k) % period s c
      = ((s.common c).timer + k - period s c) % period s c := Nat.mod_eq_sub_mod h
  rw [hd, hm, repeated_succ]
  congr 1
  rw [rollover_setTimer, rollover_setTimer]
  simp

/-! ## Osc -/

@[simp] theorem length_addAt (e : List ℚ) (i : Nat) (x : ℚ) : (addAt e i x).length = e.length := by
  simp [addAt]

theorem getD_addAt (e : List ℚ) (i j : Nat) (x : ℚ) (hi : i < e.length) :
    (addAt e i x).getD j 0 = e.getD j 0 + if j = i then x else 0 := by
  unfold addAt
  rw [List.getD_eq_getElem?_getD, List.getD_eq_getElem?_getD, List.getElem?_modify]
  by_cases h : i = j
  · subst h
    simp [List.getElem?_eq_getElem hi]
  · have h' : j ≠ i := fun e => h e.symm
    simp [h, h']

@[simp] theorem length_runningSums (a : ℚ) (xs : List ℚ) : (runningSums a xs).length = xs.length := by
  induction xs generalizing a with
  | nil => rfl
  | cons x xs ih => simp [runningSums, ih]

/-- A refreshed instance is not dirty (R385). -/
@[simp] theorem dirty_refresh (o : Osc) : o.refresh.dirty = false := by
  unfold Osc.refresh
  split_ifs with h
  · rfl
  · simpa using h

theorem withOsc_some {s : State} {k : Nat} {o : Osc} (h : s.oscs[k]? = some o)
    (f : Osc → Host.Outcome State Fault Refusal) : withOsc s k f = f o := by
  simp [withOsc, h]

theorem withOsc_none {s : State} {k : Nat} (h : s.oscs[k]? = none)
    (f : Osc → Host.Outcome State Fault Refusal) : withOsc s k f = .refused .noSuchOperation := by
  simp [withOsc, h]

/-- An operation of an instance that answers a next state found the instance. -/
theorem withOsc_next {s t : State} {k : Nat} {f : Osc → Host.Outcome State Fault Refusal}
    (h : withOsc s k f = .next t) : ∃ o, s.oscs[k]? = some o ∧ f o = .next t := by
  unfold withOsc at h
  split at h
  · exact ⟨_, ‹_›, h⟩
  · cases h

end Sys2Proof.Machine
end

