-- ==== Sys2Proof/Laws/PerInstr.lean ====
section
/-! SUPPORT. Statements made for every operation as syntax, one lemma per constructor. -/

namespace Sys2Proof

theorem ofArgs_ok {o : Option (Instr × List Byte)} {p : Instr × List Byte} :
    ofArgs o = .ok p ↔ o = some p := by
  cases o <;> simp [ofArgs]

theorem onOnly_ok {w t : Target} {k : Option (Instr × List Byte)} {p : Instr × List Byte} :
    onOnly w t k = .ok p ↔ t = w ∧ k = some p := by
  unfold onOnly
  split_ifs with h <;> simp [h, ofArgs_ok]

theorem onChan_ok {t : Target} {k : Chan → Option (Instr × List Byte)} {p : Instr × List Byte} :
    onChan t k = .ok p ↔ ∃ c, t = .ch c ∧ k c = some p := by
  cases t <;> simp [onChan, ofArgs_ok]

theorem onCapable_ok {α : Type} {cap : Chan → Option α} {t : Target}
    {k : α → Option (Instr × List Byte)} {p : Instr × List Byte} :
    onCapable cap t k = .ok p ↔ ∃ c x, t = .ch c ∧ cap c = some x ∧ k x = some p := by
  cases t with
  | ch c => cases h : cap c <;> simp [onCapable, h, ofArgs_ok]
  | _ => simp [onCapable]

theorem toChan_of_toEnvChan {c : Chan} {e : EnvChan} (h : c.toEnvChan = some e) : e.toChan = c := by
  cases c <;> simp [Chan.toEnvChan] at h <;> subst h <;> rfl

theorem toChan_of_toPulseChan {c : Chan} {e : PulseChan} (h : c.toPulseChan = some e) :
    e.toChan = c := by
  cases c <;> simp [Chan.toPulseChan] at h <;> subst h <;> rfl

namespace Laws.RowDecodesToItself

/-- Rows do not overlap (R101, R113): whatever arguments follow an operation's row number, on whatever
target, if they decode at all they decode to an operation of that row on that target. -/
def Statement (i : Instr) : Prop :=
  ∀ (t : Target) (bs : List Byte) (j : Instr) (rest : List Byte),
    decodeRow i.row t bs = .ok (j, rest) → j.row = i.row ∧ j.target = t

theorem setFrequency (c : Chan) (v : Nat) : Statement (.setFrequency c v) := by
  intro t bs j rest h
  simp [Instr.row, decodeRow, decodeChannelRow, onChan_ok] at h
  obtain ⟨c, rfl, v, -, rfl⟩ := h
  exact ⟨rfl, rfl⟩

theorem setLength (c : Chan) (n : Nat) : Statement (.setLength c n) := by
  intro t bs j rest h
  simp [Instr.row, decodeRow, decodeChannelRow, onChan_ok] at h
  obtain ⟨c, rfl, v, -, rfl⟩ := h
  exact ⟨rfl, rfl⟩

theorem setContinuousOutput (c : Chan) (on : Bool) : Statement (.setContinuousOutput c on) := by
  intro t bs j rest h
  simp [Instr.row, decodeRow, decodeChannelRow, onChan_ok] at h
  obtain ⟨c, rfl, ⟨-, rfl⟩ | ⟨-, rfl⟩⟩ := h
  all_goals exact ⟨rfl, rfl⟩

theorem disable (c : Chan) : Statement (.disable c) := by
  intro t bs j rest h
  simp [Instr.row, decodeRow, decodeChannelRow, onChan_ok] at h
  obtain ⟨c, rfl, rfl, -⟩ := h
  exact ⟨rfl, rfl⟩

theorem reset (c : Chan) : Statement (.reset c) := by
  intro t bs j rest h
  simp [Instr.row, decodeRow, decodeChannelRow, onChan_ok] at h
  obtain ⟨c, rfl, rfl, -⟩ := h
  exact ⟨rfl, rfl⟩

theorem getCurrentVolume (c : Chan) : Statement (.getCurrentVolume c) := by
  intro t bs j rest h
  simp [Instr.row, decodeRow, decodeChannelRow, onChan_ok] at h
  obtain ⟨c, rfl, rfl, -⟩ := h
  exact ⟨rfl, rfl⟩

theorem setEnv (c : EnvChan) (b : Byte) : Statement (.setEnv c b) := by
  intro t bs j rest h
  simp [Instr.row, decodeRow, decodeChannelRow, onCapable_ok] at h
  obtain ⟨c, rfl, e, hc, v, -, rfl⟩ := h
  exact ⟨rfl, congrArg Target.ch (toChan_of_toEnvChan hc)⟩

theorem setDuty (c : PulseChan) (d : Duty) : Statement (.setDuty c d) := by
  intro t bs j rest h
  simp [Instr.row, decodeRow, decodeChannelRow, onCapable_ok] at h
  obtain ⟨c, rfl, e, hc, v, -, rfl⟩ := h
  exact ⟨rfl, congrArg Target.ch (toChan_of_toPulseChan hc)⟩

theorem setSweep (b : Byte) : Statement (.setSweep b) := by
  intro t bs j rest h
  simp [Instr.row, decodeRow, decodeChannelRow, onOnly_ok] at h
  obtain ⟨rfl, x, -, rfl⟩ := h
  exact ⟨rfl, rfl⟩

theorem setWaveform (w : List Byte) : Statement (.setWaveform w) := by
  intro t bs j rest h
  simp [Instr.row, decodeRow, decodeChannelRow, onOnly_ok] at h
  obtain ⟨rfl, x, -, rfl⟩ := h
  exact ⟨rfl, rfl⟩

theorem setOutputLevel (l : Level) : Statement (.setOutputLevel l) := by
  intro t bs j rest h
  simp [Instr.row, decodeRow, decodeChannelRow, onOnly_ok] at h
  obtain ⟨rfl, x, -, rfl⟩ := h
  exact ⟨rfl, rfl⟩

theorem setNoise (b : Byte) : Statement (.setNoise b) := by
  intro t bs j rest h
  simp [Instr.row, decodeRow, decodeChannelRow, onOnly_ok] at h
  obtain ⟨rfl, x, -, rfl⟩ := h
  exact ⟨rfl, rfl⟩

theorem setScf (n : Nat) : Statement (.setScf n) := by
  intro t bs j rest h
  simp [Instr.row, decodeRow, decodeChannelRow, onOnly_ok] at h
  obtain ⟨rfl, x, -, rfl⟩ := h
  exact ⟨rfl, rfl⟩

theorem setDrf (n : Nat) : Statement (.setDrf n) := by
  intro t bs j rest h
  simp [Instr.row, decodeRow, decodeChannelRow, onOnly_ok] at h
  obtain ⟨rfl, x, -, rfl⟩ := h
  exact ⟨rfl, rfl⟩

theorem setStepSelection (m : StepSel) : Statement (.setStepSelection m) := by
  intro t bs j rest h
  simp [Instr.row, decodeRow, decodeChannelRow, onOnly_ok] at h
  obtain ⟨rfl, x, -, rfl⟩ := h
  exact ⟨rfl, rfl⟩

theorem seqReset : Statement .seqReset := by
  intro t bs j rest h
  simp [Instr.row, decodeRow, decodeSynthRow, onOnly_ok] at h
  obtain ⟨rfl, rfl, -⟩ := h
  exact ⟨rfl, rfl⟩

theorem mixSetEnable (b : Byte) : Statement (.mixSetEnable b) := by
  intro t bs j rest h
  simp [Instr.row, decodeRow, decodeSynthRow, onOnly_ok] at h
  obtain ⟨rfl, x, -, rfl⟩ := h
  exact ⟨rfl, rfl⟩

theorem setTerminalEnable (tm : Term) (e : Bool) : Statement (.setTerminalEnable tm e) := by
  intro t bs j rest h
  simp [Instr.row, decodeRow, decodeSynthRow, onOnly_ok, Option.bind_eq_some_iff] at h
  obtain ⟨rfl, x, bs, -, ⟨-, rfl⟩ | ⟨-, rfl⟩⟩ := h
  all_goals exact ⟨rfl, rfl⟩

theorem setTerminalVolume (tm : Term) (v : Nat) : Statement (.setTerminalVolume tm v) := by
  intro t bs j rest h
  simp [Instr.row, decodeRow, decodeSynthRow, onOnly_ok, Option.bind_eq_some_iff] at h
  obtain ⟨rfl, x, bs, -, y, -, rfl⟩ := h
  exact ⟨rfl, rfl⟩

theorem synthStep : Statement .synthStep := by
  intro t bs j rest h
  simp [Instr.row, decodeRow, decodeSynthRow, onOnly_ok] at h
  obtain ⟨rfl, rfl, -⟩ := h
  exact ⟨rfl, rfl⟩

theorem fillStereo (left right : BufRef) (n : Nat) : Statement (.fillStereo left right n) := by
  intro t bs j rest h
  simp [Instr.row, decodeRow, decodeSynthRow, onOnly_ok, Option.bind_eq_some_iff] at h
  obtain ⟨rfl, x, bs, -, y, bs, -, z, -, rfl⟩ := h
  exact ⟨rfl, rfl⟩

theorem fillInterleaved (buf : BufRef) (n : Nat) : Statement (.fillInterleaved buf n) := by
  intro t bs j rest h
  simp [Instr.row, decodeRow, decodeSynthRow, onOnly_ok, Option.bind_eq_some_iff] at h
  obtain ⟨rfl, x, bs, -, y, -, rfl⟩ := h
  exact ⟨rfl, rfl⟩

theorem synthQuery (f : SynthField) : Statement (.synthQuery f) := by
  intro t bs j rest h
  simp [Instr.row, decodeRow, decodeSynthRow, onOnly_ok] at h
  obtain ⟨rfl, x, -, rfl⟩ := h
  exact ⟨rfl, rfl⟩

theorem fromGbFreq (reg : Nat) : Statement (.fromGbFreq reg) := by
  intro t bs j rest h
  simp [Instr.row, decodeRow, decodeSynthRow, onOnly_ok] at h
  obtain ⟨rfl, x, -, rfl⟩ := h
  exact ⟨rfl, rfl⟩

theorem toGbFreq (hz : HostFloat) : Statement (.toGbFreq hz) := by
  intro t bs j rest h
  simp [Instr.row, decodeRow, decodeSynthRow, onOnly_ok] at h
  obtain ⟨rfl, x, -, rfl⟩ := h
  exact ⟨rfl, rfl⟩

theorem oscNew (m l : Nat) (r : ℚ) : Statement (.oscNew m l r) := by
  intro t bs j rest h
  simp [Instr.row, decodeRow, decodeOscRow, onOnly_ok, Option.bind_eq_some_iff] at h
  obtain ⟨rfl, x, bs, -, y, bs, -, z, -, rfl⟩ := h
  exact ⟨rfl, rfl⟩

theorem oscSetFrequency (k v : Nat) : Statement (.oscSetFrequency k v) := by
  intro t bs j rest h
  simp [Instr.row, decodeRow, decodeOscRow, onOnly_ok, Option.bind_eq_some_iff] at h
  obtain ⟨rfl, x, bs, -, y, -, rfl⟩ := h
  exact ⟨rfl, rfl⟩

theorem oscSetWaveform (k : Nat) (w : List ℤ) : Statement (.oscSetWaveform k w) := by
  intro t bs j rest h
  simp [Instr.row, decodeRow, decodeOscRow, onOnly_ok, Option.bind_eq_some_iff] at h
  obtain ⟨rfl, x, bs, -, y, -, rfl⟩ := h
  exact ⟨rfl, rfl⟩

theorem oscSetMuted (k : Nat) (m : Bool) : Statement (.oscSetMuted k m) := by
  intro t bs j rest h
  simp [Instr.row, decodeRow, decodeOscRow, onOnly_ok, Option.bind_eq_some_iff] at h
  obtain ⟨rfl, x, bs, -, ⟨-, rfl⟩ | ⟨-, rfl⟩⟩ := h
  all_goals exact ⟨rfl, rfl⟩

theorem oscQuery (k : Nat) (f : OscField) : Statement (.oscQuery k f) := by
  intro t bs j rest h
  simp [Instr.row, decodeRow, decodeOscRow, onOnly_ok, Option.bind_eq_some_iff] at h
  obtain ⟨rfl, x, bs, -, y, -, rfl⟩ := h
  exact ⟨rfl, rfl⟩

theorem generate (k : Nat) (buf : BufRef) (n : Nat) : Statement (.generate k buf n) := by
  intro t bs j rest h
  simp [Instr.row, decodeRow, decodeOscRow, onOnly_ok, Option.bind_eq_some_iff] at h
  obtain ⟨rfl, x, bs, -, y, bs, -, z, -, rfl⟩ := h
  exact ⟨rfl, rfl⟩

theorem timerStep (c : Chan) (k : Nat) : Statement (.timerStep c k) := by
  intro t bs j rest h
  simp [Instr.row, decodeRow, decodeInternalRow, onChan_ok] at h
  obtain ⟨c, rfl, v, -, rfl⟩ := h
  exact ⟨rfl, rfl⟩

theorem lengthStep (c : Chan) : Statement (.lengthStep c) := by
  intro t bs j rest h
  simp [Instr.row, decodeRow, decodeInternalRow, onChan_ok] at h
  obtain ⟨c, rfl, rfl, -⟩ := h
  exact ⟨rfl, rfl⟩

theorem envStep (c : EnvChan) : Statement (.envStep c) := by
  intro t bs j rest h
  simp [Instr.row, decodeRow, decodeInternalRow, onCapable_ok] at h
  obtain ⟨c, rfl, e, hc, rfl, -⟩ := h
  exact ⟨rfl, congrArg Target.ch (toChan_of_toEnvChan hc)⟩

theorem sweepStep : Statement .sweepStep := by
  intro t bs j rest h
  simp [Instr.row, decodeRow, decodeInternalRow, onOnly_ok] at h
  obtain ⟨rfl, rfl, -⟩ := h
  exact ⟨rfl, rfl⟩

theorem frameEvent : Statement .frameEvent := by
  intro t bs j rest h
  simp [Instr.row, decodeRow, decodeInternalRow, onOnly_ok] at h
  obtain ⟨rfl, rfl, -⟩ := h
  exact ⟨rfl, rfl⟩

theorem advance (n : Nat) : Statement (.advance n) := by
  intro t bs j rest h
  simp [Instr.row, decodeRow, decodeInternalRow, onOnly_ok] at h
  obtain ⟨rfl, x, -, rfl⟩ := h
  exact ⟨rfl, rfl⟩

end Laws.RowDecodesToItself

end Sys2Proof
end

