-- ==== Sys2Proof/Laws/Time.lean ====
section
/-! SUPPORT. What the ticks, the timers and the cycle advance can do. -/

namespace Sys2Proof.Machine

/-! ## Ticks -/

theorem volumeStep_le {v : Nat} (h : v ≤ 15) (d : Direction) : volumeStep d v ≤ 15 := by
  cases d <;> simp only [volumeStep] <;> omega

/-- An envelope tick changes nothing, counts, or reloads and moves the volume (R181). -/
theorem envelope_tick_cases (e : Envelope) :
    (e.period = 0 ∧ e.tick = e) ∨
    (e.period ≠ 0 ∧ 2 ≤ e.counter ∧ e.tick = { e with counter := e.counter - 1 }) ∨
    (e.period ≠ 0 ∧ e.counter ≤ 1 ∧
      e.tick = { e with counter := e.period, volume := volumeStep e.direction e.volume }) := by
  unfold Envelope.tick
  rw [satDec_eq]
  by_cases hp : e.period = 0
  · simp [hp]
  · by_cases hc : 2 ≤ e.counter
    · have : e.counter - 1 ≠ 0 := by omega
      simp [hp, hc, this]
    · have : e.counter - 1 = 0 := by omega
      simp [hp, this]
      omega

theorem envelope_tick_ok {e : Envelope} (h : e.ok) : e.tick.ok := by
  obtain ⟨hi, hv, hp, hc⟩ := h
  obtain ⟨-, he⟩ | ⟨-, -, he⟩ | ⟨-, -, he⟩ := envelope_tick_cases e <;> rw [he]
  · exact ⟨hi, hv, hp, hc⟩
  · exact ⟨hi, hv, hp, by simp only; omega⟩
  · exact ⟨hi, volumeStep_le hv _, hp, hp⟩

/-- The sweep calculation in subtraction never rises (R207). -/
theorem calc_subtraction_le {sw : Sweep} (h : sw.mode = .subtraction) (f : Nat) : sw.calc f ≤ f := by
  simp [Sweep.calc, h]

/-- A sweep tick is off, counts, or reloads the counter and runs the event (R205). -/
theorem sweepTick_cases (dc : Bool) (s : Synth) :
    (s.sweep.period = 0 ∧ sweepTick dc s = s) ∨
    (s.sweep.period ≠ 0 ∧ 2 ≤ s.sweep.counter ∧
      sweepTick dc s = s.setSweep { s.sweep with counter := s.sweep.counter - 1 }) ∨
    (s.sweep.period ≠ 0 ∧ s.sweep.counter ≤ 1 ∧
      sweepTick dc s = sweepEvent dc (s.setSweep { s.sweep with counter := s.sweep.period })) := by
  unfold sweepTick
  rw [satDec_eq]
  by_cases hp : s.sweep.period = 0
  · simp [hp]
  · by_cases hc : 2 ≤ s.sweep.counter
    · have : s.sweep.counter - 1 ≠ 0 := by omega
      simp [hp, hc, this]
    · have : s.sweep.counter - 1 = 0 := by omega
      simp [hp, this]
      omega

/-- A sweep event disables without a commit, does nothing, or commits and perhaps disables (R205). -/
theorem sweepEvent_cases (dc : Bool) (s : Synth) :
    (0x7FF < s.sweep.calc s.sweep.shadow ∧ sweepEvent dc s = disableChan .ch1 s) ∨
    (s.sweep.calc s.sweep.shadow ≤ 0x7FF ∧ s.sweep.shift = 0 ∧ sweepEvent dc s = s) ∨
    (s.sweep.calc s.sweep.shadow ≤ 0x7FF ∧ s.sweep.shift ≠ 0 ∧
      sweepEvent dc s =
        if dc = true ∧ 0x7FF < s.sweep.calc (s.sweep.calc s.sweep.shadow)
        then disableChan .ch1 (sweepCommit (s.sweep.calc s.sweep.shadow) s)
        else sweepCommit (s.sweep.calc s.sweep.shadow) s) := by
  by_cases h : 0x7FF < s.sweep.calc s.sweep.shadow
  · exact Or.inl ⟨h, by simp [sweepEvent, sweepOverflows, Config.freqMax, h]⟩
  · refine Or.inr ?_
    by_cases hs : s.sweep.shift = 0
    · exact Or.inl ⟨by omega, hs, by simp [sweepEvent, sweepOverflows, Config.freqMax, h, hs]⟩
    · refine Or.inr ⟨by omega, hs, ?_⟩
      by_cases h2 : 0x7FF < s.sweep.calc (s.sweep.calc s.sweep.shadow) <;> cases dc <;>
        simp [sweepEvent, sweepOverflows, disableOnOverflow, Config.freqMax, h, hs, h2]

/-! ## Timers -/

/-- What a rollover keeps, a timer advance keeps where a timer write does. -/
theorem stepTimer_keeps {β : Type} (g : Synth → β) (c : Chan) (hr : ∀ s, g (rollover c s) = g s)
    (hc : ∀ s x, g (s.setCommon c x) = g s) (k : Nat) (s : Synth) : g (stepTimer c k s) = g s := by
  simp only [stepTimer]
  rw [repeated_keeps (rollover c) g hr, hc]

@[simp] theorem env_stepTimer (c : Chan) (k : Nat) (s : Synth) (e : EnvChan) :
    (stepTimer c k s).env e = s.env e :=
  stepTimer_keeps (fun s => s.env e) c (fun s => env_rollover c e s) (fun s x => by simp) k s

@[simp] theorem sweep_stepTimer (c : Chan) (k : Nat) (s : Synth) :
    (stepTimer c k s).sweep = s.sweep :=
  stepTimer_keeps (fun s => s.sweep) c (sweep_rollover c) (fun s x => by simp) k s

@[simp] theorem seq_stepTimer (c : Chan) (k : Nat) (s : Synth) : (stepTimer c k s).seq = s.seq :=
  stepTimer_keeps (fun s => s.seq) c (seq_rollover c) (fun s x => by simp) k s

@[simp] theorem mix_stepTimer (c : Chan) (k : Nat) (s : Synth) : (stepTimer c k s).mix = s.mix :=
  stepTimer_keeps (fun s => s.mix) c (mix_rollover c) (fun s x => by simp) k s

@[simp] theorem facc_stepTimer (c : Chan) (k : Nat) (s : Synth) : (stepTimer c k s).facc = s.facc :=
  stepTimer_keeps (fun s => s.facc) c (facc_rollover c) (fun s x => by simp) k s

/-- The timer after an advance (R145). -/
theorem timer_stepTimer (c : Chan) (k : Nat) (s : Synth) :
    ((stepTimer c k s).common c).timer = ((s.common c).timer + k) % period s c := by
  have h : ∀ x : Synth, ((rollover c x).common c).timer = (x.common c).timer := by
    intro x
    obtain ⟨r, hr⟩ := common_rollover c c x
    rw [hr]; simp
  simp only [stepTimer]
  rw [repeated_keeps (rollover c) (fun x => (x.common c).timer) h]
  simp

@[simp] theorem period_stepTimer (c : Chan) (k : Nat) (s : Synth) :
    period (stepTimer c k s) c = period s c := by
  simp only [stepTimer]
  rw [repeated_keeps (rollover c) (fun x => period x c) (fun x => period_rollover c c x),
    period_setTimer]

/-! ## The advance -/

@[simp] theorem seq_stepTimers (k : Nat) (s : Synth) : (stepTimers k s).seq = s.seq := by
  simp [stepTimers]

@[simp] theorem seq_lengthTick (c : Chan) (s : Synth) : (lengthTick c s).seq = s.seq := by
  obtain ⟨-, h⟩ | ⟨-, -, h⟩ := lengthTick_cases c s <;> rw [h]
  simp

@[simp] theorem seq_envTick (c : EnvChan) (s : Synth) : (envTick c s).seq = s.seq := by
  simp [envTick]

@[simp] theorem seq_disableChan (c : Chan) (s : Synth) : (disableChan c s).seq = s.seq := by
  simp [disableChan]

@[simp] theorem seq_sweepCommit (n : Nat) (s : Synth) : (sweepCommit n s).seq = s.seq := by
  simp [sweepCommit]

@[simp] theorem seq_sweepEvent (dc : Bool) (s : Synth) : (sweepEvent dc s).seq = s.seq := by
  obtain ⟨-, h⟩ | ⟨-, -, h⟩ | ⟨-, -, h⟩ := sweepEvent_cases dc s <;> rw [h]
  · simp
  · split_ifs <;> simp

@[simp] theorem seq_sweepTick (dc : Bool) (s : Synth) : (sweepTick dc s).seq = s.seq := by
  obtain ⟨-, h⟩ | ⟨-, -, h⟩ | ⟨-, -, h⟩ := sweepTick_cases dc s <;> rw [h] <;> simp

@[simp] theorem seq_frameEvent (dc : Bool) (n : Nat) (s : Synth) :
    (frameEvent dc n s).seq = s.seq := by
  unfold frameEvent lengthTicks envTicks
  split_ifs <;> simp

/-- The sequencer after one piece that stays inside its frame or ends it (R310, R304). -/
theorem seq_advancePiece (dc : Bool) (k : Nat) (s : Synth) :
    (advancePiece dc k s).seq =
      if s.seq.acc + k = 8192 then ⟨(s.seq.step + 1) % 8, 0⟩ else ⟨s.seq.step, s.seq.acc + k⟩ := by
  simp only [advancePiece, seq_stepTimers, Config.framePeriod]
  split_ifs
  · simp [frameBoundary]
  · rfl

/-- A piece keeps the cycle count inside its frame. -/
theorem acc_advancePiece_lt (dc : Bool) {n : Nat} {s : Synth} (h : s.seq.acc < 8192) :
    (advancePiece dc (min n (8192 - s.seq.acc)) s).seq.acc < 8192 := by
  rw [seq_advancePiece]
  split_ifs
  · exact Nat.zero_lt_succ _
  · show s.seq.acc + min n (8192 - s.seq.acc) < 8192
    omega

/-- More fuel than cycles changes nothing (R460). -/
theorem advanceLoop_fuel (dc : Bool) {fuel n : Nat} {s : Synth} (hn : n ≤ fuel)
    (h : s.seq.acc < 8192) : advanceLoop dc fuel n s = advanceCycles dc n s := by
  unfold advanceCycles
  induction fuel using Nat.strong_induction_on generalizing n s with
  | _ fuel ih =>
    cases fuel with
    | zero => rw [Nat.le_zero.1 hn]
    | succ fuel =>
      cases n with
      | zero => rfl
      | succ n =>
        simp only [advanceLoop, Nat.succ_ne_zero, if_false, Config.framePeriod]
        have hk : 1 ≤ min (n + 1) (8192 - s.seq.acc) := by omega
        have ha := acc_advancePiece_lt dc (n := n + 1) h
        rw [ih fuel (Nat.lt_succ_self _) (by omega) ha]
        by_cases hf : n = fuel
        · subst hf
          rw [ih n (Nat.lt_succ_self _) (by omega) ha]
        · rw [ih n (by omega) (by omega) ha]

/-- One turn of R310's loop. -/
theorem advanceCycles_turn (dc : Bool) {n : Nat} {s : Synth} (hn : 0 < n) (h : s.seq.acc < 8192) :
    advanceCycles dc n s = advanceCycles dc (n - min n (8192 - s.seq.acc))
      (advancePiece dc (min n (8192 - s.seq.acc)) s) := by
  cases n with
  | zero => omega
  | succ n =>
    rw [← advanceLoop_fuel dc (fuel := n) (by omega) (acc_advancePiece_lt dc h)]
    simp [advanceCycles, advanceLoop, Config.framePeriod]

@[simp] theorem advanceCycles_zero (dc : Bool) (s : Synth) : advanceCycles dc 0 s = s := rfl

/-! ## Nothing inside an advance turns a disabled channel on (R23) -/

/-- Channel `c` is disabled. -/
abbrev Synth.off (s : Synth) (c : Chan) : Prop := (s.common c).enabled = false

theorem off_disableChan {c : Chan} {s : Synth} (h : s.off c) (c' : Chan) : (disableChan c' s).off c := by
  rw [Synth.off, common_disableChan]
  split_ifs
  · rfl
  · exact h

theorem off_rollover {c : Chan} {s : Synth} (h : s.off c) (c' : Chan) : (rollover c' s).off c := by
  obtain ⟨r, hr⟩ := common_rollover c' c s
  rw [Synth.off, hr]
  split_ifs with e
  · subst e; exact h
  · exact h

theorem off_stepTimer {c : Chan} {s : Synth} (h : s.off c) (c' : Chan) (k : Nat) :
    (stepTimer c' k s).off c := by
  have turn : ∀ n x, Synth.off x c → Synth.off (repeated (rollover c') n x) c := by
    intro n
    induction n with
    | zero => exact fun _ hx => hx
    | succ n ih => exact fun x hx => ih _ (off_rollover hx c')
  refine turn _ _ ?_
  rw [Synth.off, common_setCommon]
  split_ifs with e
  · subst e; exact h
  · exact h

theorem off_lengthTick {c : Chan} {s : Synth} (h : s.off c) (c' : Chan) : (lengthTick c' s).off c := by
  obtain ⟨-, e⟩ | ⟨-, -, e⟩ := lengthTick_cases c' s <;> rw [e]
  · exact h
  · rw [Synth.off, common_setCommon]
    split_ifs with hc
    · subst hc; simp [show (s.common c).enabled = false from h]
    · exact h

theorem off_envTick {c : Chan} {s : Synth} (h : s.off c) (e : EnvChan) : (envTick e s).off c := by
  simpa [envTick, Synth.off] using h

theorem off_sweepCommit {c : Chan} {s : Synth} (h : s.off c) (n : Nat) : (sweepCommit n s).off c := by
  cases c <;> exact h

theorem off_sweepTick {c : Chan} {s : Synth} (h : s.off c) (dc : Bool) : (sweepTick dc s).off c := by
  obtain ⟨-, e⟩ | ⟨-, -, e⟩ | ⟨-, -, e⟩ := sweepTick_cases dc s <;> rw [e]
  · exact h
  · cases c <;> exact h
  · have h' : (s.setSweep { s.sweep with counter := s.sweep.period }).off c := by cases c <;> exact h
    obtain ⟨-, e⟩ | ⟨-, -, e⟩ | ⟨-, -, e⟩ :=
      sweepEvent_cases dc (s.setSweep { s.sweep with counter := s.sweep.period }) <;> rw [e]
    · exact off_disableChan h' _
    · exact h'
    · split_ifs
      · exact off_disableChan (off_sweepCommit h' _) _
      · exact off_sweepCommit h' _

theorem off_frameEvent {c : Chan} {s : Synth} (h : s.off c) (dc : Bool) (n : Nat) :
    (frameEvent dc n s).off c := by
  have byCases : ∀ (p : Prop) [Decidable p] (x y : Synth), x.off c → y.off c → (if p then x else y).off c := by
    intro p _ x y hx hy
    split_ifs <;> assumption
  have hl := byCases (n ∈ [0, 2, 4, 6]) _ _
    (off_lengthTick (off_lengthTick (off_lengthTick (off_lengthTick h .ch1) .ch2) .ch3) .ch4) h
  have hs := byCases (n ∈ [2, 6]) _ _ (off_sweepTick hl dc) hl
  exact byCases (n = 7) _ _ (off_envTick (off_envTick (off_envTick hs _) _) _) hs

/-- The advance keeps a disabled channel disabled, from any state. -/
theorem off_advanceCycles {c : Chan} {s : Synth} (h : s.off c) (dc : Bool) (n : Nat) :
    (advanceCycles dc n s).off c := by
  have piece : ∀ k x, Synth.off x c → Synth.off (advancePiece dc k x) c := by
    intro k x hx
    have hx := off_stepTimer (off_stepTimer (off_stepTimer (off_stepTimer hx .ch1 k) .ch2 k) .ch3 k) .ch4 k
    simp only [advancePiece]
    split_ifs
    · exact off_frameEvent (s := { stepTimers k x with seq := ⟨(stepTimers k x).seq.step, 0⟩ }) hx dc _
    · exact hx
  have loop : ∀ fuel n x, Synth.off x c → Synth.off (advanceLoop dc fuel n x) c := by
    intro fuel
    induction fuel with
    | zero => exact fun _ _ hx => hx
    | succ fuel ih =>
      intro n x hx
      simp only [advanceLoop]
      split_ifs
      · exact hx
      · exact ih _ _ (piece _ _ hx)
  exact loop n n s h

end Sys2Proof.Machine
end

