-- ==== Sys2Proof/Tests/Slice0.lean ====
section
/-! SUPPORT. Tests of the model: ill-formed terms, calls written out byte by byte, one step of each
operation on a small state (expected values from spec/95_test_vectors.md and the rules' own examples),
and, for every statement with hypotheses, a state and operands that meet them. -/

namespace Sys2Proof.Tests

open Sys2Proof.Machine

/-! ## Small states -/

/-- SINC_ID of spec/95_test_vectors.md: every row 1 at tap 7, 0 elsewhere. -/
def sincId : SincTable := Vector.replicate 32 #v[0, 0, 0, 0, 0, 0, 0, 1, 0, 0, 0, 0, 0, 0, 0]

/-- Construction, with GROUND 1/2, SAMPLE_RATE 512 and SINC_ID. -/
def base : State :=
  { State.reset with params :=
    { ground := 1 / 2, sampleRate := 512, sinc := sincId, sweepDoubleCheck := true } }

/-- `base` with another Synth. -/
def onSynth (f : Synth → Synth) : State := { base with synth := f base.synth }

/-- `base` with a channel's common fields changed. -/
def onCommon (c : Chan) (f : Common → Common) : State :=
  onSynth fun s => s.setCommon c (f (s.common c))

/-- The Osc of V-OS1: M 4, L 8, R 32768, the 50% duty pattern, frequency 1536; not yet recomputed. -/
def osc : Osc :=
  { Osc.construction 4 8 32768 with freq := 1536, wave := [15, 0, 0, 0, 0, 15, 15, 15] }

/-- `base` with one Osc. -/
def withOscs (o : Osc) : State := { base with oscs := [o] }

/-- `base` with one call pending. -/
def calling (c : Caller) (busy : List Agent) (bytes : List Byte) : State :=
  { base with calls := [⟨c, busy, bytes⟩] }

/-- The state after an operation. -/
def after (i : Instr) (s : State) : Option State := runAll [i] s

/-- The next state of an outcome, and its refusal. -/
def nextOf : Host.Outcome State Fault Refusal → Option State
  | .next t => some t
  | .fault _ => none
  | .refused _ => none

@[inherit_doc nextOf] def refusalOf : Host.Outcome State Fault Refusal → Option Refusal
  | .next _ => none
  | .fault _ => none
  | .refused r => some r

/-- What an operation returns. -/
def returns (i : Instr) (s : State) : Option Returned := (after i s).map (·.returned)

/-- A Synth field after an operation. -/
def field (f : SynthField) (i : Instr) (s : State) : Option Returned :=
  (after i s).map (·.synth.get f)

/-- An Osc field after an operation. -/
def oscField (f : OscField) (i : Instr) (s : State) : Option Returned :=
  (after i s).bind fun t => t.oscs[0]?.map (·.get f)

/-- An element of a HOST buffer after an operation. -/
def element (b j : Nat) (i : Instr) (s : State) : Option OutVal :=
  (after i s).bind fun t => t.host.read b j

/-! ## Ill-formed terms are refused by `wellFormed` -/

theorem test_wellFormed_setWaveform :
    (Instr.setWaveform (List.replicate 16 0)).wellFormed = true ∧
    (Instr.setWaveform (List.replicate 15 0)).wellFormed = false := by decide

theorem test_wellFormed_fillStereo :
    (Instr.fillStereo ⟨0, 4⟩ ⟨1, 4⟩ 4).wellFormed = true ∧
    (Instr.fillStereo ⟨0, 3⟩ ⟨1, 4⟩ 4).wellFormed = false ∧
    (Instr.fillStereo ⟨0, 4⟩ ⟨1, 5⟩ 4).wellFormed = false := by decide

theorem test_wellFormed_fillInterleaved :
    (Instr.fillInterleaved ⟨0, 8⟩ 4).wellFormed = true ∧
    (Instr.fillInterleaved ⟨0, 7⟩ 4).wellFormed = false ∧
    (Instr.fillInterleaved ⟨0, 9⟩ 4).wellFormed = false := by decide

theorem test_wellFormed_oscNew :
    (Instr.oscNew 1 1 (1 / 2)).wellFormed = true ∧
    (Instr.oscNew 0 1 1).wellFormed = false ∧ (Instr.oscNew 1 0 1).wellFormed = false ∧
    (Instr.oscNew 1 1 0).wellFormed = false := by decide +kernel

theorem test_wellFormed_generate :
    (Instr.generate 0 ⟨0, 4⟩ 4).wellFormed = true ∧
    (Instr.generate 0 ⟨0, 3⟩ 4).wellFormed = false ∧
    (Instr.generate 0 ⟨0, 5⟩ 4).wellFormed = false := by decide

/-! ## Decoding: byte images written out from R101 and R104 to R111 -/

theorem test_decode_common_rows :
    decodeCall [1, 2, 0x80, 0x12] = .ok (.setFrequency .ch2 0x900) ∧
    decodeCall [2, 3, 0xAC, 0x02] = .ok (.setLength .ch3 300) ∧
    decodeCall [3, 4, 1] = .ok (.setContinuousOutput .ch4 true) ∧
    decodeCall [4, 4] = .ok (.disable .ch4) ∧
    decodeCall [5, 1] = .ok (.reset .ch1) ∧
    decodeCall [6, 3] = .ok (.getCurrentVolume .ch3) := by decide

theorem test_decode_pulse_rows :
    decodeCall [7, 1, 0b1010_0_011] = .ok (.setEnv .ch1 0xA3) ∧
    decodeCall [7, 4, 0b0000_1_111] = .ok (.setEnv .ch4 0x0F) ∧
    decodeCall [8, 2, 3] = .ok (.setDuty .ch2 .duty75) ∧
    decodeCall [9, 1, 0b0_001_1_111] = .ok (.setSweep 0x1F) := by decide

theorem test_decode_wave_rows :
    decodeCall [10, 3, 16, 0x01, 0x23, 0x45, 0x67, 0x89, 0xAB, 0xCD, 0xEF, 0xFE, 0xDC, 0xBA, 0x98,
      0x76, 0x54, 0x32, 0x10] = .ok (.setWaveform [0x01, 0x23, 0x45, 0x67, 0x89, 0xAB, 0xCD, 0xEF,
      0xFE, 0xDC, 0xBA, 0x98, 0x76, 0x54, 0x32, 0x10]) ∧
    decodeCall [11, 3, 2] = .ok (.setOutputLevel .half) := by decide

theorem test_decode_noise_rows :
    decodeCall [12, 4, 0b0101_1_011] = .ok (.setNoise 0x5B) ∧
    decodeCall [13, 4, 20] = .ok (.setScf 20) ∧
    decodeCall [14, 4, 9] = .ok (.setDrf 9) ∧
    decodeCall [15, 4, 1] = .ok (.setStepSelection .steps7) := by decide

theorem test_decode_seq_and_mix_rows :
    decodeCall [16, 5] = .ok .seqReset ∧
    decodeCall [17, 6, 0b0001_0001] = .ok (.mixSetEnable 0x11) ∧
    decodeCall [18, 6, 1, 0] = .ok (.setTerminalEnable .right false) ∧
    decodeCall [19, 6, 0, 9] = .ok (.setTerminalVolume .left 9) := by decide

theorem test_decode_synth_rows :
    decodeCall [20, 7] = .ok .synthStep ∧
    decodeCall [21, 7, 1, 4, 2, 4, 4] = .ok (.fillStereo ⟨1, 4⟩ ⟨2, 4⟩ 4) ∧
    decodeCall [22, 7, 1, 2, 1] = .ok (.fillInterleaved ⟨1, 2⟩ 1) ∧
    decodeCall [23, 7, 0, 1, 0] = .ok (.synthQuery (.common .ch1 .freq)) ∧
    decodeCall [23, 7, 1, 4, 4] = .ok (.synthQuery (.env .ch4 .counter)) := by decide

theorem test_decode_conversion_rows :
    decodeCall [24, 9, 0x80, 0x10] = .ok (.fromGbFreq 0x800) ∧
    decodeCall [25, 9, 0, 0xF0, 0x06, 0] = .ok (.toGbFreq (.finite 440)) ∧
    decodeCall [25, 9, 3] = .ok (.toGbFreq .nan) := by decide +kernel

theorem test_decode_osc_rows :
    decodeCall [26, 8, 3, 7, 0xFF, 0xFF, 0x01, 0] = .ok (.oscNew 4 8 32768) ∧
    decodeCall [27, 8, 0, 0x80, 0x0C] = .ok (.oscSetFrequency 0 1536) ∧
    decodeCall [28, 8, 1, 2, 30, 29] = .ok (.oscSetWaveform 1 [15, -15]) ∧
    decodeCall [29, 8, 0, 1] = .ok (.oscSetMuted 0 true) ∧
    decodeCall [30, 8, 0, 10] = .ok (.oscQuery 0 .phase) ∧
    decodeCall [31, 8, 0, 1, 0x80, 0x01, 0x80, 0x01] = .ok (.generate 0 ⟨1, 128⟩ 128) := by
  decide +kernel

theorem test_decode_internal_rows :
    decodeCall [32, 1, 0x80, 0x40] = .ok (.timerStep .ch1 8192) ∧
    decodeCall [33, 2] = .ok (.lengthStep .ch2) ∧
    decodeCall [34, 4] = .ok (.envStep .ch4) ∧
    decodeCall [35, 1] = .ok .sweepStep ∧
    decodeCall [36, 5] = .ok .frameEvent ∧
    decodeCall [37, 7, 0xA0, 0x9C, 0x01] = .ok (.advance 20000) := by decide

/-- R112, R113, R456: no such row or target, a code an enum lacks, an argument cut short, one too many. -/
theorem test_decode_rejects :
    decodeCall [] = .error .noOperation ∧ decodeCall [38, 1] = .error .noSuchRow ∧
    decodeCall [7, 3, 0xF0] = .error .noSuchTarget ∧ decodeCall [9, 2, 0] = .error .noSuchTarget ∧
    decodeCall [8, 1, 4] = .error .badArguments ∧ decodeCall [7, 1] = .error .badArguments ∧
    decodeCall [1, 1, 0x80] = .error .badArguments ∧
    decodeCall [4, 1, 0] = .error .surplusArguments := by decide

/-! ## One step of each operation -/

/-- V-CC1. -/
theorem test_setFrequency_clamps :
    field (.common .ch2 .freq) (.setFrequency .ch2 0x900) base = some (.nat 0x7FF) ∧
    (after (.setFrequency .ch2 0x900) base).map (fun t => period t.synth .ch2) = some 4 := by decide

/-- V-SW15: the shadow keeps its value. -/
theorem test_setFrequency_keeps_shadow :
    field (.sweep .shadow) (.setFrequency .ch1 1700)
      (onSynth fun s => s.setSweep { s.sweep with shadow := 1500 }) = some (.nat 1500) := by decide

/-- V-CC3, V-CC4. -/
theorem test_setLength_clamps :
    field (.common .ch1 .length) (.setLength .ch1 64) base = some (.nat 63) ∧
    field (.common .ch3 .length) (.setLength .ch3 300) base = some (.nat 255) := by decide

theorem test_setContinuousOutput_sets_its_channel :
    field (.common .ch1 .continuous) (.setContinuousOutput .ch1 true) base = some (.bool true) ∧
    field (.common .ch2 .continuous) (.setContinuousOutput .ch1 true) base
      = some (.bool false) := by decide

/-- R159: the length stays. -/
theorem test_disable_clears_enabled :
    field (.common .ch2 .enabled) (.disable .ch2)
      (onCommon .ch2 fun x => { x with enabled := true, length := 5 }) = some (.bool false) ∧
    field (.common .ch2 .length) (.disable .ch2)
      (onCommon .ch2 fun x => { x with enabled := true, length := 5 }) = some (.nat 5) := by decide

/-- V-CC12. -/
theorem test_reset_ch1_loads_shadow_and_keeps_length :
    field (.sweep .shadow) (.reset .ch1) (onCommon .ch1 fun x => { x with freq := 1000 })
      = some (.nat 1000) ∧
    field (.common .ch1 .enabled) (.reset .ch1) base = some (.bool true) ∧
    field (.common .ch1 .length) (.reset .ch1) base = some (.nat 0) := by decide

/-- V-WV4: the high nibble of byte 0. -/
theorem test_reset_ch3_latches_nibble_0 :
    field (.common .ch3 .raw) (.reset .ch3)
      (onSynth fun s => s.setWave { s.wave with waveRam := [(0, 0xA5)] }) = some (.nat 0xA) := by
  decide

/-- V-CC13, V-CC16. -/
theorem test_getCurrentVolume_pulse :
    returns (.getCurrentVolume .ch2) (onSynth fun s =>
      (s.setCommon .ch2 { s.common .ch2 with enabled := true, raw := 15 }).setEnv .ch2
        { s.env .ch2 with volume := 10 }) = some (.rat (2 / 3)) ∧
    returns (.getCurrentVolume .ch2) base = some (.rat (1 / 2)) := by decide +kernel

/-- V-WV5 at level half: raw 13 gives 6/15. -/
theorem test_getCurrentVolume_wave_half :
    returns (.getCurrentVolume .ch3) (onSynth fun s =>
      (s.setCommon .ch3 { s.common .ch3 with enabled := true, raw := 13 }).setWave
        { s.wave with level := .half }) = some (.rat (2 / 5)) := by decide +kernel

/-- The example of R180. -/
theorem test_setEnv_loads_byte :
    (after (.setEnv .ch2 0xA3) base).map (fun t => t.synth.env .ch2)
      = some ⟨10, 10, .attenuate, 3, 3⟩ := by decide

/-- V-DU5: raw keeps the old pattern's sample. -/
theorem test_setDuty_keeps_raw :
    (after (.setDuty .ch1 .duty75) (onSynth fun s => s.setPulse .ch1 ⟨.duty12, 3⟩)).map
      (fun t => (t.synth.pulse .ch1, (t.synth.common .ch1).raw)) = some (⟨.duty75, 3⟩, 0) := by
  decide

/-- The example of R200, and V-SW14's bit 7. -/
theorem test_setSweep_loads_byte :
    (after (.setSweep 0x1F) base).map (fun t => t.synth.sweep)
      = some ⟨7, 1, .subtraction, 0, 0⟩ ∧
    (after (.setSweep 0x9F) base).map (fun t => t.synth.sweep)
      = some ⟨7, 1, .subtraction, 0, 0⟩ := by decide

/-- The triangle of spec/95: nibble p is p below 16. -/
theorem test_setWaveform_nibbles :
    (after (.setWaveform [0x01, 0x23, 0x45, 0x67, 0x89, 0xAB, 0xCD, 0xEF, 0xFE, 0xDC, 0xBA, 0x98,
      0x76, 0x54, 0x32, 0x10]) base).map
      (fun t => [0, 1, 10, 15, 16, 17, 31].map (nibble t.synth.wave.waveRam))
      = some [0, 1, 10, 15, 15, 14, 0] := by decide

/-- V-RF2. -/
theorem test_setWaveform_of_15_bytes_is_refused :
    exec (.setWaveform (List.replicate 15 0)) base = .refused .badShape := rfl

theorem test_setOutputLevel_keeps_raw :
    (after (.setOutputLevel .quarter) (onCommon .ch3 fun x => { x with raw := 13 })).map
      (fun t => (t.synth.wave.level, (t.synth.common .ch3).raw)) = some (.quarter, 13) := by decide

/-- V-NZ1, V-NZ2. -/
theorem test_setNoise_loads_byte :
    (after (.setNoise 0x5B) base).map (fun t => (t.synth.noise, period t.synth .ch4))
      = some (⟨0x7FFF, 5, 3, .steps7⟩, 1536) ∧
    (after (.setNoise 0xF7) base).map (fun t => (t.synth.noise, period t.synth .ch4))
      = some (⟨0x7FFF, 13, 7, .steps15⟩, 917504) := by decide

/-- V-NZ4. -/
theorem test_setScf_clamps : field .scf (.setScf 20) base = some (.nat 13) := by decide

/-- V-NZ4. -/
theorem test_setDrf_clamps : field .drf (.setDrf 9) base = some (.nat 7) := by decide

theorem test_setStepSelection_keeps_lfsr :
    (after (.setStepSelection .steps7) base).map (fun t => t.synth.noise)
      = some ⟨0x7FFF, 0, 0, .steps7⟩ := by decide

/-- V-SQ4. -/
theorem test_seqReset_clears_both :
    (after .seqReset (onSynth fun s => { s with seq := ⟨3, 5000⟩ })).map (·.synth.seq)
      = some ⟨0, 0⟩ := by decide

/-- R108, R331: mask 0x42 routes ch2 left and ch3 right. -/
theorem test_mixSetEnable_routes :
    (after (.mixSetEnable 0x42) base).map (fun t =>
      ([.ch1, .ch2, .ch3, .ch4].map (route t.synth.mix.mask .left),
        [.ch1, .ch2, .ch3, .ch4].map (route t.synth.mix.mask .right)))
      = some ([false, true, false, false], [false, false, true, false]) := by decide

theorem test_setTerminalEnable_sets_its_terminal :
    (after (.setTerminalEnable .right true) base).map (·.synth.mix.termEnable)
      = some ⟨false, true⟩ := by decide

/-- V-MX8. -/
theorem test_setTerminalVolume_clamps :
    (after (.setTerminalVolume .left 9) base).map (·.synth.mix.termVol) = some ⟨7, 0⟩ := by decide

/-- ch1 at index 4 of the 50% pattern, P 8192, volume 15, routed to both terminals at volume 7. -/
def playing : State := onSynth fun s =>
  { ((s.setPulse .ch1 ⟨.duty50, 4⟩).setEnv .ch1 ⟨15, 15, .attenuate, 0, 0⟩).setCommon .ch1
      { s.common .ch1 with enabled := true } with mix := ⟨0x11, ⟨true, true⟩, ⟨7, 7⟩⟩ }

/-- The example of R351: one frame period, then (1/4, 1/4). -/
theorem test_synthStep_advances_then_mixes :
    returns .synthStep playing = some (.pair (.floatOut (1 / 4)) (.floatOut (1 / 4))) ∧
    field .seqStep .synthStep playing = some (.nat 1) := by decide +kernel

/-- V-SY3: 95 cycles, and 1201/11025 of a cycle is kept. -/
theorem test_synthStep_keeps_the_fraction :
    (after .synthStep { base with params := { base.params with sampleRate := 44100 } }).map
      (fun t => (t.synth.seq.acc, t.synth.facc)) = some (95, 1201 / 11025) := by decide +kernel

/-- V-SY6's order, in the two-buffer form. -/
theorem test_fillStereo_writes_one_frame :
    element 1 0 (.fillStereo ⟨1, 1⟩ ⟨2, 1⟩ 1) playing = some (.floatOut (1 / 4)) ∧
    element 1 1 (.fillStereo ⟨1, 1⟩ ⟨2, 1⟩ 1) playing = none := by decide +kernel

/-- V-RF3, V-SY5, and R85 on a buffer too long. -/
theorem test_fillStereo_sizes :
    exec (.fillStereo ⟨1, 3⟩ ⟨2, 4⟩ 4) base = .refused .badShape ∧
    exec (.fillStereo ⟨1, 4⟩ ⟨2, 5⟩ 4) base = .refused .badShape ∧
    exec (.fillStereo ⟨1, 0⟩ ⟨2, 0⟩ 0) base = .next base := ⟨rfl, rfl, rfl⟩

/-- R354: left at 0, right at 1; the right terminal is off here. -/
theorem test_fillInterleaved_writes_one_frame :
    element 5 0 (.fillInterleaved ⟨5, 2⟩ 1)
      { playing with synth := { playing.synth with mix := ⟨0x11, ⟨true, false⟩, ⟨7, 7⟩⟩ } }
      = some (.floatOut (1 / 4)) ∧
    element 5 1 (.fillInterleaved ⟨5, 2⟩ 1)
      { playing with synth := { playing.synth with mix := ⟨0x11, ⟨true, false⟩, ⟨7, 7⟩⟩ } }
      = some (.floatOut 0) := by decide +kernel

/-- R40 through the query of R360. -/
theorem test_synthQuery_reads_construction :
    returns (.synthQuery .lfsr) base = some (.nat 0x7FFF) ∧
    returns (.synthQuery .waveRam) base = some (.bytes (List.replicate 16 0)) := by decide

/-- V-CV3, V-CV7, and a natural above 16 bits (R101, R112). -/
theorem test_fromGbFreq :
    returns (.fromGbFreq 1024) base = some (.out (.floatOut 128)) ∧
    returns (.fromGbFreq 0x800) base = some (.out (.floatOut 131072)) ∧
    returns (.fromGbFreq 0x10005) base = some (.out (.floatOut 131072)) := by decide +kernel

/-- V-CV8, V-CV11. -/
theorem test_toGbFreq_rounds :
    returns (.toGbFreq (.finite 440)) base = some (.nat 1750) ∧
    returns (.toGbFreq (.finite 64)) base = some (.nat 0) := by decide +kernel

/-- V-CV12, V-CV15. -/
theorem test_toGbFreq_out_of_range :
    returns (.toGbFreq (.finite (6398 / 100))) base = some (.nat 0x7FF) ∧
    returns (.toGbFreq .nan) base = some (.nat 0x7FF) := by decide +kernel

/-- R36, R380. -/
theorem test_oscNew_construction :
    returns (.oscNew 4 8 32768) base = some (.oscInstance 0) ∧
    oscField .wave (.oscNew 4 8 32768) base = some (.ints (List.replicate 8 0)) ∧
    oscField .dirty (.oscNew 4 8 32768) base = some (.bool true) := by decide +kernel

/-- V-OS11. -/
theorem test_oscSetFrequency_clamps :
    oscField .freq (.oscSetFrequency 0 5000) (withOscs osc.recompute) = some (.nat 0x7FF) ∧
    oscField .dirty (.oscSetFrequency 0 5000) (withOscs osc.recompute) = some (.bool true) := by
  decide +kernel

/-- R382, R454. -/
theorem test_oscSetWaveform_length :
    oscField .wave (.oscSetWaveform 0 [1, 2, 3, 4, 5, 6, 7, -8]) (withOscs osc)
      = some (.ints [1, 2, 3, 4, 5, 6, 7, -8]) ∧
    refusalOf (exec (.oscSetWaveform 0 [1, 2, 3]) (withOscs osc)) = some .badShape := by decide +kernel

/-- R383: `dirty` is not set. -/
theorem test_oscSetMuted_keeps_dirty :
    oscField .muted (.oscSetMuted 0 true) (withOscs osc.recompute) = some (.bool true) ∧
    oscField .dirty (.oscSetMuted 0 true) (withOscs osc.recompute) = some (.bool false) := by
  decide +kernel

/-- V-OS1's rates and transitions, and an instance that does not exist. -/
theorem test_oscQuery :
    returns (.oscQuery 0 .spp) (withOscs osc.recompute) = some (.rat 128) ∧
    returns (.oscQuery 0 .deltas) (withOscs osc.recompute)
      = some (.deltas [⟨16, -15, 15, 0⟩, ⟨80, 15, 0, 15⟩]) ∧
    refusalOf (exec (.oscQuery 1 .spp) (withOscs osc)) = some .noSuchOperation := by decide +kernel

/-- V-OS2: the step to -15 is heard at sample 23. -/
theorem test_generate_delays_by_seven :
    element 1 22 (.generate 0 ⟨1, 30⟩ 30) (withOscs osc) = some (.floatOut 0) ∧
    element 1 23 (.generate 0 ⟨1, 30⟩ 30) (withOscs osc) = some (.floatOut (-15)) := by
  decide +kernel

/-- V-OS3: the tap at E[23] of a block of 20 is carried. R403, R391: a muted block clears the seed, an empty
one does not. -/
theorem test_generate_carries_the_tail :
    oscField .leftover (.generate 0 ⟨1, 20⟩ 20) (withOscs osc)
      = some (.rats [0, 0, 0, -15, 0, 0, 0, 0, 0, 0, 0, 0, 0, 0]) ∧
    oscField .phase (.generate 0 ⟨1, 20⟩ 20) (withOscs osc) = some (.rat 20) ∧
    oscField .seed (.generate 0 ⟨1, 0⟩ 0) (withOscs { osc with muted := true, seed := -15 })
      = some (.rat (-15)) ∧
    oscField .seed (.generate 0 ⟨1, 1⟩ 1) (withOscs { osc with muted := true, seed := -15 })
      = some (.rat 0) := by decide +kernel

/-- V-CC5. -/
theorem test_timerStep_rolls_over :
    (after (.timerStep .ch1 8192) (onCommon .ch1 fun x => { x with freq := 2000 })).map
      (fun t => ((t.synth.common .ch1).timer, (t.synth.pulse .ch1).dutyIndex)) = some (128, 2) := by
  decide

/-- V-NZ7 (V-NZ9 for the raw sample): six shifts in steps7. -/
theorem test_timerStep_shifts_the_lfsr :
    (after (.timerStep .ch4 48) (onSynth fun s =>
      s.setNoise { s.noise with stepSel := .steps7 })).map
      (fun t => (t.synth.noise.lfsr, (t.synth.common .ch4).raw)) = some (0x0181, 0) := by decide

/-- V-CC7. -/
theorem test_lengthStep_expires :
    (after (.lengthStep .ch2) (onCommon .ch2 fun x => { x with enabled := true, length := 1 })).map
      (fun t => ((t.synth.common .ch2).length, (t.synth.common .ch2).enabled))
      = some (0, false) := by decide

/-- V-CC8. -/
theorem test_lengthStep_of_zero_never_expires :
    field (.common .ch2 .enabled) (.lengthStep .ch2)
      (onCommon .ch2 fun x => { x with enabled := true }) = some (.bool true) := by decide

/-- V-EN2: 14 to 15, amplifying. -/
theorem test_envStep_amplifies :
    (after (.envStep .ch2) (onSynth fun s => s.setEnv .ch2 (envOfByte 0xE9))).map
      (fun t => ((t.synth.env .ch2).volume, (t.synth.env .ch2).counter)) = some (15, 1) := by decide

/-- V-EN4: period 0. -/
theorem test_envStep_period_0 :
    (after (.envStep .ch2) (onSynth fun s => s.setEnv .ch2 (envOfByte 0x80))).map
      (fun t => ((t.synth.env .ch2).volume, (t.synth.env .ch2).counter)) = some (8, 0) := by decide

/-- ch1 enabled with shadow and frequency `f` and a sweep unit at counter 1. -/
def sweeping (f shift : Nat) (m : SweepMode) : State := onSynth fun s =>
  (s.setCommon .ch1 { s.common .ch1 with enabled := true, freq := f }).setSweep ⟨shift, 1, m, f, 1⟩

/-- V-SW6, V-SW1: freq, shadow and enabled. -/
theorem test_sweepStep_addition :
    (after .sweepStep (sweeping 1400 2 .addition)).map (fun t => ((t.synth.common .ch1).freq,
      t.synth.sweep.shadow, (t.synth.common .ch1).enabled)) = some (1750, 1750, false) ∧
    (after .sweepStep (sweeping 1500 1 .addition)).map (fun t => ((t.synth.common .ch1).freq,
      t.synth.sweep.shadow, (t.synth.common .ch1).enabled)) = some (1500, 1500, false) := by decide

/-- V-SW11, V-SW7 (the single check). -/
theorem test_sweepStep_subtraction_and_single_check :
    (after .sweepStep (sweeping 2000 7 .subtraction)).map (fun t => ((t.synth.common .ch1).freq,
      (t.synth.common .ch1).enabled)) = some (1985, true) ∧
    (after .sweepStep { sweeping 1400 2 .addition with
      params := { base.params with sweepDoubleCheck := false } }).map
      (fun t => ((t.synth.common .ch1).freq, (t.synth.common .ch1).enabled))
      = some (1750, true) := by decide

/-- V-SQ6: the length tick disables, the sweep still commits. -/
theorem test_frameEvent_length_before_sweep :
    (after .frameEvent (onSynth fun s => { ((s.setCommon .ch1 { s.common .ch1 with
      enabled := true, length := 1, freq := 1000 }).setSweep ⟨1, 1, .addition, 1000, 1⟩) with
      seq := ⟨2, 0⟩ })).map (fun t => ((t.synth.common .ch1).enabled, (t.synth.common .ch1).freq,
        t.synth.seq.step)) = some (false, 1500, 2) := by decide

/-- R302: the envelope tick of step 7. -/
theorem test_frameEvent_envelope_at_step_7 :
    field (.env .ch4 .volume) .frameEvent (onSynth fun s =>
      { s.setEnv .ch4 (envOfByte 0xA1) with seq := ⟨7, 0⟩ }) = some (.nat 9) := by decide

/-- V-SQ1: 8191 cycles are no frame, 8192 are. -/
theorem test_advance_frame_boundary :
    (after (.advance 8191) base).map (·.synth.seq) = some ⟨0, 8191⟩ ∧
    (after (.advance 8192) base).map (·.synth.seq) = some ⟨1, 0⟩ := by decide +kernel

/-- V-SQ5: 8192, 8192 and 3616. -/
theorem test_advance_in_pieces :
    (after (.advance 20000) base).map (·.synth.seq) = some ⟨2, 3616⟩ := by decide +kernel

/-! ## The call boundary -/

/-- V-RF1, V-RF4, an internal row called by the host, and a call that runs. -/
theorem test_step_admits :
    refusalOf (step (calling .host [] [7, 3, 0xF0])) = some .noSuchOperation ∧
    refusalOf (step (calling .host [.synth] [1, 1, 5])) = some .overlap ∧
    refusalOf (step (calling .host [] [37, 7, 1])) = some .noSuchOperation ∧
    refusalOf (step (calling .host [.osc 0] [16, 5])) = none := by decide

/-- A table word becomes the next call and runs. -/
theorem test_withFetchWord_runs :
    decodeTableWord 24 0xA30207 = some (.setEnv .ch2 0xA3) ∧
    nextOf (step (base.withFetchWord 24 0xA30207)) = after (.setEnv .ch2 0xA3) base ∧
    nextOf (step (base.withFetchWord 16 0x0524)) = after .frameEvent base := by decide +kernel

/-! ## Witnesses: a state and operands that meet each statement's hypotheses together

`base` is legal, and so is each state below it is built into. A clause's boundary values stand in its own
conjunct. -/

/-- Three legal states: with an instance not yet recomputed, with a recomputed one, and `playing`. -/
theorem legal_before_recompute : (withOscs osc).Inv :=
  ⟨by decide +kernel, by decide +kernel, by decide +kernel, by decide +kernel, by decide +kernel⟩

@[inherit_doc legal_before_recompute] theorem legal_after_recompute : (withOscs osc.recompute).Inv :=
  ⟨by decide +kernel, by decide +kernel, by decide +kernel, by decide +kernel, by decide +kernel⟩

@[inherit_doc legal_before_recompute] theorem legal_playing : playing.Inv :=
  ⟨by decide +kernel, by decide +kernel, by decide +kernel, by decide +kernel, by decide +kernel⟩

/-- A host call of `seq.reset` on an idle block, and no call at all. -/
theorem witness_StepRunsTheDecodedCall :
    (∃ (s : State) (c : PendingCall) (rest : List PendingCall) (i : Instr),
      s.calls = c :: rest ∧ decodeCall c.bytes = .ok i ∧ (c.caller = .host → i.row ≤ 31) ∧
      (∀ a, agentOf i = some a → a ∉ c.busy)) ∧
    (∃ s : State, s.calls = []) :=
  ⟨⟨calling .host [] [16, 5], _, _, .seqReset, rfl, by decide, fun _ => by decide,
    fun _ _ => List.not_mem_nil⟩, base, rfl⟩

/-- A call of a channel without the capability, a host call of row 32 (the first internal one), and the row
numbers just outside the table. -/
theorem witness_UnknownOperationIsRefused :
    (∃ (s : State) (c : PendingCall) (rest : List PendingCall) (e : DecodeError),
      s.calls = c :: rest ∧ decodeCall c.bytes = .error e) ∧
    (∃ (s : State) (c : PendingCall) (rest : List PendingCall) (i : Instr),
      s.calls = c :: rest ∧ decodeCall c.bytes = .ok i ∧ c.caller = .host ∧ 32 ≤ i.row) ∧
    (∃ row : Byte, row.toNat = 0 ∨ 37 < row.toNat) ∧ (∃ row : Byte, row.toNat = 38) ∧
    (agentOf (.oscQuery 1 .spp) = some (.osc 1) ∧ (withOscs osc).oscs.length ≤ 1) :=
  ⟨⟨calling .host [] [7, 3, 0xF0], _, _, .noSuchTarget, rfl, by decide⟩,
    ⟨calling .host [] [32, 1, 4], _, _, .timerStep .ch1 4, rfl, by decide, rfl, by decide⟩,
    ⟨0, by decide⟩, ⟨38, by decide⟩, rfl, by decide⟩

/-- V-RF4, and a call on the Synth while only an Osc is busy. -/
theorem witness_OverlapIsRefused :
    (∃ (s : State) (c : PendingCall) (rest : List PendingCall) (i : Instr) (a : Agent),
      s.calls = c :: rest ∧ decodeCall c.bytes = .ok i ∧ (c.caller = .host → i.row ≤ 31) ∧
      agentOf i = some a ∧ a ∈ c.busy) ∧
    (∃ (s : State) (c : PendingCall) (rest : List PendingCall) (i : Instr),
      s.calls = c :: rest ∧ decodeCall c.bytes = .ok i ∧ ∀ a, agentOf i = some a → a ∉ c.busy) :=
  ⟨⟨calling .host [.synth] [1, 1, 5], _, _, .setFrequency .ch1 5, .synth, rfl, by decide,
      fun _ => by decide, rfl, by decide⟩,
    calling .host [.osc 0] [1, 1, 5], _, _, .setFrequency .ch1 5, rfl, by decide,
      fun a h => by cases h; decide⟩

theorem witness_WrongSizesAreBadShape :
    ∃ (k : Nat) (s : State) (o : Osc), s.oscs[k]? = some o := ⟨0, withOscs osc, osc, rfl⟩

/-- The smallest and a larger instance. -/
theorem witness_DecodeInvertsEncode :
    (Instr.oscNew 1 1 (1 / 3)).wellFormed = true ∧
    (Instr.fillStereo ⟨0, 300⟩ ⟨1, 300⟩ 300).wellFormed = true := by decide +kernel

/-- A legal state with an instance not yet recomputed, one with a recomputed one, and a step from each. -/
theorem witness_StepKeepsTheInvariant :
    (withOscs osc).Inv ∧ (withOscs osc.recompute).Inv ∧
    (∃ t, step (withOscs osc) = .next t) ∧
    (∃ t, step { withOscs osc.recompute with calls := [⟨.host, [], [27, 8, 0, 5]⟩] } = .next t) :=
  ⟨legal_before_recompute, legal_after_recompute, ⟨_, rfl⟩, _, rfl⟩

/-- An Osc waveform of L values on the last instance there is. -/
theorem witness_EveryOperationCompletes :
    ∃ (i : Instr) (s : State), i.wellFormed = true ∧
      (∀ k, agentOf i = some (.osc k) → k < s.oscs.length) ∧
      (∀ k w o, i = .oscSetWaveform k w → s.oscs[k]? = some o → w.length = o.l) := by
  refine ⟨.oscSetWaveform 0 (List.replicate 8 3), withOscs osc, rfl, ?_, ?_⟩
  · intro k h
    cases h
    decide
  · intro k w o h ho
    cases h
    cases ho
    decide

/-- Row 1, and row 30. -/
theorem witness_SettersAndReadsAreIdempotent :
    (withOscs osc).Inv ∧ (∃ t, exec (.setFrequency .ch1 5) (withOscs osc) = .next t) ∧
    (Instr.setFrequency .ch1 5).row ≤ 31 ∧ (Instr.setFrequency .ch1 5).row ∉ [20, 21, 22, 26, 31] ∧
    (∃ t, exec (.oscQuery 0 .spp) (withOscs osc) = .next t) ∧
    (Instr.oscQuery 0 .spp).row ≤ 31 ∧ (Instr.oscQuery 0 .spp).row ∉ [20, 21, 22, 26, 31] :=
  ⟨legal_before_recompute, ⟨_, rfl⟩, by decide, by decide, ⟨_, rfl⟩, by decide, by decide⟩

/-- A Synth operation beside an instance, and an operation of instance 0 beside instance 1. -/
theorem witness_AgentsAreIndependent :
    (∃ t, exec .synthStep (withOscs osc) = .next t) ∧ agentOf .synthStep ≠ some (.osc 0) ∧
    (∃ t, exec (.oscSetMuted 0 true) { base with oscs := [osc, osc] } = .next t) ∧
    agentOf (.oscSetMuted 0 true) ≠ some .synth ∧ agentOf (.oscSetMuted 0 true) ≠ some (.osc 1) ∧
    ({ base with oscs := [osc, osc] } : State).oscs[1]? = some osc :=
  ⟨⟨_, rfl⟩, by decide, ⟨_, rfl⟩, by decide, by decide, rfl⟩

/-- ch1 at frequency 0 (P = 8192): one cycle below P, and P itself. -/
theorem witness_TimerStepIsTheLoop :
    0 < period base.synth .ch1 ∧
    (base.synth.common .ch1).timer + 8191 < period base.synth .ch1 ∧
    period base.synth .ch1 ≤ (base.synth.common .ch1).timer + 8192 := by decide

/-- A legal state; one cycle short of the first rollover, and the first rollover. -/
theorem witness_TimerStepCountsRollovers :
    playing.synth.ok ∧
    ((playing.synth.common .ch1).timer + 8191) / period playing.synth .ch1 = 0 ∧
    0 < ((playing.synth.common .ch1).timer + 8192) / period playing.synth .ch1 := by decide +kernel

/-- Both maxima, and 0. -/
theorem witness_LengthExpiresAtTheNthTick :
    (63 ≤ if Chan.ch1 = .ch3 then 255 else 63) ∧ (255 ≤ if Chan.ch3 = .ch3 then 255 else 63) ∧
    (0 ≤ if Chan.ch4 = .ch3 then 255 else 63) ∧
    ∀ c, (base.synth.common c).continuous = false :=
  ⟨by decide, by decide, by decide, fun c => by cases c <;> rfl⟩

/-- All three operations, from a volume at its bound. -/
theorem witness_EnvelopeVolumeStaysBounded :
    (∀ i ∈ [Instr.envStep .ch1, .setEnv .ch1 0xF9, .reset .ch1],
      (∃ b, i = .setEnv .ch1 b) ∨ i = .reset EnvChan.ch1.toChan ∨ i = .envStep .ch1) ∧
    (playing.synth.env .ch1).volume ≤ 15 ∧ (playing.synth.env .ch1).initVolume ≤ 15 :=
  ⟨by simp [EnvChan.toChan], by decide, by decide⟩

/-- The lowest and the highest frequency. -/
theorem witness_DutyPatternRepeats :
    (base.synth.common PulseChan.ch1.toChan).freq ≤ 0x7FF ∧
    ((onCommon .ch2 fun x => { x with freq := 0x7FF }).synth.common PulseChan.ch2.toChan).freq
      ≤ 0x7FF := by decide

/-- V-SW10's subtraction from 2047; 1366, the least shadow that overflows with shift 1, at counter 1; a
disabled channel through an advance over a frame boundary, another channel's `reset()`, and a step. -/
theorem witness_SweepOverflowOnlyInAddition :
    ((sweeping 2047 1 .subtraction).synth.sweep.mode = .subtraction ∧
      (sweeping 2047 1 .subtraction).synth.sweep.shadow ≤ 0x7FF) ∧
    ((sweeping 1366 1 .addition).synth.sweep.mode = .addition ∧
      (sweeping 1366 1 .addition).synth.sweep.period ≠ 0 ∧
      (sweeping 1366 1 .addition).synth.sweep.counter ≤ 1 ∧
      0 < (sweeping 1366 1 .addition).synth.sweep.shift ∧
      0x7FF < (sweeping 1366 1 .addition).synth.sweep.shadow +
        (sweeping 1366 1 .addition).synth.sweep.shadow /
          2 ^ (sweeping 1366 1 .addition).synth.sweep.shift) ∧
    ((∃ t, exec (.advance 8192) base = .next t) ∧ Instr.advance 8192 ≠ .reset .ch1 ∧
      (∃ t, exec (.reset .ch2) base = .next t) ∧ Instr.reset .ch2 ≠ .reset .ch1 ∧
      (base.synth.common .ch1).enabled = false) ∧
    ((∃ t, step (calling .host [] [5, 2]) = .next t) ∧
      ((calling .host [] [5, 2]).synth.common .ch1).enabled = false ∧
      (∀ call rest, (calling .host [] [5, 2]).calls = call :: rest →
        decodeCall call.bytes ≠ .ok (.reset .ch1))) := by
  refine ⟨by decide, by decide, ⟨⟨_, rfl⟩, by decide, ⟨_, rfl⟩, by decide, rfl⟩, ⟨_, rfl⟩, rfl, ?_⟩
  intro call rest h
  cases h
  decide

theorem witness_SetWaveformFillsWave :
    (List.replicate 16 (0xA5 : Byte)).length = 16 ∧ Memory.wf base.synth.wave.waveRam ∧
    Memory.wf (onSynth fun s => s.setWave
      { s.wave with waveRam := [(0, 1), (15, 0xFF)] }).synth.wave.waveRam := by decide

theorem witness_SetOutputLevelShiftsTheOutput :
    ((onCommon .ch3 fun x => { x with enabled := true }).synth.common .ch3).enabled = true := by
  decide

theorem witness_WaveChannelPlaysItsNibbles :
    (base.synth.common .ch3).freq ≤ 0x7FF ∧
    ((onCommon .ch3 fun x => { x with freq := 0x7FF }).synth.common .ch3).freq ≤ 0x7FF := by decide

/-- The lowest and the highest bit. -/
theorem witness_LfsrShiftBitByBit : (0 < 15) ∧ (14 < 15) := by decide

theorem witness_NoiseChannelShiftsTheLfsr :
    base.synth.noise.drf ≤ 7 ∧
    (onSynth fun s => s.setNoise { s.noise with drf := 7 }).synth.noise.drf ≤ 7 := by decide

/-- Shift counts at both ends, and R283's locked register. -/
theorem witness_NoiseRepeatsAndLocksUp :
    (0 < 1 ∧ 1 < 32767) ∧ (0 < 32766 ∧ 32766 < 32767) ∧ (0x4000 : BitVec 15).toNat % 128 = 0 := by
  decide

/-- One cycle short of the boundary, the boundary, one past it; from a full frame and from its last cycle. -/
theorem witness_AdvanceStopsAtEachFrame :
    base.synth.seq.acc < 8192 ∧ (8191 < 8192 - base.synth.seq.acc ∧ 0 < 8191) ∧
    8192 = 8192 - base.synth.seq.acc ∧ 8192 - base.synth.seq.acc < 8193 ∧
    (onSynth fun s => { s with seq := ⟨7, 8191⟩ }).synth.seq.acc < 8192 ∧
    1 = 8192 - (onSynth fun s => { s with seq := ⟨7, 8191⟩ }).synth.seq.acc := by decide

theorem witness_AdvanceCountsFrameEvents :
    base.synth.seq.step < 8 ∧ base.synth.seq.acc < 8192 ∧
    (onSynth fun s => { s with seq := ⟨7, 8191⟩ }).synth.seq.step < 8 ∧
    (onSynth fun s => { s with seq := ⟨7, 8191⟩ }).synth.seq.acc < 8192 := by decide

theorem witness_AdvanceSplitsAnywhere : playing.synth.ok := by decide +kernel

/-- `playing` routes ch1 alone, enabled, at volume 7. -/
theorem witness_MixStaysInRange :
    (playing.synth.ok ∧ ∀ c, route playing.synth.mix.mask .left c = true →
      (playing.synth.common c).enabled = true) ∧
    (playing.synth.mix.termEnable.get .left = true ∧ playing.synth.mix.termVol.get .left = 7 ∧
      ∀ c', route playing.synth.mix.mask .left c' = decide (c' = .ch1)) :=
  ⟨⟨by decide +kernel, fun c => by cases c <;> decide⟩, by decide, by decide,
    fun c => by cases c <;> decide⟩

/-- The fraction at 0, and just below 1. -/
theorem witness_SynthStepAdvancesThenMixes :
    (0 ≤ base.synth.facc ∧ base.synth.facc < 1 ∧ 0 < base.params.sampleRate) ∧
    (0 ≤ (onSynth fun s => { s with facc := 99 / 100 }).synth.facc ∧
      (onSynth fun s => { s with facc := 99 / 100 }).synth.facc < 1) := by decide +kernel

theorem witness_StepsLoseNoCycle : playing.Inv := legal_playing

/-- Two buffers of exactly n elements (R101), and one buffer passed twice. -/
theorem witness_FillStereoIsRepeatedSteps :
    ((⟨1, 2⟩ : BufRef).size = 2 ∧ (⟨2, 2⟩ : BufRef).size = 2) ∧
    ((⟨1, 2⟩ : BufRef).size = 2 ∧ (⟨1, 2⟩ : BufRef).size = 2) ∧ (0 < 2 ∧ 1 < 2) := by decide

theorem witness_FillInterleavedIsRepeatedSteps :
    (⟨5, 4⟩ : BufRef).size = 2 * 2 ∧ (0 < 2 ∧ 1 < 2) := by decide

/-- An instance to query, and a legal Synth that is equal to itself. -/
theorem witness_QueriesShowTheWholeState :
    (withOscs osc).oscs[0]? = some osc ∧ playing.synth.ok ∧
    (∀ f, playing.synth.get f = playing.synth.get f) ∧ ∀ f, osc.get f = osc.get f :=
  ⟨rfl, by decide +kernel, fun _ => rfl, fun _ => rfl⟩

/-- Each input that is no positive number, and a positive one. -/
theorem witness_ToGbFreqRoundsHalfUp :
    (∃ q : ℚ, HostFloat.finite 0 = .finite q ∧ q ≤ 0) ∧ HostFloat.nan = .nan ∧
    HostFloat.posInf = .posInf ∧ HostFloat.negInf = .negInf ∧ (0 : ℚ) < 1 / 1000 :=
  ⟨⟨0, rfl, le_rfl⟩, rfl, rfl, rfl, by decide +kernel⟩

/-- The largest register value, the largest of R434's intervals, and the first frequency above them all. -/
theorem witness_ConversionsRoundTrip :
    (0x7FF ≤ 0x7FF ∧ returns (.fromGbFreq 0x7FF) base
      = some (.out (.floatOut 131072))) ∧
    0x7FE < 0x7FF ∧ (262144 : ℚ) ≤ 262144 := by decide +kernel

theorem witness_OscNewAddsAnInstance : (1 ≤ 1) ∧ (1 ≤ 1) ∧ (0 : ℚ) < 1 / 2 := by decide +kernel

/-- An instance there is, and a waveform of L values. -/
theorem witness_OscSettersWriteTheirFields :
    (withOscs osc).oscs[0]? = some osc ∧ (List.replicate 8 (-3 : ℤ)).length = osc.l := ⟨rfl, rfl⟩

/-- Before the first recompute, and after one, there muted. -/
theorem witness_EmptyBlockRecomputes :
    ((withOscs osc).oscs[0]? = some osc ∧ osc.ok ∧ osc.dirty = true ∧ (⟨1, 0⟩ : BufRef).size = 0) ∧
    (let o := { osc.recompute with freq := 1537, dirty := true, muted := true }
     (withOscs o).oscs[0]? = some o ∧ o.ok ∧ o.dirty = true) :=
  ⟨⟨rfl, by decide +kernel, rfl, rfl⟩, rfl, by decide +kernel, rfl⟩

/-- The last row and the taps beside the centre and at the end. -/
theorem witness_InjectedStepsSumExactly : (31 < 32) ∧ (6 < 15 ∧ 6 ≠ 7) ∧ (14 < 15 ∧ 14 ≠ 7) := by
  decide

/-- V-OS1's instance: its first transition occurs at 23 in a block of 17 and not in one of 16. -/
theorem witness_OccurrencesAreExact :
    0 < osc.recompute.spp ∧
    (23 : ℚ) ∈ osc.recompute.occurrences 17 ⟨16, -15, 15, 0⟩ ∧
    (23 : ℚ) ∉ osc.recompute.occurrences 16 ⟨16, -15, 15, 0⟩ ∧ (7 : ℚ) ≤ 7 := by decide +kernel

theorem witness_WorkingBufferSumsTheTaps : 0 < osc.recompute.spp ∧ 33 < 20 + 14 := by
  decide +kernel

theorem witness_GenerateWritesOneBlock :
    (withOscs osc).oscs[0]? = some osc ∧ osc.ok ∧ (⟨1, 20⟩ : BufRef).size = 20 ∧ 19 < 20 :=
  ⟨rfl, by decide +kernel, by decide, by decide⟩

theorem witness_BlocksJoinWithoutASeam : osc.ok ∧ osc.recompute.ok := by decide +kernel

end Sys2Proof.Tests
end

/-! PROOFS. 10_state.md: construction meets the machine's invariant (O7), every step keeps it (O8), and no run
of envelope operations takes the volume out of its range (O24).

The Synth's part of the invariant is restated register by register (`Synth.Legal`), so that each register
write has one rule and each operation is a composition of those rules. -/

namespace Sys2Proof.Machine

/-! ## Repetition, fields and frames -/

/-- A predicate that `f` preserves is preserved by `f` applied `n` times. -/
theorem repeated_induction {α : Type} {P : α → Prop} {f : α → α} (hf : ∀ x, P x → P (f x)) (n : Nat)
    {x : α} (hx : P x) : P (repeated f n x) := by
  induction n generalizing x with
  | zero => exact hx
  | succ n ih => exact ih (hf x hx)

theorem bitField_le (b : Byte) (hi lo : Nat) : bitField b hi lo ≤ 2 ^ (hi + 1 - lo) - 1 :=
  Nat.le_sub_one_of_lt (bitField_lt b hi lo)

theorem wf_putStereo {m : HostMem} (left right j : Nat) (l r : OutVal) (hm : HostMem.wf m) :
    HostMem.wf (putStereo left right j l r m) :=
  HostMem.wf_write (HostMem.wf_write hm left j l) right j r

theorem wf_putInterleaved {m : HostMem} (buf j : Nat) (l r : OutVal) (hm : HostMem.wf m) :
    HostMem.wf (putInterleaved buf j l r m) :=
  HostMem.wf_write (HostMem.wf_write hm buf (2 * j) l) buf (2 * j + 1) r

/-! ## The Synth's ranges, register by register -/

/-- The ranges of the common fields of channel `c` (R22, R150, R157). -/
def Common.legal (c : Chan) (x : Common) : Prop := x.ok (lengthMax c) ∧ (c ≠ .ch3 → x.twoLevel)

/-- `Synth.ok`, in terms of the register reads. -/
structure Synth.Legal (s : Synth) : Prop where
  common : ∀ c, (s.common c).legal c
  env : ∀ e, (s.env e).ok
  pulse : ∀ p, (s.pulse p).ok
  sweep : s.sweep.ok
  wave : s.wave.ok
  noise : s.noise.ok
  seq : s.seq.step < 8 ∧ s.seq.acc < 8192
  mix : ∀ t, s.mix.termVol.get t ≤ 7
  facc : 0 ≤ s.facc ∧ s.facc < 1

theorem Synth.ok_iff_legal (s : Synth) : s.ok ↔ s.Legal := by
  constructor
  · rintro ⟨⟨c1, r1, e1, p1, sw⟩, ⟨c2, r2, e2, p2⟩, ⟨c3, w3⟩, ⟨c4, r4, e4, n4⟩, q, ⟨ml, mr⟩, f⟩
    refine ⟨fun c => ?_, fun e => ?_, fun p => ?_, sw, w3, n4, q, fun t => ?_, f⟩
    · cases c
      exacts [⟨c1, fun _ => r1⟩, ⟨c2, fun _ => r2⟩, ⟨c3, fun h => absurd rfl h⟩, ⟨c4, fun _ => r4⟩]
    · cases e
      exacts [e1, e2, e4]
    · cases p
      exacts [p1, p2]
    · cases t
      exacts [ml, mr]
  · intro h
    obtain ⟨c1, r1⟩ := h.common .ch1
    obtain ⟨c2, r2⟩ := h.common .ch2
    obtain ⟨c4, r4⟩ := h.common .ch4
    exact ⟨⟨c1, r1 nofun, h.env .ch1, h.pulse .ch1, h.sweep⟩, ⟨c2, r2 nofun, h.env .ch2, h.pulse .ch2⟩,
      ⟨(h.common .ch3).1, h.wave⟩, ⟨c4, r4 nofun, h.env .ch4, h.noise⟩, h.seq,
      ⟨h.mix .left, h.mix .right⟩, h.facc⟩

/-! ## One rule per register write -/

section RegisterWrites

variable {s : Synth} (h : s.Legal)
include h

theorem Synth.Legal.setCommon {c : Chan} {x : Common} (hx : x.legal c) : (s.setCommon c x).Legal := by
  have hc : ∀ c', ((s.setCommon c x).common c').legal c' := fun c' => by
    rw [common_setCommon]
    split_ifs with e
    exacts [e ▸ hx, h.common c']
  cases c <;> exact { h with common := hc }

theorem Synth.Legal.setEnv {e : EnvChan} {x : Envelope} (hx : x.ok) : (s.setEnv e x).Legal := by
  have he : ∀ e', ((s.setEnv e x).env e').ok := fun e' => by
    rw [env_setEnv]
    split_ifs
    exacts [hx, h.env e']
  cases e <;> exact { h with env := he }

theorem Synth.Legal.setPulse {p : PulseChan} {x : Pulse} (hx : x.ok) : (s.setPulse p x).Legal := by
  have hp : ∀ p', ((s.setPulse p x).pulse p').ok := fun p' => by
    rw [pulse_setPulse]
    split_ifs
    exacts [hx, h.pulse p']
  cases p <;> exact { h with pulse := hp }

theorem Synth.Legal.setSweep {x : Sweep} (hx : x.ok) : (s.setSweep x).Legal := { h with sweep := hx }

theorem Synth.Legal.setWave {x : Wave} (hx : x.ok) : (s.setWave x).Legal := { h with wave := hx }

theorem Synth.Legal.setNoise {x : Noise} (hx : x.ok) : (s.setNoise x).Legal := { h with noise := hx }

theorem Synth.Legal.withSeq {x : Sequencer} (hx : x.step < 8 ∧ x.acc < 8192) :
    Synth.Legal { s with seq := x } := { h with seq := hx }

theorem Synth.Legal.withMix {x : Mixer} (hx : ∀ t, x.termVol.get t ≤ 7) :
    Synth.Legal { s with mix := x } := { h with mix := hx }

theorem Synth.Legal.withFacc {x : ℚ} (hx : 0 ≤ x ∧ x < 1) : Synth.Legal { s with facc := x } :=
  { h with facc := hx }

/-- SAMPLE_MIN or SAMPLE_MAX is a legal raw sample on every channel. -/
theorem Synth.Legal.setRaw_twoLevel (c : Chan) {r : Nat} (hr : r = 0 ∨ r = 15) : (s.setRaw c r).Legal := by
  obtain ⟨⟨hf, hl, -⟩, -⟩ := h.common c
  exact h.setCommon ⟨⟨hf, hl, by simp only; omega⟩, fun _ => hr⟩

/-- On ch3 every nibble is a legal raw sample. -/
theorem Synth.Legal.setRaw_nibble {r : Nat} (hr : r ≤ 15) : (s.setRaw .ch3 r).Legal := by
  obtain ⟨⟨hf, hl, -⟩, -⟩ := h.common .ch3
  exact h.setCommon ⟨⟨hf, hl, hr⟩, fun hc => absurd rfl hc⟩

/-! ## Flags, ticks and resets -/

theorem Synth.Legal.disableChan (c : Chan) : (disableChan c s).Legal := h.setCommon (h.common c)

theorem Synth.Legal.enableChan (c : Chan) : (enableChan c s).Legal := h.setCommon (h.common c)

theorem Synth.Legal.lengthTick (c : Chan) : (lengthTick c s).Legal := by
  obtain ⟨-, e⟩ | ⟨-, -, e⟩ := lengthTick_cases c s <;> rw [e]
  · exact h
  · obtain ⟨⟨hf, hl, hr⟩, h2⟩ := h.common c
    exact h.setCommon ⟨⟨hf, (Nat.sub_le _ 1).trans hl, hr⟩, h2⟩

theorem Synth.Legal.envTick (e : EnvChan) : (envTick e s).Legal := h.setEnv (envelope_tick_ok (h.env e))

theorem Synth.Legal.envReset (e : EnvChan) : (envReset e s).Legal := by
  obtain ⟨hi, -, hp, -⟩ := h.env e
  exact h.setEnv ⟨hi, hi, hp, hp⟩

theorem Synth.Legal.sweepReset : (sweepReset s).Legal := by
  obtain ⟨hs, hp, -, -⟩ := h.sweep
  obtain ⟨⟨hf, -⟩, -⟩ := h.common .ch1
  exact h.setSweep ⟨hs, hp, hf, hp⟩

theorem Synth.Legal.sweepCommit {n : Nat} (hn : n ≤ 0x7FF) : (sweepCommit n s).Legal := by
  obtain ⟨hs, hp, -, hc⟩ := h.sweep
  obtain ⟨⟨-, hl, hr⟩, h2⟩ := h.common .ch1
  have hsweep : Sweep.ok { s.sweep with shadow := n } := ⟨hs, hp, hn, hc⟩
  have hcommon : Common.legal .ch1 { s.common .ch1 with freq := n } := ⟨⟨hn, hl, hr⟩, h2⟩
  exact (h.setSweep hsweep).setCommon hcommon

/-- The event commits only what its first check has found in range (R205). -/
theorem Synth.Legal.sweepEvent (dc : Bool) : (sweepEvent dc s).Legal := by
  obtain ⟨-, e⟩ | ⟨-, -, e⟩ | ⟨hn, -, e⟩ := sweepEvent_cases dc s <;> rw [e]
  · exact h.disableChan .ch1
  · exact h
  · have hc := h.sweepCommit hn
    exact iteInduction (fun _ => hc.disableChan .ch1) fun _ => hc

theorem Synth.Legal.sweepTick (dc : Bool) : (sweepTick dc s).Legal := by
  obtain ⟨hs, hp, hf, hc⟩ := h.sweep
  obtain ⟨-, e⟩ | ⟨-, -, e⟩ | ⟨-, -, e⟩ := sweepTick_cases dc s <;> rw [e]
  · exact h
  · exact h.setSweep ⟨hs, hp, hf, (Nat.sub_le _ 1).trans hc⟩
  · have hreload : Sweep.ok { s.sweep with counter := s.sweep.period } := ⟨hs, hp, hf, hp⟩
    exact (h.setSweep hreload).sweepEvent dc

theorem Synth.Legal.pulseReset (p : PulseChan) : (pulseReset p s).Legal :=
  (h.setPulse (Nat.zero_lt_succ 7)).setRaw_twoLevel _ (dutySample_two _ _)

theorem Synth.Legal.waveReset : (waveReset s).Legal :=
  (h.setWave (x := { s.wave with position := 0 }) ⟨Nat.zero_lt_succ 31, h.wave.2⟩).setRaw_nibble
    (nibble_le _ _)

theorem Synth.Legal.noiseReset : (noiseReset s).Legal :=
  (h.setNoise (x := { s.noise with lfsr := 0x7FFF }) h.noise).setRaw_twoLevel .ch4 (Or.inl rfl)

theorem Synth.Legal.resetChan (c : Chan) : (resetChan c s).Legal := by
  have he := h.enableChan c
  cases c with
  | ch1 => exact ((he.envReset .ch1).sweepReset).pulseReset .ch1
  | ch2 => exact (he.envReset .ch2).pulseReset .ch2
  | ch3 => exact he.waveReset
  | ch4 => exact (he.envReset .ch4).noiseReset

/-! ## Timers -/

theorem Synth.Legal.rollover (c : Chan) : (rollover c s).Legal := by
  have pulse : ∀ p, (pulseRollover p s).Legal := fun p =>
    (h.setPulse (Nat.mod_lt _ (Nat.zero_lt_succ 7))).setRaw_twoLevel _ (dutySample_two _ _)
  cases c with
  | ch1 => exact pulse .ch1
  | ch2 => exact pulse .ch2
  | ch3 =>
    have hwave : Wave.ok { s.wave with position := (s.wave.position + 1) % 32 } :=
      ⟨Nat.mod_lt _ (Nat.zero_lt_succ 31), h.wave.2⟩
    exact (h.setWave hwave).setRaw_nibble (nibble_le _ _)
  | ch4 =>
    have hnoise : Noise.ok { s.noise with lfsr := lfsrShift s.noise.stepSel s.noise.lfsr } := h.noise
    exact (h.setNoise hnoise).setRaw_twoLevel .ch4 (noiseSample_two _)

theorem Synth.Legal.stepTimer (c : Chan) (k : Nat) : (stepTimer c k s).Legal :=
  repeated_induction (fun _ hx => hx.rollover c) _ (h.setCommon (h.common c))

theorem Synth.Legal.stepTimers (k : Nat) : (stepTimers k s).Legal :=
  (((h.stepTimer .ch1 k).stepTimer .ch2 k).stepTimer .ch3 k).stepTimer .ch4 k

/-! ## The sequencer and the cycle advance -/

theorem Synth.Legal.lengthTicks : (lengthTicks s).Legal :=
  (((h.lengthTick .ch1).lengthTick .ch2).lengthTick .ch3).lengthTick .ch4

theorem Synth.Legal.envTicks : (envTicks s).Legal := ((h.envTick .ch1).envTick .ch2).envTick .ch4

theorem Synth.Legal.frameEvent (dc : Bool) (n : Nat) : (frameEvent dc n s).Legal := by
  have hl : (if n ∈ [0, 2, 4, 6] then Machine.lengthTicks s else s).Legal :=
    iteInduction (fun _ => h.lengthTicks) fun _ => h
  have hs := iteInduction (c := n ∈ [2, 6]) (motive := Synth.Legal) (fun _ => hl.sweepTick dc) fun _ => hl
  exact iteInduction (fun _ => hs.envTicks) fun _ => hs

omit h in
/-- The boundary clears the cycle count first, so a full count before it does no harm. -/
theorem legal_frameBoundary (dc : Bool) (h : Synth.Legal { s with seq := { s.seq with acc := 0 } }) :
    (frameBoundary dc s).Legal := by
  have he := h.frameEvent dc s.seq.step
  exact he.withSeq ⟨Nat.mod_lt _ (Nat.zero_lt_succ 7), he.seq.2⟩

theorem Synth.Legal.advancePiece (dc : Bool) {k : Nat} (hk : s.seq.acc + k ≤ 8192) :
    (advancePiece dc k s).Legal := by
  have ht := h.stepTimers k
  refine iteInduction (fun _ => legal_frameBoundary dc ?_) fun hne => ?_
  · exact ht.withSeq ⟨ht.seq.1, Nat.zero_lt_succ _⟩
  · refine ht.withSeq ⟨ht.seq.1, ?_⟩
    simp only [seq_stepTimers, Config.framePeriod] at hne ⊢
    omega

theorem Synth.Legal.advanceLoop (dc : Bool) (fuel n : Nat) : (advanceLoop dc fuel n s).Legal := by
  induction fuel generalizing n s with
  | zero => exact h
  | succ fuel ih =>
    have hk : s.seq.acc + min n (Config.framePeriod - s.seq.acc) ≤ 8192 := by
      have := h.seq.2
      simp only [Config.framePeriod]
      omega
    exact iteInduction (fun _ => h) fun _ => ih (h.advancePiece dc hk) _

theorem Synth.Legal.advanceCycles (dc : Bool) (n : Nat) : (advanceCycles dc n s).Legal :=
  h.advanceLoop dc n n

/-! ## The Synth facade -/

/-- The kept fraction stays in [0, 1), for the cycles taken are the floor (R351). -/
theorem Synth.Legal.synthAfterStep {p : Params} (hp : 0 < p.sampleRate) : (synthAfterStep p s).Legal := by
  have hx : 0 ≤ s.facc + cyclesPerSample p :=
    add_nonneg h.facc.1 (div_nonneg (Nat.cast_nonneg _) hp.le)
  have hn : sampleCycles p s = ⌊s.facc + cyclesPerSample p⌋₊ := Int.floor_toNat _
  refine (h.withFacc ?_).advanceCycles _ _
  rw [hn]
  exact ⟨sub_nonneg.2 (Nat.floor_le hx), sub_lt_iff_lt_add'.2 (Nat.lt_floor_add_one _)⟩

/-- A fill keeps both the Synth and the HOST buffers, if each frame it writes keeps the buffers. -/
theorem Synth.Legal.fillLoop {p : Params} (hp : 0 < p.sampleRate)
    {put : Nat → OutVal → OutVal → HostMem → HostMem}
    (hput : ∀ j l r m, HostMem.wf m → HostMem.wf (put j l r m)) (n j : Nat) {m : HostMem}
    (hm : HostMem.wf m) :
    (fillLoop p put n j s m).1.Legal ∧ HostMem.wf (fillLoop p put n j s m).2 := by
  induction n generalizing j s m with
  | zero => exact ⟨h, hm⟩
  | succ n ih => exact ih (h.synthAfterStep hp) (j + 1) (hput _ _ _ _ hm)

end RegisterWrites

/-! ## The oscillator -/

theorem Osc.newSpd_pos {o : Osc} (h : 1 ≤ o.m ∧ 1 ≤ o.l ∧ 0 < o.r ∧ o.freq ≤ 0x7FF) : 0 < o.newSpd := by
  obtain ⟨hm, -, hr, hf⟩ := h
  have hf' : (0 : ℚ) < 2048 - o.freq := sub_pos.2 (by exact_mod_cast Nat.lt_succ_of_le hf)
  have hm' : (0 : ℚ) < o.m := by exact_mod_cast hm
  have hc : (0 : ℚ) < (Config.clock : ℚ) := by norm_num [Config.clock]
  exact div_pos (mul_pos (mul_pos hf' hm') hr) hc

theorem Osc.newSpp_pos {o : Osc} (h : 1 ≤ o.m ∧ 1 ≤ o.l ∧ 0 < o.r ∧ o.freq ≤ 0x7FF) : 0 < o.newSpp := by
  have ⟨_, hl, _⟩ := h
  exact mul_pos (newSpd_pos h) (by exact_mod_cast hl)

/-- A listed transition stands at one of the waveform's steps and is a change (R388). -/
theorem mem_deltasFrom {spd : ℚ} {prev : ℤ} {i : Nat} {ws : List ℤ} {d : Delta}
    (hd : d ∈ deltasFrom spd prev i ws) :
    ∃ j < i + ws.length, d.location = j * spd ∧ d.change = d.after - d.before ∧ d.change ≠ 0 := by
  induction ws generalizing prev i with
  | nil => simp [deltasFrom] at hd
  | cons w ws ih =>
    rw [deltasFrom, List.mem_append] at hd
    rcases hd with hd | hd
    · unfold deltaAt at hd
      split_ifs at hd with hw
      · obtain rfl := List.mem_singleton.1 hd
        exact ⟨i, by simp, rfl, rfl, sub_ne_zero.2 hw⟩
      · cases hd
    · obtain ⟨j, hj, hrest⟩ := ih hd
      exact ⟨j, by simp only [List.length_cons]; omega, hrest⟩

theorem waveDeltas_ok {spd : ℚ} (hspd : 0 < spd) {wave : List ℤ} {d : Delta} (hd : d ∈ waveDeltas spd wave) :
    d.ok (spd * wave.length) := by
  obtain ⟨j, hj, hloc, hchange⟩ := mem_deltasFrom hd
  have hj' : (j : ℚ) < wave.length := by exact_mod_cast (Nat.zero_add _ ▸ hj)
  rw [Delta.ok, hloc, mul_comm]
  exact ⟨by positivity, mul_lt_mul_of_pos_left hj' hspd, hchange⟩

theorem Osc.construction_ok {m l : Nat} {r : ℚ} (h : 1 ≤ m ∧ 1 ≤ l ∧ 0 < r) : (construction m l r).ok := by
  obtain ⟨hm, hl, hr⟩ := h
  exact ⟨⟨hm, hl, hr, Nat.zero_le _⟩, ⟨List.length_replicate, rfl⟩, Or.inl ⟨rfl, rfl, rfl, rfl⟩, nofun⟩

/-- Another frequency and another waveform of L values, with a recompute due. -/
theorem Osc.ok_dirty {o : Osc} (h : o.ok) {f : Nat} (hf : f ≤ 0x7FF) {w : List ℤ} (hw : w.length = o.l) :
    Osc.ok { o with freq := f, wave := w, dirty := true } := by
  obtain ⟨⟨hm, hl, hr, -⟩, ⟨-, hlo⟩, hstate, -⟩ := h
  exact ⟨⟨hm, hl, hr, hf⟩, ⟨hw, hlo⟩, hstate.imp_left fun ⟨_, hfresh⟩ => ⟨rfl, hfresh⟩, nofun⟩

/-- The phase keeps its fraction of a period, so it stays inside the new one (R387). -/
theorem Osc.newPhase_range {o : Osc} (h : o.ok) : 0 ≤ o.newPhase ∧ o.newPhase < o.newSpp := by
  obtain ⟨hargs, -, hstate, -⟩ := h
  have hspp := newSpp_pos hargs
  unfold newPhase
  rcases hstate with ⟨-, h0, -, -⟩ | ⟨hpos, hp0, hp, -⟩
  · rw [if_neg h0.not_gt]
    exact ⟨le_rfl, hspp⟩
  · rw [if_pos hpos, div_lt_iff₀ hpos, mul_comm]
    exact ⟨by positivity, mul_lt_mul_of_pos_left hp hspp⟩

theorem Osc.recompute_ok {o : Osc} (h : o.ok) : o.recompute.ok := by
  obtain ⟨hp0, hp⟩ := newPhase_range h
  obtain ⟨hargs, hlen, -, -⟩ := h
  have hdeltas : ∀ d ∈ waveDeltas o.newSpd o.wave, d.ok o.newSpp := fun d hd => by
    simpa only [newSpp, hlen.1] using waveDeltas_ok (newSpd_pos hargs) hd
  exact ⟨hargs, hlen, Or.inr ⟨newSpp_pos hargs, hp0, hp, hdeltas⟩, fun _ => ⟨rfl, rfl, rfl⟩⟩

theorem Osc.refresh_ok {o : Osc} (h : o.ok) : o.refresh.ok :=
  iteInduction (fun _ => recompute_ok h) fun _ => h

/-- Samples generated: another seed, another leftover of 14 elements, and the phase moved on. -/
theorem Osc.ok_phaseAfter {o : Osc} (h : o.ok) (hclean : o.dirty = false) {sd : ℚ} {lo : List ℚ}
    (hlo : lo.length = 14) (n : Nat) :
    Osc.ok { o with seed := sd, leftover := lo, phase := o.phaseAfter n } := by
  obtain ⟨hargs, ⟨hw, -⟩, hstate, hcur⟩ := h
  obtain ⟨hpos, -, -, hd⟩ := hstate.resolve_left fun hfresh => by simp [hclean] at hfresh
  obtain ⟨hp0, hp⟩ := ratMod_range (x := o.phase + n) hpos
  exact ⟨hargs, ⟨hw, hlo⟩, Or.inr ⟨hpos, hp0, hp, hd⟩, hcur⟩

theorem Osc.afterGenerate_ok {o : Osc} (h : o.ok) (t : SincTable) (n : Nat) : (o.afterGenerate t n).ok := by
  have hr := refresh_ok h
  have ⟨_, ⟨_, hlo⟩, _⟩ := hr
  have hmuted : (if 0 < n then List.replicate 14 0 else o.refresh.leftover).length = 14 :=
    iteInduction (motive := fun lo : List ℚ => lo.length = 14) (fun _ => List.length_replicate)
      fun _ => hlo
  exact iteInduction (fun _ => ok_phaseAfter hr (dirty_refresh o) hmuted n)
    fun _ => ok_phaseAfter hr (dirty_refresh o) (by simp) n

/-! ## The whole state -/

/-- If the outcome is a next state, it is a legal one. -/
def LegalOutcome (x : Host.Outcome State Fault Refusal) : Prop := ∀ t, x = .next t → t.Inv

theorem legalOutcome_next {t : State} (h : t.Inv) : LegalOutcome (.next t) := fun _ e => by
  cases e
  exact h

theorem legalOutcome_refused (r : Refusal) : LegalOutcome (.refused r) := fun _ e => by
  cases e

section Outcomes

variable {s : State} (hs : s.Inv)
include hs

theorem legalOutcome_giveBack (v : Returned) : LegalOutcome (.next (s.giveBack v)) := legalOutcome_next hs

theorem inv_setSynth {x : Synth} (hx : x.Legal) : (s.setSynth x).Inv := by
  obtain ⟨-, hrest⟩ := hs
  exact ⟨x.ok_iff_legal.2 hx, hrest⟩

theorem legalOutcome_setSynth {x : Synth} (hx : x.Legal) : LegalOutcome (.next (s.setSynth x)) :=
  legalOutcome_next (inv_setSynth hs hx)

theorem inv_setOsc (k : Nat) {o : Osc} (ho : o.ok) : (s.setOsc k o).Inv := by
  obtain ⟨hsynth, hoscs, hrest⟩ := hs
  refine ⟨hsynth, fun o' ho' => ?_, hrest⟩
  rcases List.mem_or_eq_of_mem_set ho' with hmem | rfl
  exacts [hoscs o' hmem, ho]

/-- An operation of an oscillator is legal if it is on every legal one. -/
theorem legalOutcome_withOsc (k : Nat) {f : Osc → Host.Outcome State Fault Refusal}
    (hf : ∀ o, o.ok → LegalOutcome (f o)) : LegalOutcome (withOsc s k f) := fun t ht => by
  obtain ⟨-, hoscs, -⟩ := hs
  obtain ⟨o, ho, hnext⟩ := withOsc_next ht
  exact hf o (hoscs o (List.mem_of_getElem? ho)) t hnext

theorem legalOutcome_execOscNew (m l : Nat) (r : ℚ) : LegalOutcome (execOscNew m l r s) := by
  refine iteInduction (fun hargs => legalOutcome_next ?_) fun _ => legalOutcome_refused _
  obtain ⟨hsynth, hoscs, hrest⟩ := hs
  refine ⟨hsynth, fun o ho => ?_, hrest⟩
  rcases List.mem_append.1 ho with hmem | hmem
  · exact hoscs o hmem
  · obtain rfl := List.mem_singleton.1 hmem
    exact Osc.construction_ok hargs

theorem legalOutcome_execGenerate (k : Nat) (buf : BufRef) (n : Nat) :
    LegalOutcome (execGenerate k buf n s) := by
  refine legalOutcome_withOsc hs k fun o ho =>
    iteInduction (fun _ => legalOutcome_next ?_) fun _ => legalOutcome_refused _
  obtain ⟨hsynth, hoscs, hhost, hparams⟩ := inv_setOsc hs k (Osc.afterGenerate_ok ho s.params.sinc n)
  exact ⟨hsynth, hoscs, HostMem.wf_writeFrom hhost _ _ _, hparams⟩

/-- What both fills leave: the Synth and the HOST buffers of the loop. -/
theorem legalOutcome_fillLoop {put : Nat → OutVal → OutVal → HostMem → HostMem}
    (hput : ∀ j l r m, HostMem.wf m → HostMem.wf (put j l r m)) (n : Nat) :
    LegalOutcome (.next { s with
      synth := (fillLoop s.params put n 0 s.synth s.host).1
      host := (fillLoop s.params put n 0 s.synth s.host).2
      returned := .nothing }) := by
  obtain ⟨hsynth, hoscs, hhost, hground, hrate⟩ := hs
  obtain ⟨hx, hm⟩ := (s.synth.ok_iff_legal.1 hsynth).fillLoop hrate hput n 0 hhost
  exact legalOutcome_next ⟨(Synth.ok_iff_legal _).2 hx, hoscs, hm, hground, hrate⟩

end Outcomes

theorem envOfByte_ok (b : Byte) : (envOfByte b).ok :=
  ⟨bitField_le b 7 4, bitField_le b 7 4, bitField_le b 2 0, bitField_le b 2 0⟩

/-- Every operation answers a legal state from a legal one, if it answers one. -/
theorem legalOutcome_exec {s : State} (hs : s.Inv) (i : Instr) : LegalOutcome (exec i s) := by
  have ⟨hsynth, _, _, _, hrate⟩ := hs
  have h : s.synth.Legal := s.synth.ok_iff_legal.1 hsynth
  cases i with
  | setFrequency c v =>
    obtain ⟨⟨-, hrest⟩, h2⟩ := h.common c
    exact legalOutcome_setSynth hs (h.setCommon ⟨⟨min_le_right _ _, hrest⟩, h2⟩)
  | setLength c n =>
    obtain ⟨⟨hf, -, hr⟩, h2⟩ := h.common c
    exact legalOutcome_setSynth hs (h.setCommon ⟨⟨hf, min_le_right _ _, hr⟩, h2⟩)
  | setContinuousOutput c on => exact legalOutcome_setSynth hs (h.setCommon (h.common c))
  | disable c => exact legalOutcome_setSynth hs (h.disableChan c)
  | reset c => exact legalOutcome_setSynth hs (h.resetChan c)
  | getCurrentVolume c => exact legalOutcome_giveBack hs _
  | setEnv c b => exact legalOutcome_setSynth hs (h.setEnv (envOfByte_ok b))
  | setDuty c d => exact legalOutcome_setSynth hs (h.setPulse (h.pulse c))
  | setSweep b =>
    obtain ⟨-, -, hshadow, hcounter⟩ := h.sweep
    exact legalOutcome_setSynth hs
      (h.setSweep ⟨bitField_le b 2 0, bitField_le b 6 4, hshadow, hcounter⟩)
  | setWaveform w =>
    obtain ⟨hpos, hram⟩ := h.wave
    exact iteInduction
      (fun hw => legalOutcome_setSynth hs
        (h.setWave ⟨hpos, Memory.wf_writeFrom hram ((Nat.zero_add _).trans hw).le⟩))
      fun _ => legalOutcome_refused _
  | setOutputLevel l => exact legalOutcome_setSynth hs (h.setWave h.wave)
  | setNoise b =>
    exact legalOutcome_setSynth hs (h.setNoise ⟨min_le_right _ _, bitField_le b 2 0⟩)
  | setScf n => exact legalOutcome_setSynth hs (h.setNoise ⟨min_le_right _ _, h.noise.2⟩)
  | setDrf n => exact legalOutcome_setSynth hs (h.setNoise ⟨h.noise.1, min_le_right _ _⟩)
  | setStepSelection m => exact legalOutcome_setSynth hs (h.setNoise h.noise)
  | seqReset =>
    exact legalOutcome_setSynth hs (h.withSeq ⟨Nat.zero_lt_succ _, Nat.zero_lt_succ _⟩)
  | mixSetEnable b => exact legalOutcome_setSynth hs (h.withMix h.mix)
  | setTerminalEnable t e => exact legalOutcome_setSynth hs (h.withMix h.mix)
  | setTerminalVolume t v =>
    refine legalOutcome_setSynth hs (h.withMix fun t' => ?_)
    rw [PerTerm.get_set]
    split_ifs
    exacts [min_le_right _ _, h.mix t']
  | synthStep =>
    obtain ⟨-, hrest⟩ := hs
    exact legalOutcome_next ⟨(Synth.ok_iff_legal _).2 (h.synthAfterStep hrate), hrest⟩
  | fillStereo left right n =>
    exact iteInduction (fun _ => legalOutcome_fillLoop hs (fun _ _ _ _ => wf_putStereo _ _ _ _ _) n)
      fun _ => legalOutcome_refused _
  | fillInterleaved buf n =>
    exact iteInduction (fun _ => legalOutcome_fillLoop hs (fun _ _ _ _ => wf_putInterleaved _ _ _ _) n)
      fun _ => legalOutcome_refused _
  | synthQuery f => exact legalOutcome_giveBack hs _
  | fromGbFreq reg => exact legalOutcome_giveBack hs _
  | toGbFreq hz => exact legalOutcome_giveBack hs _
  | oscNew m l r => exact legalOutcome_execOscNew hs m l r
  | oscSetFrequency k v =>
    refine legalOutcome_withOsc hs k fun o ho => legalOutcome_next (inv_setOsc hs k ?_)
    have ⟨_, ⟨hw, _⟩, _⟩ := ho
    exact Osc.ok_dirty ho (min_le_right _ _) hw
  | oscSetWaveform k w =>
    refine legalOutcome_withOsc hs k fun o ho => iteInduction
      (fun hw => legalOutcome_next (inv_setOsc hs k ?_)) fun _ => legalOutcome_refused _
    have ⟨⟨_, _, _, hf⟩, _⟩ := ho
    exact Osc.ok_dirty ho hf hw
  | oscSetMuted k m =>
    exact legalOutcome_withOsc hs k fun o ho => legalOutcome_next (inv_setOsc hs k ho)
  | oscQuery k f => exact legalOutcome_withOsc hs k fun o _ => legalOutcome_giveBack hs _
  | generate k buf n => exact legalOutcome_execGenerate hs k buf n
  | timerStep c k => exact legalOutcome_giveBack (inv_setSynth hs (h.stepTimer c k)) _
  | lengthStep c => exact legalOutcome_setSynth hs (h.lengthTick c)
  | envStep c => exact legalOutcome_setSynth hs (h.envTick c)
  | sweepStep => exact legalOutcome_setSynth hs (h.sweepTick _)
  | frameEvent => exact legalOutcome_setSynth hs (h.frameEvent _ _)
  | advance n => exact legalOutcome_setSynth hs (h.advanceCycles _ n)

/-- Settles O8: a step is idle, refused, or an operation, and every operation keeps the invariant. -/
theorem stepKeepsTheInvariant : Obligations.StepKeepsTheInvariant := by
  intro s t hs ht
  unfold step at ht
  split at ht
  next =>
    cases ht
    exact hs
  next c rest _ =>
    split at ht
    next i _ => exact legalOutcome_exec (s := afterFetch s rest) hs i t ht
    next => cases ht

/-- Settles O7: the fields by evaluation, the open parameters by their types. -/
theorem resetStateIsLegal : Obligations.ResetStateIsLegal := by
  have hrate : 0 < Config.sampleRate :=
    div_pos (Nat.cast_pos.2 Config.sampleRateNum.pos) (Nat.cast_pos.2 Config.sampleRateDen.pos)
  have hsynth : Synth.construction.ok := by decide
  exact ⟨hsynth, nofun, ⟨List.Pairwise.nil, nofun⟩, Config.groundUnit.ne_zero, hrate⟩

/-! ## The envelope volume -/

/-- The volumes of an envelope unit are in range (R26). -/
def Envelope.Bounded (e : Envelope) : Prop := e.volume ≤ 15 ∧ e.initVolume ≤ 15

theorem Envelope.Bounded.tick {e : Envelope} (h : e.Bounded) : e.tick.Bounded := by
  obtain ⟨hv, hi⟩ := h
  obtain ⟨-, he⟩ | ⟨-, -, he⟩ | ⟨-, -, he⟩ := envelope_tick_cases e <;> rw [he]
  exacts [⟨hv, hi⟩, ⟨hv, hi⟩, ⟨volumeStep_le hv _, hi⟩]

/-- The reset of a channel with an envelope reloads the envelope from its own fields (R183). -/
theorem env_resetChan (c : EnvChan) (s : Synth) :
    (resetChan c.toChan s).env c =
      { s.env c with volume := (s.env c).initVolume, counter := (s.env c).period } := by
  cases c <;> rfl

/-- Each of the three envelope operations answers a next state and keeps the volumes in range. -/
theorem exec_keeps_envelope_bounded {c : EnvChan} {i : Instr} {s : State}
    (hi : (∃ b, i = .setEnv c b) ∨ i = .reset c.toChan ∨ i = .envStep c) (h : (s.synth.env c).Bounded) :
    ∃ t, exec i s = .next t ∧ (t.synth.env c).Bounded := by
  obtain ⟨b, rfl⟩ | rfl | rfl := hi
  · refine ⟨_, rfl, ?_⟩
    rw [synth_setSynth, env_setEnv, if_pos rfl]
    exact ⟨bitField_le b 7 4, bitField_le b 7 4⟩
  · refine ⟨_, rfl, ?_⟩
    rw [synth_setSynth, env_resetChan]
    exact ⟨h.2, h.2⟩
  · refine ⟨_, rfl, ?_⟩
    rw [synth_setSynth, envTick, env_setEnv, if_pos rfl]
    exact h.tick

/-- Settles O24, by induction on the list of operations, with the initial volume bounded too. -/
theorem envelopeVolumeStaysBounded : Obligations.EnvelopeVolumeStaysBounded := by
  intro c ops s hops hv hi
  have h : (s.synth.env c).Bounded := ⟨hv, hi⟩
  clear hv hi
  induction ops generalizing s with
  | nil => exact ⟨s, rfl, h.1⟩
  | cons i ops ih =>
    obtain ⟨t, ht, hb⟩ := exec_keeps_envelope_bounded (hops i List.mem_cons_self) h
    obtain ⟨u, hu, hvol⟩ := ih t (fun j hj => hops j (List.mem_cons_of_mem i hj)) hb
    exact ⟨u, by rw [runAll, ht]; exact hu, hvol⟩

end Sys2Proof.Machine


/-! PROOFS. 20_memory.md: the operations of R86 are idempotent (O10), and the five calls with a size are
refused with BadShape exactly where the size is wrong (O4). -/

namespace Sys2Proof.Machine

/-! ## A write made twice -/

/-- Writing WAVE twice from the same bytes is writing it once: a byte in range reads back as written, any
other as before, and the canonical form has no second way to say so. -/
theorem Memory.writeFrom_writeFrom {m : List Host.Cell} (hm : Memory.wf m) {i : Nat} {w : List Byte}
    (h : i + w.length ≤ 16) :
    Memory.writeFrom (Memory.writeFrom m i w) i w = Memory.writeFrom m i w := by
  have hw := Memory.wf_writeFrom hm h
  refine Memory.ext (Memory.wf_writeFrom hw h) hw fun j => ?_
  rw [Memory.read_writeFrom hw h, Memory.read_writeFrom hm h]
  split_ifs <;> rfl

/-- A channel's reset reloads its transient fields from fields that it does not change (R481). -/
theorem resetChan_resetChan (c : Chan) (s : Synth) : resetChan c (resetChan c s) = resetChan c s := by
  cases c <;>
    simp [resetChan, enableChan, envReset, sweepReset, pulseReset, waveReset, noiseReset, Synth.setRaw,
      Synth.setCommon, Synth.setEnv, Synth.setPulse, Synth.setSweep, Synth.setWave, Synth.setNoise,
      Synth.common, Synth.env, Synth.pulse, Synth.sweep, Synth.wave, Synth.noise, PulseChan.toChan]

@[simp] theorem setOsc_setOsc (s : State) (k : Nat) (o o' : Osc) :
    (s.setOsc k o).setOsc k o' = s.setOsc k o' := by
  simp [State.setOsc, List.set_set]

/-- An operation of the instance that has just been written meets what was written. -/
theorem withOsc_setOsc {s : State} {k : Nat} {o : Osc} (h : s.oscs[k]? = some o) (o' : Osc)
    (f : Osc → Host.Outcome State Fault Refusal) : withOsc (s.setOsc k o') k f = f o' := by
  refine withOsc_some ?_ f
  obtain ⟨hk, -⟩ := List.getElem?_eq_some_iff.1 h
  exact List.getElem?_set_self hk

/-! ## Idempotence (R86) -/

/-- If the operation answers a next state from `s`, then from that state it answers the same again. -/
def IdempotentFrom (s : State) (i : Instr) : Prop := ∀ t, exec i s = .next t → exec i t = .next t

section Idempotence

variable {s : State} {i : Instr}

/-- A Synth operation is idempotent where the Synth it leaves is, to it, the one it would leave again. -/
theorem idempotent_of_setSynth {f : State → Synth} (hexec : ∀ s, exec i s = .next (s.setSynth (f s)))
    (hf : f (s.setSynth (f s)) = f s) : IdempotentFrom s i := by
  intro t ht
  rw [hexec] at ht ⊢
  cases ht
  rw [hf]
  rfl

/-- A read is idempotent: its value does not depend on the one returned before. -/
theorem idempotent_of_giveBack {v : State → Returned}
    (hexec : ∀ s, exec i s = .next (s.giveBack (v s))) (hv : ∀ r, v (s.giveBack r) = v s) :
    IdempotentFrom s i := by
  intro t ht
  rw [hexec] at ht ⊢
  cases ht
  rw [hv]
  rfl

/-- An Osc setter is idempotent where its effect on the instance is. -/
theorem idempotent_of_setOsc {k : Nat} {f : Osc → Osc}
    (hexec : ∀ s, exec i s = withOsc s k fun o => .next (s.setOsc k (f o))) (hf : ∀ o, f (f o) = f o) :
    IdempotentFrom s i := by
  intro t ht
  rw [hexec] at ht ⊢
  obtain ⟨o, ho, ht⟩ := withOsc_next ht
  cases ht
  rw [withOsc_setOsc ho, hf, setOsc_setOsc]

end Idempotence

theorem idempotent_oscQuery (s : State) (k : Nat) (f : OscField) : IdempotentFrom s (.oscQuery k f) := by
  intro t ht
  obtain ⟨o, ho, ht⟩ := withOsc_next ht
  cases ht
  exact withOsc_some (s := s.giveBack (o.get f)) ho _

/-- The length asked for does not change, so the second call passes the same check. -/
theorem idempotent_oscSetWaveform (s : State) (k : Nat) (w : List ℤ) :
    IdempotentFrom s (.oscSetWaveform k w) := by
  intro t ht
  obtain ⟨o, ho, ht⟩ := withOsc_next ht
  by_cases hw : w.length = o.l
  · rw [if_pos hw] at ht
    cases ht
    refine (withOsc_setOsc ho _ _).trans ((if_pos hw).trans ?_)
    rw [setOsc_setOsc]
  · rw [if_neg hw] at ht
    cases ht

theorem idempotent_setWaveform {s : State} (hram : Memory.wf s.synth.wave.waveRam) (w : List Byte) :
    IdempotentFrom s (.setWaveform w) := by
  by_cases hw : w.length = 16
  · have htwice := Memory.writeFrom_writeFrom hram ((Nat.zero_add _).trans hw).le
    refine idempotent_of_setSynth (fun _ => if_pos hw) ?_
    simp only [synth_setSynth, wave_setWave, htwice]
    rfl
  · intro t ht
    have hrefused : exec (.setWaveform w) s = .refused .badShape := if_neg hw
    rw [hrefused] at ht
    cases ht

/-- Settles O10: a setter writes values that do not depend on what it overwrites, `reset()` reloads from
fields that it keeps, and a read changes only the returned value; WAVE needs its canonical form. -/
theorem settersAndReadsAreIdempotent : Obligations.SettersAndReadsAreIdempotent := by
  intro i s t hs hhost hrow ht
  refine (?_ : IdempotentFrom s i) t ht
  cases i with
  | setFrequency c | setLength c | setContinuousOutput c | disable c | setDuty c | setTerminalEnable c
  | setTerminalVolume c =>
    exact idempotent_of_setSynth (fun _ => rfl) (by cases c <;> rfl)
  | reset c => exact idempotent_of_setSynth (fun _ => rfl) (resetChan_resetChan c s.synth)
  | setEnv c b => exact idempotent_of_setSynth (fun _ => rfl) (setEnv_setEnv s.synth c _ _)
  | setWaveform w =>
    obtain ⟨hsynth, -⟩ := hs
    have ⟨_, hram⟩ := (s.synth.ok_iff_legal.1 hsynth).wave
    exact idempotent_setWaveform hram w
  | setSweep | setOutputLevel | setNoise | setScf | setDrf | setStepSelection | seqReset | mixSetEnable =>
    exact idempotent_of_setSynth (fun _ => rfl) rfl
  | getCurrentVolume | synthQuery | fromGbFreq | toGbFreq =>
    exact idempotent_of_giveBack (fun _ => rfl) fun _ => rfl
  | oscSetFrequency | oscSetMuted => exact idempotent_of_setOsc (fun _ => rfl) fun _ => rfl
  | oscSetWaveform k w => exact idempotent_oscSetWaveform s k w
  | oscQuery k f => exact idempotent_oscQuery s k f
  | synthStep | fillStereo | fillInterleaved | oscNew | generate =>
    exact absurd hrow (by simp [Instr.row])
  | timerStep | lengthStep | envStep | sweepStep | frameEvent | advance =>
    exact absurd hhost (by simp [Instr.row])

/-! ## Wrong sizes (R85, R101, R454) -/

/-- A call that runs under a guard, and is refused without it, is refused exactly where the guard fails. -/
theorem guarded_eq_refused_iff {p : Prop} [Decidable p] {t : State} {r : Refusal} :
    (if p then .next t else .refused r : Host.Outcome State Fault Refusal) = .refused r ↔ ¬p :=
  Ne.ite_eq_right_iff nofun

/-- Settles O4: each of the five calls is guarded by its size alone, the Osc ones on the instance there is. -/
theorem wrongSizesAreBadShape : Obligations.WrongSizesAreBadShape := by
  refine ⟨fun w s => ?setWaveform, fun k w s o ho => ?oscSetWaveform, fun left right n s => ?fillStereo,
    fun buf n s => ?fillInterleaved, fun k buf n s o ho => ?generate⟩
  case setWaveform => exact guarded_eq_refused_iff
  case oscSetWaveform => exact (Eq.congr_left (withOsc_some ho _)).trans guarded_eq_refused_iff
  case fillStereo => exact guarded_eq_refused_iff.trans not_and_or
  case fillInterleaved => exact guarded_eq_refused_iff
  case generate => exact (Eq.congr_left (withOsc_some ho _)).trans guarded_eq_refused_iff

end Sys2Proof.Machine


/-! PROOFS. 30_encoding.md: decoding the byte image of a well-formed operation gives it back (O6), a step runs
the decoded call and is idle without one (O1), and eight calls written out byte by byte (O5). -/

namespace Sys2Proof

/-! ## Code tables -/

/-- A code byte reads back through a table that has every value at its code. -/
theorem takeCode_code {α : Type} {ofCode : Nat → Option α} {code : α → Byte}
    (h : ∀ x, ofCode (code x).toNat = some x) (x : α) (rest : List Byte) :
    takeCode ofCode (code x :: rest) = some (x, rest) := by
  simp [takeCode, h]

@[simp] theorem takeCode_boolCode (b : Bool) (rest : List Byte) :
    takeCode boolOfCode (boolCode b :: rest) = some (b, rest) :=
  takeCode_code (fun b => by cases b <;> rfl) b rest

@[simp] theorem takeCode_dutyCode (d : Duty) (rest : List Byte) :
    takeCode dutyOfCode (d.code :: rest) = some (d, rest) :=
  takeCode_code (fun d => by cases d <;> rfl) d rest

@[simp] theorem takeCode_levelCode (l : Level) (rest : List Byte) :
    takeCode levelOfCode (l.code :: rest) = some (l, rest) :=
  takeCode_code (fun l => by cases l <;> rfl) l rest

@[simp] theorem takeCode_stepSelCode (m : StepSel) (rest : List Byte) :
    takeCode stepSelOfCode (m.code :: rest) = some (m, rest) :=
  takeCode_code (fun m => by cases m <;> rfl) m rest

@[simp] theorem takeCode_termCode (t : Term) (rest : List Byte) :
    takeCode termOfCode (t.code :: rest) = some (t, rest) :=
  takeCode_code (fun t => by cases t <;> rfl) t rest

@[simp] theorem takeCode_oscFieldCode (f : OscField) (rest : List Byte) :
    takeCode oscFieldOfCode (f.code :: rest) = some (f, rest) :=
  takeCode_code (fun f => by cases f <;> rfl) f rest

/-! ## Rows -/

/-- Each row, on its operation's target, reads the operation's arguments back (R101, R113). -/
theorem decodeRow_argBytes (i : Instr) (hi : i.wellFormed = true) (rest : List Byte) :
    decodeRow i.row i.target (i.argBytes ++ rest) = .ok (i, rest) := by
  cases i with
  | setFrequency | setLength | setContinuousOutput | disable | reset | getCurrentVolume =>
    simp [Instr.row, Instr.target, Instr.argBytes, decodeRow, decodeChannelRow, onChan_ok]
  | setEnv | setDuty =>
    simp [Instr.row, Instr.target, Instr.argBytes, decodeRow, decodeChannelRow, onCapable_ok]
  | setSweep | setOutputLevel | setNoise | setScf | setDrf | setStepSelection =>
    simp [Instr.row, Instr.target, Instr.argBytes, decodeRow, decodeChannelRow, onOnly_ok]
  | setWaveform w =>
    have hw : takeList takeByte (listBytes (fun b => [b]) w ++ rest) = some (w, rest) :=
      takeList_listBytes (fun _ _ => rfl) w rest
    simp [Instr.row, Instr.target, Instr.argBytes, decodeRow, decodeChannelRow, onOnly_ok, hw]
  | seqReset | mixSetEnable | setTerminalEnable | setTerminalVolume | synthStep | fillStereo
  | fillInterleaved | synthQuery | fromGbFreq | toGbFreq =>
    simp [Instr.row, Instr.target, Instr.argBytes, decodeRow, decodeSynthRow, onOnly_ok]
  | oscSetFrequency | oscSetMuted | oscQuery | generate =>
    simp [Instr.row, Instr.target, Instr.argBytes, decodeRow, decodeOscRow, onOnly_ok]
  | oscSetWaveform k w =>
    have hw := takeList_listBytes takeInt_intBytes w rest
    simp [Instr.row, Instr.target, Instr.argBytes, decodeRow, decodeOscRow, onOnly_ok, hw]
  | oscNew m l r =>
    simp only [Instr.wellFormed, Bool.and_eq_true, decide_eq_true_eq] at hi
    obtain ⟨⟨hm, hl⟩, hr⟩ := hi
    simp [Instr.row, Instr.target, Instr.argBytes, decodeRow, decodeOscRow, onOnly_ok,
      takePos_natBytes hm, takePos_natBytes hl, takePosRat_posRatBytes hr]
  | timerStep | lengthStep =>
    simp [Instr.row, Instr.target, Instr.argBytes, decodeRow, decodeInternalRow, onChan_ok]
  | envStep =>
    simp [Instr.row, Instr.target, Instr.argBytes, decodeRow, decodeInternalRow, onCapable_ok]
  | sweepStep | frameEvent | advance =>
    simp [Instr.row, Instr.target, Instr.argBytes, decodeRow, decodeInternalRow, onOnly_ok]

/-! ## Whole calls -/

theorem row_le (i : Instr) : i.row ≤ 37 := by
  cases i <;> simp [Instr.row]

/-- The image of an operation, whatever follows it, decodes to the operation and what follows. -/
theorem decodeOp_encode {i : Instr} (hi : i.wellFormed = true) (rest : List Byte) :
    decodeOp (encode i ++ rest) = .ok (i, rest) := by
  have hrow : (BitVec.ofNat 8 i.row).toNat = i.row := toNat_ofNat_byte ((row_le i).trans_lt (by decide))
  simp [encode, decodeOp, hrow, decodeRow_argBytes i hi]

/-- Settles O6: the row and target bytes select the operation's row, which reads its arguments back. -/
theorem decodeInvertsEncode : Obligations.DecodeInvertsEncode := by
  intro i hi
  have happend := decodeOp_encode hi
  have hcall : decodeOp (encode i) = .ok (i, []) := by simpa using happend []
  exact ⟨by simp [decodeCall, hcall], happend⟩

/-- Settles O5: the decoder is executable and the eight images are closed. -/
theorem sampleCallsDecode : Obligations.SampleCallsDecode := by
  unfold Obligations.SampleCallsDecode
  decide

end Sys2Proof

namespace Sys2Proof.Machine

/-! ## The call boundary -/

theorem isInternal_iff (i : Instr) : isInternal i = true ↔ 32 ≤ i.row := decide_eq_true_iff

/-- A call overlaps where the agent its operation acts on is busy (R455). -/
theorem overlaps_iff (c : PendingCall) (i : Instr) :
    overlaps c i = true ↔ ∃ a, agentOf i = some a ∧ a ∈ c.busy := by
  cases h : agentOf i <;> simp [overlaps, h]

/-- A call that decodes is admitted where neither refusal of the boundary applies (R455, R456). -/
theorem admission_of_decoded {c : PendingCall} {i : Instr} (hi : decodeCall c.bytes = .ok i)
    (hcaller : c.caller = .host → i.row ≤ 31) (hbusy : ∀ a, agentOf i = some a → a ∉ c.busy) :
    admission c = .ok i := by
  have hrow : ¬(c.caller = .host ∧ isInternal i = true) := by
    rintro ⟨hhost, hint⟩
    have := hcaller hhost
    rw [isInternal_iff] at hint
    omega
  have hidle : ¬overlaps c i = true := by
    rw [overlaps_iff]
    rintro ⟨a, ha, hmem⟩
    exact hbusy a ha hmem
  simp only [admission, hi, if_neg hrow, if_neg hidle]

/-- An admitted call runs in the state whose call list has lost it. -/
theorem step_of_admitted {s : State} {c : PendingCall} {rest : List PendingCall} {i : Instr}
    (hcalls : s.calls = c :: rest) (hadm : admission c = .ok i) :
    step s = exec i (afterFetch s rest) := by
  simp only [step, hcalls, hadm]

/-- With no call pending the state is frozen (R465). -/
theorem step_of_no_call {s : State} (h : s.calls = []) : step s = .next s := by
  simp only [step, h, idle]

/-- Settles O1: the two hypotheses about the call are the two conditions of its admission. -/
theorem stepRunsTheDecodedCall : Obligations.StepRunsTheDecodedCall :=
  ⟨fun _ _ _ _ hcalls hi hcaller hbusy =>
    step_of_admitted hcalls (admission_of_decoded hi hcaller hbusy), fun _ => step_of_no_call⟩

end Sys2Proof.Machine


/-! PROOFS. 40_channel_common.md: the channel setters (O12 to O15), the channel reset (O16), the output read
(O17), the timer advance (O18, O19) and the length unit (O20, O21).

`Synth.SameBut fs s t` says that the Synth field reads outside `fs` agree. Each register write and each
channel operation has one lemma that names the fields it may change. -/

namespace Sys2Proof.Machine

/-! ## Which field reads a register write leaves -/

/-- Of the Synth's fields only `fs` may read otherwise in `t` than in `s`. -/
def Synth.SameBut (fs : List SynthField) (s t : Synth) : Prop := ∀ f, f ∉ fs → t.get f = s.get f

theorem Synth.SameBut.refl (fs : List SynthField) (s : Synth) : SameBut fs s s := fun _ _ => rfl

theorem Synth.SameBut.mono {fs gs : List SynthField} {s t : Synth} (h : SameBut fs s t) (hsub : fs ⊆ gs) :
    SameBut gs s t := fun f hf => h f fun hmem => hf (hsub hmem)

/-- A change of `fs`, then one of some of the same fields. -/
theorem Synth.SameBut.andThen {fs gs : List SynthField} {s t u : Synth} (h : SameBut fs s t)
    (h' : SameBut gs t u) (hsub : gs ⊆ fs) : SameBut fs s u :=
  fun f hf => (h'.mono hsub f hf).trans (h f hf)

/-- A Synth operation changes of the whole state what it changes of the Synth. -/
theorem changesOnly_setSynth {fs : List SynthField} {s : State} {x : Synth}
    (h : Synth.SameBut fs s.synth x) : s.changesOnly fs (s.setSynth x) :=
  ⟨h, ⟨rfl, rfl, rfl, rfl⟩, rfl⟩

@[simp] theorem get_setCommon_self (s : Synth) (c : Chan) (x : Common) (g : CommonField) :
    (s.setCommon c x).get (.common c g) = x.get g := by simp [Synth.get]

/-! The hypothesis of the next three, that the written record reads as before outside `fs`, is found by cases
over its fields where `fs` is a list of names. -/

section RegisterFrames

open Synth (SameBut)

variable {fs : List SynthField} (s : Synth)

theorem sameBut_setCommon {c : Chan} {x : Common}
    (h : ∀ g, .common c g ∉ fs → x.get g = (s.common c).get g := by
      intro g; cases g <;> simp [Common.get]) :
    SameBut fs s (s.setCommon c x) := by
  intro f hf
  cases f with
  | common c' g =>
    by_cases hc : c' = c
    · subst hc
      simpa [Synth.get] using h g hf
    · simp [Synth.get, hc]
  | _ => simp [Synth.get]

theorem sameBut_setEnv {e : EnvChan} {x : Envelope}
    (h : ∀ g, .env e g ∉ fs → x.get g = (s.env e).get g := by
      intro g; cases g <;> simp [Envelope.get]) :
    SameBut fs s (s.setEnv e x) := by
  intro f hf
  cases f with
  | env e' g =>
    by_cases he : e' = e
    · subst he
      simpa [Synth.get] using h g hf
    · simp [Synth.get, he]
  | _ => simp [Synth.get]

theorem sameBut_setSweep {x : Sweep}
    (h : ∀ g, .sweep g ∉ fs → x.get g = s.sweep.get g := by
      intro g; cases g <;> simp [Sweep.get]) :
    SameBut fs s (s.setSweep x) := by
  intro f hf
  cases f with
  | sweep g => exact h g hf
  | _ => simp [Synth.get]

theorem sameBut_setDutyIndex (p : PulseChan) (i : Nat) :
    SameBut [.dutyIndex p] s (s.setPulse p { s.pulse p with dutyIndex := i }) := by
  intro f hf
  cases f with
  | duty p' => by_cases hp : p' = p <;> simp [Synth.get, hp]
  | dutyIndex p' =>
    have hp : p' ≠ p := by simpa using hf
    simp [Synth.get, hp]
  | _ => simp [Synth.get]

theorem sameBut_setPosition (p : Nat) :
    SameBut [.position] s (s.setWave { s.wave with position := p }) := by
  intro f hf
  cases f with
  | position => simp at hf
  | _ => simp [Synth.get]

theorem sameBut_setLfsr (x : BitVec 15) :
    SameBut [.lfsr] s (s.setNoise { s.noise with lfsr := x }) := by
  intro f hf
  cases f with
  | lfsr => simp at hf
  | _ => simp [Synth.get]

theorem sameBut_setRaw (c : Chan) (r : Nat) : SameBut [.common c .raw] s (s.setRaw c r) :=
  sameBut_setCommon s

theorem sameBut_setTimer (c : Chan) (t : Nat) :
    SameBut [.common c .timer] s (s.setCommon c { s.common c with timer := t }) :=
  sameBut_setCommon s

theorem sameBut_disableChan (c : Chan) : SameBut [.common c .enabled] s (disableChan c s) :=
  sameBut_setCommon s

theorem sameBut_enableChan (c : Chan) :
    SameBut [.common c .enabled, .common c .timer] s (enableChan c s) :=
  sameBut_setCommon s

theorem sameBut_envReset (e : EnvChan) : SameBut [.env e .volume, .env e .counter] s (envReset e s) :=
  sameBut_setEnv s

theorem sameBut_sweepReset : SameBut [.sweep .shadow, .sweep .counter] s (sweepReset s) :=
  sameBut_setSweep s

theorem sameBut_lengthTick (c : Chan) :
    SameBut [.common c .length, .common c .enabled] s (lengthTick c s) := by
  obtain ⟨-, h⟩ | ⟨-, -, h⟩ := lengthTick_cases c s <;> rw [h]
  · exact SameBut.refl _ s
  · exact sameBut_setCommon s

/-- A position moved and a raw sample written, which is what both a rollover and a reset end with. -/
theorem Synth.SameBut.thenRaw {s t : Synth} {f : SynthField} (h : SameBut [f] s t) (c : Chan) (r : Nat) :
    SameBut [f, .common c .raw] s (t.setRaw c r) :=
  (h.mono (by simp)).andThen (sameBut_setRaw t c r) (by simp)

/-- A rollover moves only its channel's raw sample and position (R146). -/
theorem sameBut_rollover (c : Chan) : SameBut (timedFields c) s (rollover c s) := by
  cases c with
  | ch1 => exact ((sameBut_setDutyIndex s .ch1 _).thenRaw .ch1 _).mono (by decide)
  | ch2 => exact ((sameBut_setDutyIndex s .ch2 _).thenRaw .ch2 _).mono (by decide)
  | ch3 => exact ((sameBut_setPosition s _).thenRaw .ch3 _).mono (by decide)
  | ch4 => exact ((sameBut_setLfsr s _).thenRaw .ch4 _).mono (by decide)

theorem sameBut_stepTimer (c : Chan) (k : Nat) : SameBut (timedFields c) s (stepTimer c k s) := by
  have htimer : .common c .timer ∈ timedFields c := by cases c <;> decide
  exact repeated_induction (fun x hx => hx.andThen (sameBut_rollover x c) (List.Subset.refl _)) _
    ((sameBut_setTimer s c _).mono (by simpa using htimer))

/-- Every part of a channel's reset writes transient fields alone (R481, R482). -/
theorem sameBut_resetChan (c : Chan) : SameBut (transientFields c) s (resetChan c s) := by
  have hsub : [.common c .enabled, .common c .timer] ⊆ transientFields c := by cases c <;> decide
  have henable := (sameBut_enableChan s c).mono hsub
  cases c with
  | ch1 =>
    have henv := henable.andThen (sameBut_envReset _ .ch1) (by decide)
    have hsweep := henv.andThen (sameBut_sweepReset _) (by decide)
    exact hsweep.andThen ((sameBut_setDutyIndex _ .ch1 _).thenRaw .ch1 _) (by decide)
  | ch2 =>
    have henv := henable.andThen (sameBut_envReset _ .ch2) (by decide)
    exact henv.andThen ((sameBut_setDutyIndex _ .ch2 _).thenRaw .ch2 _) (by decide)
  | ch3 => exact henable.andThen ((sameBut_setPosition _ _).thenRaw .ch3 _) (by decide)
  | ch4 =>
    have henv := henable.andThen (sameBut_envReset _ .ch4) (by decide)
    exact henv.andThen ((sameBut_setLfsr _ _).thenRaw .ch4 _) (by decide)

end RegisterFrames

/-! ## The samples -/

/-- The sample at a channel's present duty index, position or LFSR. -/
def currentSample (s : Synth) : Chan → Nat
  | .ch1 => dutySample s.ch1.pulse.duty s.ch1.pulse.dutyIndex
  | .ch2 => dutySample s.ch2.pulse.duty s.ch2.pulse.dutyIndex
  | .ch3 => nibble s.ch3.wave.waveRam s.ch3.wave.position
  | .ch4 => noiseSample s.ch4.noise.lfsr

theorem currentSample_toChan (s : Synth) (p : PulseChan) :
    currentSample s p.toChan = dutySample (s.pulse p).duty (s.pulse p).dutyIndex := by
  cases p <;> rfl

/-- The table of R191 holds 0 and 1 alone. -/
theorem dutyRow_getD_le (d : Duty) (i : Nat) : (dutyRow d).getD i 0 ≤ 1 := by
  rcases lt_or_ge i 8 with hi | hi
  · revert i
    cases d <;> decide
  · have hlen : (dutyRow d).length ≤ i := by cases d <;> exact hi
    rw [List.getD_eq_default _ _ hlen]
    exact Nat.zero_le 1

theorem dutySample_eq (d : Duty) (i : Nat) : dutySample d i = 15 * (dutyRow d).getD i 0 := by
  have := dutyRow_getD_le d i
  simp only [dutySample, Config.sampleMax, Config.sampleMin]
  split_ifs <;> omega

/-- The high half of a byte. -/
theorem bitField_seven_four (b : Byte) : bitField b 7 4 = b.toNat / 16 := by
  have := b.isLt
  simp only [bitField]
  omega

theorem bitField_three_zero (b : Byte) : bitField b 3 0 = b.toNat % 16 := by simp [bitField]

theorem nibble_eq (m : List Host.Cell) (p : Nat) :
    nibble m p = if p % 2 = 0 then (Memory.read m (p / 2)).toNat / 16
      else (Memory.read m (p / 2)).toNat % 16 := by
  simp only [nibble, bitField_seven_four, bitField_three_zero, shiftRight, pow_one]

theorem noiseSample_eq (x : BitVec 15) : noiseSample x = if x.getLsbD 0 then 0 else 15 := by
  have hbit : x &&& 1 = _ := BitVec.and_one_eq_setWidth_ofBool_getLsbD
  rw [noiseSample, hbit]
  cases x.getLsbD 0 <;> rfl

/-! ## Rollovers counted -/

/-- A counter that `f` moves on by one modulo `m` is moved on by `n` when `f` is applied `n` times. -/
theorem repeated_counts {α : Type} {f : α → α} {g : α → Nat} {m : Nat}
    (hf : ∀ x, g (f x) = (g x + 1) % m) (n : Nat) {x : α} (hx : g x < m) :
    g (repeated f n x) = (g x + n) % m := by
  induction n with
  | zero => exact (Nat.mod_eq_of_lt hx).symm
  | succ n ih => rw [repeated_succ', hf, ih, Nat.mod_add_mod, Nat.add_assoc]

/-- The raw sample a rollover latches is that of the place it has moved to (R193, R250, R279). -/
theorem raw_rollover (c : Chan) (s : Synth) :
    ((rollover c s).common c).raw = currentSample (rollover c s) c := by
  cases c <;> rfl

theorem pulse_rollover (p : PulseChan) (s : Synth) :
    (rollover p.toChan s).pulse p =
      { s.pulse p with dutyIndex := ((s.pulse p).dutyIndex + 1) % 8 } := by
  cases p <;> rfl

theorem noise_rollover (s : Synth) :
    (rollover .ch4 s).noise =
      { s.noise with lfsr := lfsrShift s.noise.stepSel s.noise.lfsr } := rfl

/-- With no rollover the raw sample stays. -/
theorem raw_stepTimer_of_zero {c : Chan} {k : Nat} {s : Synth}
    (h : ((s.common c).timer + k) / period s c = 0) :
    ((stepTimer c k s).common c).raw = (s.common c).raw := by
  simp [stepTimer, h]

/-- With at least one rollover the raw sample is that of the place reached. -/
theorem raw_stepTimer_of_pos {c : Chan} {k : Nat} {s : Synth}
    (h : 0 < ((s.common c).timer + k) / period s c) :
    ((stepTimer c k s).common c).raw = currentSample (stepTimer c k s) c := by
  obtain ⟨n, hn⟩ := Nat.exists_eq_succ_of_ne_zero h.ne'
  simp only [stepTimer, hn, Nat.succ_eq_add_one, repeated_succ', raw_rollover]

theorem duty_stepTimer (p : PulseChan) (k : Nat) (s : Synth) :
    ((stepTimer p.toChan k s).pulse p).duty = (s.pulse p).duty :=
  stepTimer_keeps (fun x => (x.pulse p).duty) _ (fun x => by simp only [pulse_rollover])
    (fun x y => by simp) k s

theorem dutyIndex_stepTimer {p : PulseChan} {s : Synth} (h : (s.pulse p).dutyIndex < 8) (k : Nat) :
    ((stepTimer p.toChan k s).pulse p).dutyIndex =
      ((s.pulse p).dutyIndex + ((s.common p.toChan).timer + k) / period s p.toChan) % 8 := by
  have hstep : ∀ x, ((rollover p.toChan x).pulse p).dutyIndex = ((x.pulse p).dutyIndex + 1) % 8 :=
    fun x => by rw [pulse_rollover]
  exact (repeated_counts (f := rollover p.toChan) (g := fun x => (x.pulse p).dutyIndex) hstep _
    (by simpa using h)).trans (by simp)

theorem waveRam_stepTimer (k : Nat) (s : Synth) :
    (stepTimer .ch3 k s).wave.waveRam = s.wave.waveRam :=
  stepTimer_keeps (fun x => x.wave.waveRam) .ch3 (fun _ => rfl) (fun _ _ => rfl) k s

theorem position_stepTimer {s : Synth} (h : s.wave.position < 32) (k : Nat) :
    (stepTimer .ch3 k s).wave.position =
      (s.wave.position + ((s.common .ch3).timer + k) / period s .ch3) % 32 :=
  repeated_counts (f := rollover .ch3) (g := fun x => x.wave.position) (fun _ => rfl) _ h

theorem lfsr_repeated_rollover (n : Nat) (s : Synth) :
    (repeated (rollover .ch4) n s).noise.lfsr =
      repeated (lfsrShift s.noise.stepSel) n s.noise.lfsr := by
  have hsel := repeated_keeps (rollover .ch4) (fun x => x.noise.stepSel) (fun _ => rfl)
  induction n with
  | zero => rfl
  | succ n ih => simp only [repeated_succ', noise_rollover, hsel, ih]

/-! ## The channel reset -/

/-- The seed of R280 sounds as SAMPLE_MIN. -/
theorem noiseSample_seed : noiseSample 0x7FFF = Config.sampleMin := by decide

theorem common_resetChan (c : Chan) (s : Synth) :
    (resetChan c s).common c =
      { s.common c with enabled := true, timer := 0, raw := currentSample (resetChan c s) c } := by
  cases c with
  | ch4 => exact congrArg (Common.mk _ _ _ _ _) noiseSample_seed.symm
  | _ => rfl

theorem pulse_resetChan (p : PulseChan) (s : Synth) :
    (resetChan p.toChan s).pulse p = { s.pulse p with dutyIndex := 0 } := by
  cases p <;> rfl

/-! ## The length unit -/

theorem lengthMax_eq (c : Chan) : lengthMax c = if c = .ch3 then 255 else 63 := by cases c <;> rfl

theorem lengthTick_of_continuous {c : Chan} {s : Synth} (h : (s.common c).continuous = true) :
    lengthTick c s = s := by simp [lengthTick, h]

/-- An ungated tick, at length 0 too, where neither field moves. -/
theorem common_lengthTick {c : Chan} {s : Synth} (h : (s.common c).continuous = false) :
    (lengthTick c s).common c = { s.common c with
      length := (s.common c).length - 1
      enabled := (s.common c).enabled && decide ((s.common c).length ≠ 1) } := by
  obtain ⟨hstop, hs⟩ | ⟨-, -, hs⟩ := lengthTick_cases c s
  · have hl : (s.common c).length = 0 := by simpa [h] using hstop
    have heta : s.common c = { s.common c with length := 0 } := by rw [← hl]
    rw [hs]
    simpa [hl] using heta
  · simp [hs]

/-- The countdown over `j` ticks (R165, R166). -/
theorem runAll_lengthSteps {c : Chan} (j : Nat) {s : State}
    (h : (s.synth.common c).continuous = false) :
    ∃ t, runAll (List.replicate j (.lengthStep c)) s = some t ∧
      (t.synth.common c).length = (s.synth.common c).length - j ∧
      (t.synth.common c).enabled = ((s.synth.common c).enabled &&
        decide ((s.synth.common c).length = 0 ∨ j < (s.synth.common c).length)) := by
  induction j generalizing s with
  | zero => exact ⟨s, rfl, rfl, by simp [Nat.eq_zero_or_pos]⟩
  | succ j ih =>
    have hc := common_lengthTick h
    obtain ⟨t, ht, hlen, hen⟩ := ih (s := s.setSynth (lengthTick c s.synth)) (by simp [hc, h])
    refine ⟨t, ht, ?_, ?_⟩
    · simp only [hlen, synth_setSynth, hc]
      omega
    · rw [hen, synth_setSynth, hc, Bool.and_assoc, ← Bool.decide_and]
      congr 2
      simp only [eq_iff_iff]
      omega

/-! ## The channel output -/

theorem chanOut_of_disabled {s : Synth} {c : Chan} (h : (s.common c).enabled = false) (ground : ℚ) :
    chanOut ground s c = ground := by simp [chanOut, h]

theorem level_toChan_div (s : Synth) (e : EnvChan) :
    level s e.toChan / 15 = ((s.common e.toChan).raw : ℚ) / 15 * ((s.env e).volume / 15) := by
  have hlevel : level s e.toChan = ((s.common e.toChan).raw : ℚ) * (s.env e).volume / 15 := by
    cases e <;> rfl
  rw [hlevel]
  ring

/-- The output level shifts the raw sample (R242). -/
theorem level_ch3 {s : Synth} {l : Level} (h : s.wave.level = l) :
    level s .ch3 = match l with
      | .mute => 0
      | .full => ((s.common .ch3).raw : ℚ)
      | .half => (((s.common .ch3).raw / 2 : ℕ) : ℚ)
      | .quarter => (((s.common .ch3).raw / 4 : ℕ) : ℚ) := by
  have h' : s.ch3.wave.level = l := h
  cases l <;> simp [level, h', shiftRight, Synth.common]

/-- Reading the output changes only the returned value. -/
theorem exec_getCurrentVolume (c : Chan) (s : State) :
    exec (.getCurrentVolume c) s =
      .next { s with returned := .rat (chanOut s.params.ground s.synth c) } := rfl

/-! ## The statements -/

/-- Settles O12: the one field written is the one that the period of a tone channel reads. -/
theorem setFrequencyClamps : Obligations.SetFrequencyClamps := by
  intro c v s
  refine ⟨_, rfl, get_setCommon_self .., changesOnly_setSynth (sameBut_setCommon _), ?_⟩
  cases c <;> rfl

/-- Settles O13, with the model's two length maxima. -/
theorem setLengthClamps : Obligations.SetLengthClamps := by
  intro c n s
  refine ⟨_, rfl, ?_, changesOnly_setSynth (sameBut_setCommon _)⟩
  rw [← lengthMax_eq]
  exact get_setCommon_self ..

/-- Settles O14: a gated length tick is the identity, an ungated one subtracts one from the kept length. -/
theorem setContinuousOutputGatesTheLength : Obligations.SetContinuousOutputGatesTheLength := by
  intro c on s
  refine ⟨_, rfl, get_setCommon_self .., changesOnly_setSynth (sameBut_setCommon _),
    fun hon => ?_, fun hoff => ⟨_, rfl, ?_⟩⟩
  · have htick := lengthTick_of_continuous (c := c)
      (s := s.synth.setCommon c { s.synth.common c with continuous := on }) (by simp [hon])
    exact congrArg (fun x => Host.Outcome.next (s.setSynth x)) htick
  · rw [synth_setSynth, synth_setSynth, common_lengthTick (by simp [hoff])]
    simp

/-- Settles O15: a disabled channel's output is GROUND. -/
theorem disableClearsEnabledAlone : Obligations.DisableClearsEnabledAlone := by
  intro c s
  refine ⟨_, rfl, get_setCommon_self .., changesOnly_setSynth (sameBut_disableChan _ c), ?_⟩
  rw [exec_getCurrentVolume, chanOut_of_disabled (by simp), params_setSynth]

/-- Settles O16: the reset's parts, register by register, and the sample at the reloaded position. -/
theorem channelResetLoadsTransientFields : Obligations.ChannelResetLoadsTransientFields := by
  intro c s
  have hcommon := common_resetChan c s.synth
  refine ⟨_, rfl, changesOnly_setSynth (sameBut_resetChan _ c), ?enabled, ?timer, fun e he => ?env,
    fun hc => ?sweep, fun p hp => ?pulse, fun hc => ?wave, fun hc => ?noise⟩
  case enabled | timer => simp [Synth.get, hcommon, Common.get]
  case env =>
    subst he
    simp [Synth.get, env_resetChan, Envelope.get]
  case sweep =>
    subst hc
    exact ⟨rfl, rfl⟩
  case pulse =>
    subst hp
    refine ⟨by simp [Synth.get, pulse_resetChan], ?_⟩
    simp only [Synth.get, synth_setSynth, hcommon, Common.get, currentSample_toChan, pulse_resetChan]
    cases (s.synth.pulse p).duty <;> rfl
  case wave =>
    subst hc
    exact ⟨rfl, congrArg Returned.nat (nibble_eq _ 0)⟩
  case noise =>
    subst hc
    exact ⟨rfl, rfl⟩

/-- Settles O17, by the level of each kind of channel. -/
theorem getCurrentVolumeReturnsTheOutput : Obligations.GetCurrentVolumeReturnsTheOutput := by
  refine ⟨fun e s => ?_, fun s => ?_⟩
  · rw [exec_getCurrentVolume, chanOut, level_toChan_div]
  · rw [exec_getCurrentVolume, chanOut]
    cases hl : s.synth.wave.level <;> simp [level_ch3 hl]

/-- Settles O18, by the two turns of R145's loop. -/
theorem timerStepIsTheLoop : Obligations.TimerStepIsTheLoop := by
  intro c k s hp
  refine ⟨_, rfl, ⟨rfl, rfl, rfl, rfl⟩, rfl, timerStep_counts, fun h => ?_⟩
  rw [timerStep_loop hp h]
  rfl

/-- Settles O19: the number of rollovers moves the position, and the last of them latches its sample. -/
theorem timerStepCountsRollovers : Obligations.TimerStepCountsRollovers := by
  intro c k s hs
  have hlegal := s.synth.ok_iff_legal.1 hs
  have hperiod : 0 < period s.synth c := Nat.zero_lt_of_lt (two_le_period hs c)
  have htimer := timer_stepTimer c k s.synth
  refine ⟨_, rfl, ⟨rfl, rfl, rfl, rfl⟩, sameBut_stepTimer s.synth c k, htimer,
    htimer.trans_lt (Nat.mod_lt _ hperiod), raw_stepTimer_of_zero, fun p hp => ?pulse, fun hc => ?wave,
    fun hc => ?noise⟩
  case pulse =>
    subst hp
    refine ⟨dutyIndex_stepTimer (hlegal.pulse p) k, fun hpos => ?_⟩
    refine (raw_stepTimer_of_pos hpos).trans ?_
    rw [currentSample_toChan, dutySample_eq, duty_stepTimer]
    rfl
  case wave =>
    subst hc
    obtain ⟨hposition, -⟩ := hlegal.wave
    refine ⟨position_stepTimer hposition k, fun hpos => (raw_stepTimer_of_pos hpos).trans ?_⟩
    rw [← waveRam_stepTimer k s.synth]
    exact nibble_eq _ _
  case noise =>
    subst hc
    exact ⟨lfsr_repeated_rollover _ _, fun hpos => (raw_stepTimer_of_pos hpos).trans (noiseSample_eq _)⟩

/-- Settles O20: a gated or finished length changes nothing, any other counts down. -/
theorem lengthStepCountsDown : Obligations.LengthStepCountsDown := by
  intro c s
  refine ⟨_, rfl, changesOnly_setSynth (sameBut_lengthTick _ c), ?_⟩
  split_ifs with h
  · obtain ⟨hc, -⟩ := h
    rw [synth_setSynth, common_lengthTick hc]
    exact ⟨rfl, rfl⟩
  · obtain ⟨-, hs⟩ | ⟨hc, hl, -⟩ := lengthTick_cases c s.synth
    · exact hs
    · exact absurd ⟨hc, hl⟩ h

/-- Settles O21, from the countdown over any number of ticks. -/
theorem lengthExpiresAtTheNthTick : Obligations.LengthExpiresAtTheNthTick := by
  intro c n j s hn hc
  rw [← lengthMax_eq] at hn
  have hset : ((s.setSynth (s.synth.setCommon c
      { s.synth.common c with length := min n (lengthMax c) })).synth.common c) =
      { s.synth.common c with length := n } := by simp [hn]
  obtain ⟨t, ht, hlen, hen⟩ := runAll_lengthSteps j (by rw [hset]; exact hc)
  rw [hset] at hlen hen
  exact ⟨t, ht, hlen, hen⟩

end Sys2Proof.Machine


/-! PROOFS. 41_pulse_envelope_sweep.md: the envelope byte and tick (O22, O23), the duty (O25, O26) and the
sweep byte, tick and overflow (O27 to O29). -/

namespace Sys2Proof.Machine

/-! ## Packed bytes -/

theorem bitField_two_zero (b : Byte) : bitField b 2 0 = b.toNat % 8 := by simp [bitField]

theorem bitField_six_four (b : Byte) : bitField b 6 4 = b.toNat / 16 % 8 := by simp [bitField]

theorem bitField_self_eq_one (b : Byte) (n : Nat) : bitField b n n = 1 ↔ b.getLsbD n = true := by
  simp [bitField, BitVec.getLsbD, Nat.testBit_eq_decide_div_mod_eq]

theorem bitField_xor (b m : Byte) (hi lo : Nat) :
    bitField (b ^^^ m) hi lo = bitField b hi lo ^^^ bitField m hi lo := by
  simp only [bitField, BitVec.toNat_xor, Nat.xor_div_two_pow, Nat.xor_mod_two_pow]

/-- A field below bit 7 does not see bit 7. -/
theorem bitField_xor_bit_seven (b : Byte) {hi lo : Nat} (h : bitField 0x80 hi lo = 0) :
    bitField (b ^^^ 0x80) hi lo = bitField b hi lo := by
  rw [bitField_xor, h, Nat.xor_zero]

theorem envDirection_eq (b : Byte) :
    envDirection b = if b.getLsbD 3 then .amplify else .attenuate := by
  simp only [envDirection, bitField_self_eq_one]

theorem sweepMode_eq (b : Byte) :
    sweepMode b = if b.getLsbD 3 then .subtraction else .addition := by
  simp only [sweepMode, bitField_self_eq_one]

/-! ## The envelope unit -/

@[simp] theorem get_setEnv_self (s : Synth) (e : EnvChan) (x : Envelope) (g : EnvField) :
    (s.setEnv e x).get (.env e g) = x.get g := by simp [Synth.get]

theorem volumeStep_eq (d : Direction) (v : Nat) :
    volumeStep d v = if d = .amplify then min (v + 1) 15 else max (v - 1) 0 := by
  cases d <;> simp [volumeStep]

theorem sameBut_envTick (s : Synth) (e : EnvChan) :
    Synth.SameBut [.env e .volume, .env e .counter] s (envTick e s) := by
  unfold envTick
  obtain ⟨-, h⟩ | ⟨-, -, h⟩ | ⟨-, -, h⟩ := envelope_tick_cases (s.env e) <;> rw [h] <;>
    exact sameBut_setEnv s

/-! ## The duty -/

theorem sameBut_setDuty (s : Synth) (p : PulseChan) (d : Duty) :
    Synth.SameBut [.duty p] s (s.setPulse p { s.pulse p with duty := d }) := by
  intro f hf
  cases f with
  | duty p' =>
    have hp : p' ≠ p := by simpa using hf
    simp [Synth.get, hp]
  | dutyIndex p' => by_cases hp : p' = p <;> simp [Synth.get, hp]
  | _ => simp [Synth.get]

theorem period_toChan (s : Synth) (p : PulseChan) :
    period s p.toChan = (2048 - (s.common p.toChan).freq) * 4 := by
  cases p <;> rfl

/-- A channel whose raw sample is the one at its position keeps it so over any timer advance. -/
theorem raw_stepTimer_of_latched {c : Chan} {s : Synth} (h : (s.common c).raw = currentSample s c)
    (k : Nat) : ((stepTimer c k s).common c).raw = currentSample (stepTimer c k s) c := by
  have hstart : ∀ t, ((s.setCommon c { s.common c with timer := t }).common c).raw =
      currentSample (s.setCommon c { s.common c with timer := t }) c := by
    cases c <;> exact fun _ => h
  exact repeated_induction (P := fun x => (x.common c).raw = currentSample x c)
    (fun x _ => raw_rollover c x) _ (hstart _)

/-- `j` whole periods after a reset the timer is at 0 again. -/
theorem stepTimer_after_reset (p : PulseChan) (j : Nat) {s : Synth}
    (h : (s.common p.toChan).freq ≤ 0x7FF) :
    let t := stepTimer p.toChan (j * ((2048 - (s.common p.toChan).freq) * 4)) (resetChan p.toChan s)
    (t.common p.toChan).timer = 0 ∧ (t.pulse p).dutyIndex = j % 8 ∧
      (t.common p.toChan).raw = dutySample (s.pulse p).duty (j % 8) := by
  intro t
  have hcommon := common_resetChan p.toChan s
  have hpulse := pulse_resetChan p s
  have hperiod : period (resetChan p.toChan s) p.toChan = (2048 - (s.common p.toChan).freq) * 4 := by
    rw [period_toChan, hcommon]
  have hpos : 0 < (2048 - (s.common p.toChan).freq) * 4 := by omega
  have hindex : (t.pulse p).dutyIndex = j % 8 := by
    rw [dutyIndex_stepTimer (by simp [hpulse]), hperiod, hcommon, hpulse]
    simp [Nat.mul_div_cancel _ hpos]
  refine ⟨?_, hindex, ?_⟩
  · rw [timer_stepTimer, hperiod, hcommon]
    simp
  · rw [raw_stepTimer_of_latched (by rw [hcommon]), currentSample_toChan, hindex, duty_stepTimer, hpulse]

/-! ## The sweep unit -/

theorem sweep_calc_eq (sw : Sweep) (f : Nat) :
    sw.calc f = if sw.mode = .addition then f + f / 2 ^ sw.shift else f - f / 2 ^ sw.shift := by
  cases h : sw.mode <;> simp [Sweep.calc, shiftRight, h]

/-- The four registers a sweep tick may write: counter, shadow, and ch1's frequency and `enabled`. -/
def sweepRegisters (s : Synth) : Nat × Nat × Nat × Bool :=
  (s.sweep.counter, s.sweep.shadow, (s.common .ch1).freq, (s.common .ch1).enabled)

theorem sameBut_sweepCommit (s : Synth) (n : Nat) :
    Synth.SameBut [.sweep .shadow, .common .ch1 .freq] s (sweepCommit n s) := by
  have hsweep : Synth.SameBut [.sweep .shadow] s (s.setSweep { s.sweep with shadow := n }) :=
    sameBut_setSweep s
  have hfreq : Synth.SameBut [.common .ch1 .freq] (s.setSweep { s.sweep with shadow := n })
      (sweepCommit n s) := sameBut_setCommon _
  exact (hsweep.mono (by simp)).andThen hfreq (by simp)

theorem sameBut_sweepEvent (dc : Bool) (s : Synth) :
    Synth.SameBut [.sweep .shadow, .common .ch1 .freq, .common .ch1 .enabled] s (sweepEvent dc s) := by
  have hcommit := fun n => (sameBut_sweepCommit s n).mono
    (gs := [.sweep .shadow, .common .ch1 .freq, .common .ch1 .enabled]) (by simp)
  obtain ⟨-, h⟩ | ⟨-, -, h⟩ | ⟨-, -, h⟩ := sweepEvent_cases dc s <;> rw [h]
  · exact (sameBut_disableChan s .ch1).mono (by simp)
  · exact Synth.SameBut.refl _ s
  · split_ifs
    · exact (hcommit _).andThen (sameBut_disableChan _ .ch1) (by simp)
    · exact hcommit _

theorem sameBut_sweepTick (dc : Bool) (s : Synth) :
    Synth.SameBut [.sweep .shadow, .sweep .counter, .common .ch1 .freq, .common .ch1 .enabled] s
      (sweepTick dc s) := by
  have hcounter : ∀ n, Synth.SameBut [.sweep .counter] s (s.setSweep { s.sweep with counter := n }) :=
    fun _ => sameBut_setSweep s
  obtain ⟨-, h⟩ | ⟨-, -, h⟩ | ⟨-, -, h⟩ := sweepTick_cases dc s <;> rw [h]
  · exact Synth.SameBut.refl _ s
  · exact (hcounter _).mono (by simp)
  · exact ((hcounter _).mono (by simp)).andThen (sameBut_sweepEvent dc _) (by simp)

theorem sweepRegisters_sweepEvent (dc : Bool) (s : Synth) :
    sweepRegisters (sweepEvent dc s) =
      if 0x7FF < s.sweep.calc s.sweep.shadow then
        (s.sweep.counter, s.sweep.shadow, (s.common .ch1).freq, false)
      else if s.sweep.shift = 0 then sweepRegisters s
      else (s.sweep.counter, s.sweep.calc s.sweep.shadow, s.sweep.calc s.sweep.shadow,
        (s.common .ch1).enabled &&
          !(dc && decide (0x7FF < s.sweep.calc (s.sweep.calc s.sweep.shadow)))) := by
  obtain ⟨ho, h⟩ | ⟨ho, hs, h⟩ | ⟨ho, hs, h⟩ := sweepEvent_cases dc s <;> rw [h]
  · rw [if_pos ho]
    simp [sweepRegisters, disableChan]
  · rw [if_neg ho.not_gt, if_pos hs]
  · rw [if_neg ho.not_gt, if_neg hs]
    split_ifs with h2
    · obtain ⟨hdc, h2⟩ := h2
      simp [sweepRegisters, disableChan, sweepCommit, hdc, h2]
    · have hpass : (dc && decide (0x7FF < s.sweep.calc (s.sweep.calc s.sweep.shadow))) = false := by
        simpa using h2
      simp [sweepRegisters, sweepCommit, hpass]

theorem sweepRegisters_sweepTick (dc : Bool) (s : Synth) :
    sweepRegisters (sweepTick dc s) =
      if s.sweep.period = 0 then sweepRegisters s
      else if 2 ≤ s.sweep.counter then
        (s.sweep.counter - 1, s.sweep.shadow, (s.common .ch1).freq, (s.common .ch1).enabled)
      else sweepRegisters (sweepEvent dc (s.setSweep { s.sweep with counter := s.sweep.period })) := by
  obtain ⟨hp, h⟩ | ⟨hp, hc, h⟩ | ⟨hp, hc, h⟩ := sweepTick_cases dc s <;> rw [h]
  · rw [if_pos hp]
  · rw [if_neg hp, if_pos hc]
    simp [sweepRegisters]
  · rw [if_neg hp, if_neg (by omega)]


/-! ## Nothing but its own reset turns a disabled channel on (R23, R452) -/

theorem Synth.SameBut.off {fs : List SynthField} {s t : Synth} {c : Chan} (h : SameBut fs s t)
    (hf : .common c .enabled ∉ fs) (hs : s.off c) : t.off c :=
  (Returned.bool.inj (h _ hf)).trans hs

theorem off_of_common_eq {s t : Synth} {c : Chan} (h : t.common c = s.common c) (hs : s.off c) : t.off c :=
  (congrArg Common.enabled h).trans hs

/-- A write of a channel's common fields that keeps its `enabled` keeps every disabled channel disabled. -/
theorem off_setCommon {c : Chan} {s : Synth} (h : s.off c) {c' : Chan} {x : Common}
    (hx : x.enabled = (s.common c').enabled) : (s.setCommon c' x).off c := by
  rw [Synth.off, common_setCommon]
  split_ifs with hc
  · subst hc
    exact hx.trans h
  · exact h

theorem off_resetChan {c c' : Chan} {s : Synth} (h : s.off c) (hc : c' ≠ c) : (resetChan c' s).off c := by
  refine (sameBut_resetChan s c').off ?_ h
  cases c' <;> cases c <;> simp [transientFields] at hc ⊢

theorem off_synthAfterStep {c : Chan} {s : Synth} (h : s.off c) (p : Params) :
    (synthAfterStep p s).off c :=
  off_advanceCycles (off_of_common_eq (common_with_facc ..) h) _ _

theorem off_fillLoop {c : Chan} {p : Params} {put : Nat → OutVal → OutVal → HostMem → HostMem} (n : Nat)
    {j : Nat} {s : Synth} {m : HostMem} (h : s.off c) : (fillLoop p put n j s m).1.off c := by
  induction n generalizing j s m with
  | zero => exact h
  | succ n ih => exact ih (off_synthAfterStep h p)

/-- If the outcome is a next state, channel `c` is disabled in it. -/
def OffOutcome (c : Chan) (x : Host.Outcome State Fault Refusal) : Prop :=
  ∀ t, x = .next t → t.synth.off c

theorem offOutcome_next {c : Chan} {t : State} (h : t.synth.off c) : OffOutcome c (.next t) := fun _ e => by
  cases e
  exact h

theorem offOutcome_refused (c : Chan) (r : Refusal) : OffOutcome c (.refused r) := fun _ e => by
  cases e

theorem offOutcome_guarded {c : Chan} {p : Prop} [Decidable p] {t : State} {r : Refusal}
    (h : t.synth.off c) : OffOutcome c (if p then .next t else .refused r) :=
  iteInduction (fun _ => offOutcome_next h) fun _ => offOutcome_refused c r

theorem offOutcome_withOsc {c : Chan} {s : State} {k : Nat} {f : Osc → Host.Outcome State Fault Refusal}
    (hf : ∀ o, OffOutcome c (f o)) : OffOutcome c (withOsc s k f) := fun t ht => by
  obtain ⟨o, -, hnext⟩ := withOsc_next ht
  exact hf o t hnext

/-- No operation but the channel's own `reset()` turns it on. -/
theorem offOutcome_exec {c : Chan} {s : State} (h : s.synth.off c) {i : Instr} (hi : i ≠ .reset c) :
    OffOutcome c (exec i s) := by
  cases i with
  | setFrequency | setLength | setContinuousOutput => exact offOutcome_next (off_setCommon h rfl)
  | disable c' => exact offOutcome_next (off_disableChan h c')
  | reset c' => exact offOutcome_next (off_resetChan h fun hc => hi (congrArg _ hc))
  | setEnv e b => exact offOutcome_next (off_of_common_eq (common_setEnv ..) h)
  | setDuty p d => exact offOutcome_next (off_of_common_eq (common_setPulse ..) h)
  | setSweep => exact offOutcome_next (off_of_common_eq (common_setSweep ..) h)
  | setWaveform => exact offOutcome_guarded (off_of_common_eq (common_setWave ..) h)
  | setOutputLevel => exact offOutcome_next (off_of_common_eq (common_setWave ..) h)
  | setNoise | setScf | setDrf | setStepSelection =>
    exact offOutcome_next (off_of_common_eq (common_setNoise ..) h)
  | seqReset => exact offOutcome_next (off_of_common_eq (common_with_seq ..) h)
  | mixSetEnable | setTerminalEnable | setTerminalVolume =>
    exact offOutcome_next (off_of_common_eq (common_with_mix ..) h)
  | synthStep => exact offOutcome_next (off_synthAfterStep h _)
  | fillStereo left right n => exact offOutcome_guarded (off_fillLoop n h)
  | fillInterleaved buf n => exact offOutcome_guarded (off_fillLoop n h)
  | getCurrentVolume | synthQuery | fromGbFreq | toGbFreq => exact offOutcome_next h
  | oscNew => exact offOutcome_guarded h
  | oscSetFrequency | oscSetMuted | oscQuery => exact offOutcome_withOsc fun _ => offOutcome_next h
  | oscSetWaveform | generate => exact offOutcome_withOsc fun _ => offOutcome_guarded h
  | timerStep c' k => exact offOutcome_next (off_stepTimer h c' k)
  | lengthStep c' => exact offOutcome_next (off_lengthTick h c')
  | envStep e => exact offOutcome_next (off_envTick h e)
  | sweepStep => exact offOutcome_next (off_sweepTick h _)
  | frameEvent => exact offOutcome_next (off_frameEvent h _ _)
  | advance n => exact offOutcome_next (off_advanceCycles h _ n)

/-- A call that is admitted is the operation its byte image decodes to. -/
theorem decodeCall_of_admission {call : PendingCall} {i : Instr} (h : admission call = .ok i) :
    decodeCall call.bytes = .ok i := by
  unfold admission at h
  split at h
  · cases h
  · split_ifs at h
    cases h
    assumption

/-- What a step answers from a state with a disabled channel, if it runs no `reset()` of that channel. -/
theorem offOutcome_step {c : Chan} {s : State} (h : s.synth.off c)
    (hcall : ∀ call rest, s.calls = call :: rest → decodeCall call.bytes ≠ .ok (.reset c)) :
    OffOutcome c (step s) := by
  unfold step
  split
  next => exact offOutcome_next h
  next call rest hcalls =>
    split
    next i hadm =>
      refine offOutcome_exec (s := afterFetch s rest) h fun hi => hcall call rest hcalls ?_
      rw [decodeCall_of_admission hadm, hi]
    next => exact offOutcome_refused c _

/-! ## Overflow (R207, R208) -/

/-- Subtraction never overflows from a shadow in range, so a tick neither disables nor raises the shadow. -/
theorem sweepTick_of_subtraction (dc : Bool) {s : Synth} (hm : s.sweep.mode = .subtraction)
    (hf : s.sweep.shadow ≤ 0x7FF) :
    ((sweepTick dc s).common .ch1).enabled = (s.common .ch1).enabled ∧
      (sweepTick dc s).sweep.shadow ≤ s.sweep.shadow := by
  have hreload := fun n => calc_subtraction_le (sw := { s.sweep with counter := n }) hm
  obtain ⟨-, h⟩ | ⟨-, -, h⟩ | ⟨-, -, h⟩ := sweepTick_cases dc s <;> rw [h]
  · exact ⟨rfl, le_rfl⟩
  · exact ⟨by simp, le_rfl⟩
  · have hle := hreload s.sweep.period
    obtain ⟨ho, -⟩ | ⟨-, -, h⟩ | ⟨-, -, h⟩ :=
      sweepEvent_cases dc (s.setSweep { s.sweep with counter := s.sweep.period })
    · exact absurd ho ((hle _).trans hf).not_gt
    · rw [h]
      exact ⟨by simp, le_rfl⟩
    · have hsecond := ((hle _).trans ((hle s.sweep.shadow).trans hf)).not_gt
      rw [h, if_neg fun ⟨_, h2⟩ => hsecond h2]
      exact ⟨rfl, hle _⟩

/-- An event whose first check overflows disables ch1 and commits nothing. -/
theorem sweepTick_of_overflow (dc : Bool) {s : Synth} (hp : s.sweep.period ≠ 0) (hc : s.sweep.counter ≤ 1)
    (ho : 0x7FF < s.sweep.calc s.sweep.shadow) :
    sweepTick dc s = disableChan .ch1 (s.setSweep { s.sweep with counter := s.sweep.period }) := by
  obtain ⟨h0, -⟩ | ⟨-, h2, -⟩ | ⟨-, -, h⟩ := sweepTick_cases dc s
  · exact absurd h0 hp
  · omega
  · rw [h]
    obtain ⟨-, h⟩ | ⟨hn, -⟩ | ⟨hn, -⟩ :=
      sweepEvent_cases dc (s.setSweep { s.sweep with counter := s.sweep.period })
    · exact h
    · exact absurd ho hn.not_gt
    · exact absurd ho hn.not_gt

/-! ## The statements -/

/-- Settles O22: the byte's three fields, as the spec writes their bits out. -/
theorem setEnvLoadsTheByte : Obligations.SetEnvLoadsTheByte := by
  intro c b s
  refine ⟨_, rfl, changesOnly_setSynth (sameBut_setEnv _), ?_⟩
  simp only [synth_setSynth, get_setEnv_self, Envelope.get, envOfByte, envVolume, envPeriod,
    bitField_seven_four, bitField_two_zero, envDirection_eq, and_self]

/-- Settles O23, case by case of the tick: off, counting, and the volume step. -/
theorem envStepMovesTheVolume : Obligations.EnvStepMovesTheVolume := by
  intro c s
  refine ⟨_, rfl, changesOnly_setSynth (sameBut_envTick _ c), ?_⟩
  have henv : ((s.setSynth (envTick c s.synth)).synth.env c) = (s.synth.env c).tick := by simp [envTick]
  rw [henv]
  obtain ⟨hp, h⟩ | ⟨hp, hc, h⟩ | ⟨hp, hc, h⟩ := envelope_tick_cases (s.synth.env c) <;> rw [h]
  · rw [if_pos hp]
  · rw [if_neg hp, if_pos hc]
  · rw [if_neg hp, if_neg (by omega), ← volumeStep_eq]

/-- Settles O25: the raw sample is latched by the rollover, which reads the duty as it then stands. -/
theorem setDutyWaitsForTheRollover : Obligations.SetDutyWaitsForTheRollover := by
  intro c d s
  refine ⟨_, rfl, by simp [Synth.get], changesOnly_setSynth (sameBut_setDuty _ c d), ?_⟩
  rw [raw_rollover, currentSample_toChan, pulse_rollover]
  simp

/-- Settles O26: the reset puts index 0's sample in place, and `j` rollovers later it is that of `j mod 8`. -/
theorem dutyPatternRepeats : Obligations.DutyPatternRepeats := by
  intro c j s hf
  obtain ⟨htimer, hindex, hraw⟩ := stepTimer_after_reset c j hf
  refine ⟨_, rfl, ?_, hindex, htimer⟩
  rw [dutySample_eq] at hraw
  exact congrArg Returned.nat hraw

/-- Settles O27: the byte's three fields, none of which reaches bit 7. -/
theorem setSweepLoadsTheByte : Obligations.SetSweepLoadsTheByte := by
  intro b s
  refine ⟨_, rfl, changesOnly_setSynth (sameBut_setSweep _), congrArg Returned.nat (bitField_six_four b),
    congrArg Returned.mode (sweepMode_eq b), congrArg Returned.nat (bitField_two_zero b), ?_⟩
  have hperiod : sweepPeriod (b ^^^ 0x80) = sweepPeriod b := bitField_xor_bit_seven b rfl
  have hshift : sweepShift (b ^^^ 0x80) = sweepShift b := bitField_xor_bit_seven b rfl
  have hmode : sweepMode (b ^^^ 0x80) = sweepMode b := by
    rw [sweepMode, sweepMode, bitField_xor_bit_seven b rfl]
  rw [exec, execSetSweep, hperiod, hmode, hshift]

/-- Settles O28: the tick's cases with those of its event, in the four registers it may write. -/
theorem sweepStepFollowsTheAlgorithm : Obligations.SweepStepFollowsTheAlgorithm := by
  intro s
  refine ⟨_, rfl, changesOnly_setSynth (sameBut_sweepTick _ _), ?_⟩
  intro sw x next
  have hnext : ∀ n, Sweep.calc { sw with counter := n } = next := fun n => funext (sweep_calc_eq _)
  refine (sweepRegisters_sweepTick _ _).trans ?_
  rw [sweepRegisters_sweepEvent, sweep_setSweep, hnext]
  rfl

/-- Settles O29, by R207 and R208 for the tick and by the operations for what lasts. -/
theorem sweepOverflowOnlyInAddition : Obligations.SweepOverflowOnlyInAddition := by
  refine ⟨fun s hm hf => ⟨_, rfl, sweepTick_of_subtraction _ hm hf⟩, fun s hm hp hc _ ho => ⟨_, rfl, ?_⟩,
    fun c i s t ht hi hs => offOutcome_exec hs hi t ht,
    fun c s t ht hs hcall => offOutcome_step hs hcall t ht⟩
  have hover : 0x7FF < s.synth.sweep.calc s.synth.sweep.shadow := by rwa [sweep_calc_eq, if_pos hm]
  rw [synth_setSynth, sweepTick_of_overflow _ hp hc hover]
  exact ⟨rfl, rfl, rfl⟩

end Sys2Proof.Machine


/-! PROOFS. 42_wave.md: the WAVE memory (O30), the output level (O31) and the nibbles that ch3 plays (O32). -/

namespace Sys2Proof.Machine

/-! ## The wave registers -/

/-- A write of the wave registers changes those of their three fields that it does not write back. -/
theorem sameBut_setWave (s : Synth) {fs : List SynthField} {x : Wave}
    (hram : .waveRam ∈ fs ∨ x.waveRam = s.wave.waveRam) (hlevel : .level ∈ fs ∨ x.level = s.wave.level)
    (hposition : .position ∈ fs ∨ x.position = s.wave.position) : Synth.SameBut fs s (s.setWave x) := by
  intro f hf
  cases f with
  | waveRam => simp [Synth.get, hram.resolve_left hf]
  | level => simp [Synth.get, hlevel.resolve_left hf]
  | position => simp [Synth.get, hposition.resolve_left hf]
  | _ => simp [Synth.get]

/-! ## The WAVE memory -/

/-- What is read back of the bytes at address 0 (R240). -/
theorem Memory.read_writeFrom_zero {m : List Host.Cell} (hm : Memory.wf m) {w : List Byte}
    (hw : w.length ≤ 16) {i : Nat} (hi : i < w.length) :
    Memory.read (Memory.writeFrom m 0 w) i = w.getD i 0 := by
  rw [Memory.read_writeFrom hm (by omega), if_pos (by omega), Nat.sub_zero]

/-- The memory as a whole is the 16 bytes at its addresses. -/
theorem Memory.bytes_eq {m : List Host.Cell} {w : List Byte} (hw : w.length = 16)
    (h : ∀ i < 16, Memory.read m i = w.getD i 0) : Memory.bytes m = w := by
  refine List.ext_getElem (by simp [Memory.bytes, hw]) fun i hi hi' => ?_
  simp [Memory.bytes, h i (by omega), hi']

/-- The nibble at an even position is the high half of its byte (R82). -/
theorem nibble_even (m : List Host.Cell) (i : Nat) :
    nibble m (2 * i) = (Memory.read m i).toNat / 16 := by
  rw [nibble_eq, if_pos (by omega), Nat.mul_div_cancel_left i two_pos]

/-- The nibble at an odd position is the low half of its byte (R82). -/
theorem nibble_odd (m : List Host.Cell) (i : Nat) :
    nibble m (2 * i + 1) = (Memory.read m i).toNat % 16 := by
  rw [nibble_eq, if_neg (by omega), show (2 * i + 1) / 2 = i by omega]

/-! ## The wave channel's timer -/

/-- `j` whole periods after a reset ch3 is at position `j mod 32` and plays the nibble there (R245, R250). -/
theorem stepTimer_ch3_after_reset (j : Nat) {s : Synth} (h : (s.common .ch3).freq ≤ 0x7FF) :
    let t := stepTimer .ch3 (j * ((2048 - (s.common .ch3).freq) * 2)) (resetChan .ch3 s)
    t.wave.position = j % 32 ∧ (t.common .ch3).raw = nibble s.wave.waveRam (j % 32) := by
  intro t
  have hcommon := common_resetChan .ch3 s
  have hwave : (resetChan .ch3 s).wave = { s.wave with position := 0 } := rfl
  have hperiod : period (resetChan .ch3 s) .ch3 = (2048 - (s.common .ch3).freq) * 2 := rfl
  have hpos : 0 < (2048 - (s.common .ch3).freq) * 2 := by omega
  have hposition : t.wave.position = j % 32 := by
    rw [position_stepTimer (by simp [hwave]), hperiod, hcommon, hwave]
    simp [Nat.mul_div_cancel _ hpos]
  refine ⟨hposition, ?_⟩
  calc (t.common .ch3).raw
      = nibble t.wave.waveRam t.wave.position := raw_stepTimer_of_latched (by rw [hcommon]) _
    _ = nibble s.wave.waveRam (j % 32) := by rw [hposition, waveRam_stepTimer, hwave]

/-! ## The statements -/

/-- Settles O30: WAVE reads back as written, and its nibbles are the halves of what is read. -/
theorem setWaveformFillsWave : Obligations.SetWaveformFillsWave := by
  intro w s hw hram
  have hread : ∀ i < 16, Memory.read (Memory.writeFrom s.synth.wave.waveRam 0 w) i = w.getD i 0 :=
    fun i hi => Memory.read_writeFrom_zero hram hw.le (by omega)
  have hframe : Synth.SameBut [.waveRam] s.synth (s.synth.setWave
      { s.synth.wave with waveRam := Memory.writeFrom s.synth.wave.waveRam 0 w }) :=
    sameBut_setWave _ (.inl (by simp)) (.inr rfl) (.inr rfl)
  refine ⟨_, if_pos hw, changesOnly_setSynth hframe, fun i hi => ?_,
    congrArg Returned.bytes (Memory.bytes_eq hw hread)⟩
  rw [nibble_even, nibble_odd]
  exact ⟨hread i hi, congrArg (·.toNat / 16) (hread i hi), congrArg (·.toNat % 16) (hread i hi)⟩

/-- Settles O31: the output is computed from the level as it stands at the read (R151). -/
theorem setOutputLevelShiftsTheOutput : Obligations.SetOutputLevelShiftsTheOutput := by
  intro l s
  refine ⟨_, rfl, rfl,
    changesOnly_setSynth (sameBut_setWave _ (.inr rfl) (.inl (by simp)) (.inr rfl)), fun hon => ?_⟩
  have hlevel := level_ch3 (s := s.synth.setWave { s.synth.wave with level := l }) rfl
  rw [exec_getCurrentVolume, synth_setSynth, chanOut, common_setWave, if_pos hon, hlevel]
  cases l <;> simp

/-- Settles O32: the reset puts nibble 0 in place, and `j` rollovers later it is that of `j mod 32`. -/
theorem waveChannelPlaysItsNibbles : Obligations.WaveChannelPlaysItsNibbles := by
  intro j s hf
  obtain ⟨hposition, hraw⟩ := stepTimer_ch3_after_reset j hf
  have hparity : j % 32 % 2 = j % 2 := Nat.mod_mod_of_dvd j (by decide)
  rw [nibble_eq, hparity] at hraw
  exact ⟨_, rfl, hposition, congrArg Returned.nat hraw⟩

end Sys2Proof.Machine

/-! PROOFS. 43_noise.md: the noise setters (O33), one shift of the LFSR (O34), the shifts that the noise timer
makes (O35), and the periods and the lock-up of the two modes (O36).

The 15-bit mode's period rests on the shift being linear over exclusive or. Fifteen shifts are one shift plus
the register itself, so sixteen are two plus one, and by squaring the same holds at every power of two. That
recurrence brings 32768 shifts back to one shift. The 7-bit mode is followed on its low seven bits, which no
higher bit reaches. -/

namespace Sys2Proof.Machine

/-! ## The noise registers -/

theorem noiseStepSel_eq (b : Byte) : noiseStepSel b = if b.getLsbD 3 then .steps7 else .steps15 := by
  simp only [noiseStepSel, bitField_self_eq_one]

/-- DIV written out (R276). -/
theorem divisor_eq {drf : Nat} (h : drf ≤ 7) : divisor drf = 8 * (if drf = 0 then 1 else 2 * drf) := by
  interval_cases drf <;> rfl

/-- A write of the noise registers changes those of their four fields that it does not write back. -/
theorem sameBut_setNoise (s : Synth) {fs : List SynthField} {x : Noise}
    (hlfsr : .lfsr ∈ fs ∨ x.lfsr = s.noise.lfsr := by simp)
    (hscf : .scf ∈ fs ∨ x.scf = s.noise.scf := by simp)
    (hdrf : .drf ∈ fs ∨ x.drf = s.noise.drf := by simp)
    (hsel : .stepSel ∈ fs ∨ x.stepSel = s.noise.stepSel := by simp) :
    Synth.SameBut fs s (s.setNoise x) := by
  intro f hf
  cases f with
  | lfsr => simp [Synth.get, hlfsr.resolve_left hf]
  | scf => simp [Synth.get, hscf.resolve_left hf]
  | drf => simp [Synth.get, hdrf.resolve_left hf]
  | stepSel => simp [Synth.get, hsel.resolve_left hf]
  | _ => simp [Synth.get]

/-! ## One shift, bit by bit (R278) -/

/-- The fed-back word, moved to place `p`, is the exclusive or of the two lowest bits there and 0 elsewhere. -/
theorem getLsbD_lfsr_feedback (x : BitVec 15) (p : Nat) {i : Nat} (hi : i < 15) :
    (((x &&& 1) ^^^ ((x >>> 1) &&& 1)) <<< p).getLsbD i =
      (decide (i = p) && (x.getLsbD 0 ^^ x.getLsbD 1)) := by
  rw [BitVec.getLsbD_shiftLeft]
  obtain hlt | rfl | hgt := Nat.lt_trichotomy i p
  · simp [hlt, hlt.ne]
  · simp [hi]
  · obtain ⟨n, rfl⟩ := Nat.exists_eq_add_of_lt hgt
    simp [BitVec.getLsbD_one, Nat.add_assoc]

theorem getLsbD_lfsrShift_steps15 (x : BitVec 15) {i : Nat} (hi : i < 15) :
    (lfsrShift .steps15 x).getLsbD i =
      if i = 14 then x.getLsbD 0 ^^ x.getLsbD 1 else x.getLsbD (i + 1) := by
  simp only [lfsrShift, BitVec.getLsbD_or, BitVec.getLsbD_ushiftRight, getLsbD_lfsr_feedback x 14 hi]
  split_ifs with h
  · simp [h]
  · simp [h, Nat.add_comm]

/-- The 7-bit mode writes the fed-back bit over position 6 of what the 15-bit mode gives. -/
theorem lfsrShift_steps7 (x : BitVec 15) :
    lfsrShift .steps7 x = (lfsrShift .steps15 x &&& ~~~(0x40 : BitVec 15)) |||
      (((x &&& 1) ^^^ ((x >>> 1) &&& 1)) <<< 6) := rfl

theorem getLsbD_lfsrShift_steps7 (x : BitVec 15) {i : Nat} (hi : i < 15) :
    (lfsrShift .steps7 x).getLsbD i =
      if i = 14 ∨ i = 6 then x.getLsbD 0 ^^ x.getLsbD 1 else x.getLsbD (i + 1) := by
  have hmask : (~~~(0x40 : BitVec 15)).getLsbD i = decide (i ≠ 6) := by
    revert i
    decide
  rw [lfsrShift_steps7, BitVec.getLsbD_or, BitVec.getLsbD_and, hmask, getLsbD_lfsr_feedback x 6 hi,
    getLsbD_lfsrShift_steps15 x hi]
  by_cases h : i = 6 <;> simp [h]

/-- The register of zeros stays (R283). -/
theorem lfsrShift_zero (sel : StepSel) : lfsrShift sel 0 = 0 := by cases sel <;> rfl

/-! ## The 15-bit mode -/

/-- The shift of the 15-bit mode is linear over exclusive or. -/
theorem lfsrShift_steps15_xor (x y : BitVec 15) :
    lfsrShift .steps15 (x ^^^ y) = lfsrShift .steps15 x ^^^ lfsrShift .steps15 y := by
  refine BitVec.eq_of_getLsbD_eq fun i hi => ?_
  rw [BitVec.getLsbD_xor, getLsbD_lfsrShift_steps15 _ hi, getLsbD_lfsrShift_steps15 _ hi,
    getLsbD_lfsrShift_steps15 _ hi]
  split_ifs
  · rw [BitVec.getLsbD_xor, BitVec.getLsbD_xor, Bool.xor_assoc, Bool.xor_left_comm (y.getLsbD 0),
      Bool.xor_assoc]
  · exact BitVec.getLsbD_xor

/-- What is linear stays linear when repeated. -/
theorem repeated_xor {f : BitVec 15 → BitVec 15} (hf : ∀ x y, f (x ^^^ y) = f x ^^^ f y) (n : Nat)
    (x y : BitVec 15) : repeated f n (x ^^^ y) = repeated f n x ^^^ repeated f n y := by
  induction n generalizing x y with
  | zero => rfl
  | succ n ih => rw [repeated_succ, hf, ih, repeated_succ, repeated_succ]

theorem xor_cancel_middle (x y z : BitVec 15) : x ^^^ y ^^^ (y ^^^ z) = x ^^^ z := by
  rw [BitVec.xor_assoc, ← BitVec.xor_assoc y, BitVec.xor_self, BitVec.zero_xor]

/-- Until it is shifted out, a bit only moves down. -/
theorem getLsbD_repeated_lfsrShift_steps15 {i n : Nat} (h : i + n < 15) (x : BitVec 15) :
    (repeated (lfsrShift .steps15) n x).getLsbD i = x.getLsbD (i + n) := by
  induction n generalizing x with
  | zero => rfl
  | succ n ih =>
    rw [repeated_succ, ih (by omega), getLsbD_lfsrShift_steps15 x (by omega), if_neg (by omega),
      Nat.add_assoc]

/-- Fifteen shifts feed back, at each place, that bit and the one next to it. -/
theorem repeated_lfsrShift_steps15_fifteen (x : BitVec 15) :
    repeated (lfsrShift .steps15) 15 x = lfsrShift .steps15 x ^^^ x := by
  refine BitVec.eq_of_getLsbD_eq fun i hi => ?_
  have hlowest : ∀ y, (repeated (lfsrShift .steps15) i y).getLsbD 0 = y.getLsbD i := fun y => by
    rw [getLsbD_repeated_lfsrShift_steps15 (by omega), Nat.zero_add]
  have hnext : (repeated (lfsrShift .steps15) i x).getLsbD 1 = (lfsrShift .steps15 x).getLsbD i := by
    rw [← hlowest, ← repeated_succ, repeated_succ', getLsbD_lfsrShift_steps15 _ (by decide),
      if_neg (by decide)]
  calc (repeated (lfsrShift .steps15) 15 x).getLsbD i
      = (repeated (lfsrShift .steps15) 15 (repeated (lfsrShift .steps15) i x)).getLsbD 0 := by
        rw [← hlowest, ← repeated_add, ← repeated_add, Nat.add_comm]
    _ = (lfsrShift .steps15 (repeated (lfsrShift .steps15) i x)).getLsbD 14 := by
        rw [repeated_succ, getLsbD_repeated_lfsrShift_steps15 (by decide)]
    _ = (x.getLsbD i ^^ (lfsrShift .steps15 x).getLsbD i) := by
        rw [getLsbD_lfsrShift_steps15 _ (by decide), if_pos rfl, hlowest, hnext]
    _ = (lfsrShift .steps15 x ^^^ x).getLsbD i := by rw [BitVec.getLsbD_xor, Bool.xor_comm]

/-- The same relation between repetitions, by squaring: what is added twice cancels. -/
theorem repeated_lfsrShift_steps15_fifteen_mul (k : Nat) (x : BitVec 15) :
    repeated (lfsrShift .steps15) (15 * 2 ^ k) x = repeated (lfsrShift .steps15) (2 ^ k) x ^^^ x := by
  induction k generalizing x with
  | zero => exact repeated_lfsrShift_steps15_fifteen x
  | succ k ih =>
    have hdouble : 15 * 2 ^ (k + 1) = 15 * 2 ^ k + 15 * 2 ^ k := by ring
    rw [hdouble, pow_succ, Nat.mul_two, repeated_add, repeated_add, ih, ih,
      repeated_xor lfsrShift_steps15_xor]
    exact xor_cancel_middle _ _ _

/-- Sixteen shifts are two and one, at every power of two. -/
theorem repeated_lfsrShift_steps15_two_pow (k : Nat) (x : BitVec 15) :
    repeated (lfsrShift .steps15) (2 ^ (k + 4)) x =
      repeated (lfsrShift .steps15) (2 ^ (k + 1)) x ^^^ repeated (lfsrShift .steps15) (2 ^ k) x := by
  have hsplit : 2 ^ (k + 4) = 2 ^ k + 15 * 2 ^ k := by ring
  rw [hsplit, repeated_add, repeated_lfsrShift_steps15_fifteen_mul, ← repeated_add, pow_succ, Nat.mul_two]

/-- A sequence with `u (k + 4) = u (k + 1) ^^^ u k` repeats after fifteen places. -/
theorem xor_recurrence_period {u : Nat → BitVec 15} (h : ∀ k, u (k + 4) = u (k + 1) ^^^ u k) (k : Nat) :
    u (k + 15) = u k := by
  have h9 : u (k + 9) = u (k + 3) ^^^ u (k + 1) := by
    rw [h (k + 5), h (k + 2), h (k + 1), xor_cancel_middle]
  calc u (k + 15) = u (k + 9) ^^^ u (k + 7) := by
        rw [h (k + 11), h (k + 8), h (k + 7), xor_cancel_middle]
    _ = u (k + 1) ^^^ u (k + 4) := by
        rw [h9, h (k + 3), BitVec.xor_comm (u (k + 3)), BitVec.xor_comm (u (k + 4)), xor_cancel_middle]
    _ = u k := by rw [h k, ← BitVec.xor_assoc, BitVec.xor_self, BitVec.zero_xor]

/-- 32767 shifts lead back to the seed, as 32768 are one shift of the register before it. -/
theorem repeated_lfsrShift_steps15_period :
    repeated (lfsrShift .steps15) 32767 0x7FFF = 0x7FFF := by
  have hseed : (0x7FFF : BitVec 15) = lfsrShift .steps15 0x7FFE := by decide
  have hcycle := xor_recurrence_period (u := fun k => repeated (lfsrShift .steps15) (2 ^ k) 0x7FFE)
    (fun k => repeated_lfsrShift_steps15_two_pow k _) 0
  have hpow : 32767 + 1 = 2 ^ (0 + 15) := by norm_num
  rw [hseed, ← repeated_succ, hpow]
  exact hcycle

theorem repeated_eq_iterate {α : Type} (f : α → α) (n : Nat) : repeated f n = f^[n] := by
  induction n with
  | zero => rfl
  | succ n ih => exact congrArg (· ∘ f) ih

theorem isPeriodicPt_iff_repeated {α : Type} {f : α → α} {n : Nat} {x : α} :
    Function.IsPeriodicPt f n x ↔ repeated f n x = x := by
  rw [repeated_eq_iterate]
  rfl

/-- A proper divisor of 32767 = 7 · 31 · 151 misses one of the three primes. -/
theorem dvd_of_dvd_32767 {d : Nat} (h : d ∣ 32767) (hlt : d < 32767) : d ∣ 217 ∨ d ∣ 1057 ∨ d ∣ 4681 := by
  obtain ⟨a, m, ha, hm, rfl⟩ := exists_dvd_and_dvd_of_dvd_mul (show d ∣ 7 * (31 * 151) from h)
  obtain ⟨b, c, hb, hc, rfl⟩ := exists_dvd_and_dvd_of_dvd_mul hm
  obtain rfl | rfl := (Nat.dvd_prime (by norm_num)).1 ha
  · exact Or.inr (Or.inr (by simpa using hm))
  obtain rfl | rfl := (Nat.dvd_prime (by norm_num)).1 hb
  · exact Or.inr (Or.inl (by simpa using Nat.mul_dvd_mul_left 7 hc))
  obtain rfl | rfl := (Nat.dvd_prime (by norm_num)).1 hc
  · decide
  · exact absurd hlt (by decide)

/-- None of 32767's largest proper divisors is a period. The long runs are cut by the relation above first. -/
theorem repeated_lfsrShift_steps15_ne {n : Nat} (h : n = 217 ∨ n = 1057 ∨ n = 4681) :
    repeated (lfsrShift .steps15) n 0x7FFF ≠ 0x7FFF := by
  have hshorten : ∀ m k, repeated (lfsrShift .steps15) (m + 2 ^ (k + 4)) 0x7FFF =
      repeated (lfsrShift .steps15) (m + 2 ^ (k + 1)) 0x7FFF ^^^
        repeated (lfsrShift .steps15) (m + 2 ^ k) 0x7FFF := fun m k => by
    simp only [repeated_add, repeated_lfsrShift_steps15_two_pow]
  obtain rfl | rfl | rfl := h
  · decide +kernel
  · exact fun h => absurd ((hshorten 33 6).symm.trans h) (by decide +kernel)
  · exact fun h => absurd ((hshorten 585 8).symm.trans h) (by decide +kernel)

/-- An earlier return would be one after a proper divisor of 32767. -/
theorem repeated_lfsrShift_steps15_ne_of_lt {j : Nat} (hpos : 0 < j) (hlt : j < 32767) :
    repeated (lfsrShift .steps15) j 0x7FFF ≠ 0x7FFF := by
  intro hj
  have hgcd := (isPeriodicPt_iff_repeated.2 hj).gcd
    (isPeriodicPt_iff_repeated.2 repeated_lfsrShift_steps15_period)
  have hcandidate : ∀ n, n = 217 ∨ n = 1057 ∨ n = 4681 → ¬j.gcd 32767 ∣ n := fun n hn hdvd =>
    repeated_lfsrShift_steps15_ne hn (isPeriodicPt_iff_repeated.1 (hgcd.trans_dvd hdvd))
  obtain h | h | h := dvd_of_dvd_32767 (Nat.gcd_dvd_right j 32767)
    ((Nat.gcd_le_left _ hpos).trans_lt hlt) <;>
    exact hcandidate _ (by decide) h

/-! ## The 7-bit mode -/

/-- The low seven bits agree. -/
abbrev LowSevenEq (x y : BitVec 15) : Prop := x.setWidth 7 = y.setWidth 7

theorem lowSevenEq_iff_getLsbD {x y : BitVec 15} :
    LowSevenEq x y ↔ ∀ i < 7, x.getLsbD i = y.getLsbD i := by
  refine ⟨fun h i hi => ?_, fun h => BitVec.eq_of_getLsbD_eq fun i hi => ?_⟩
  · simpa [hi] using congrArg (·.getLsbD i) h
  · simpa [hi] using h i hi

theorem lowSevenEq_zero_iff_mod {x : BitVec 15} : LowSevenEq x 0 ↔ x.toNat % 128 = 0 := by
  simp [LowSevenEq, BitVec.toNat_eq]

/-- No bit above the low seven reaches them. -/
theorem LowSevenEq.shift {x y : BitVec 15} (h : LowSevenEq x y) :
    LowSevenEq (lfsrShift .steps7 x) (lfsrShift .steps7 y) := by
  rw [lowSevenEq_iff_getLsbD] at h ⊢
  intro i hi
  rw [getLsbD_lfsrShift_steps7 x (by omega), getLsbD_lfsrShift_steps7 y (by omega), h 0 (by decide),
    h 1 (by decide)]
  split_ifs
  · rfl
  · exact h (i + 1) (by omega)

theorem LowSevenEq.shifts {x y : BitVec 15} (h : LowSevenEq x y) (n : Nat) :
    LowSevenEq (repeated (lfsrShift .steps7) n x) (repeated (lfsrShift .steps7) n y) := by
  induction n generalizing x y with
  | zero => exact h
  | succ n ih => exact ih h.shift

theorem LowSevenEq.sample_eq {x y : BitVec 15} (h : LowSevenEq x y) :
    noiseSample x = noiseSample y := by
  rw [noiseSample_eq, noiseSample_eq, lowSevenEq_iff_getLsbD.1 h 0 (by decide)]

/-- The low seven bits of the seed come back after 127 shifts. -/
theorem lowSevenEq_seed : LowSevenEq (repeated (lfsrShift .steps7) 127 0x7FFF) 0x7FFF := by
  decide +kernel

theorem noiseSample_steps7_period (j : Nat) :
    noiseSample (repeated (lfsrShift .steps7) (j + 127) 0x7FFF) =
      noiseSample (repeated (lfsrShift .steps7) j 0x7FFF) := by
  rw [Nat.add_comm, repeated_add]
  exact (lowSevenEq_seed.shifts j).sample_eq

/-! ### The lock-up (R283) -/

/-- The low seven bits are 0, and so is every bit from `n` up. -/
def LockedBelow (n : Nat) (x : BitVec 15) : Prop := ∀ i, i < 7 ∨ n ≤ i → x.getLsbD i = false

/-- A locked register feeds back 0, so that the bits above the low seven move down and none comes in. -/
theorem LockedBelow.shift {n : Nat} {x : BitVec 15} (h : LockedBelow (n + 1) x) :
    LockedBelow n (lfsrShift .steps7 x) := by
  intro i hi
  by_cases hlt : i < 15
  · rw [getLsbD_lfsrShift_steps7 x hlt, h 0 (by omega), h 1 (by omega)]
    split_ifs
    · rfl
    · exact h (i + 1) (by omega)
  · exact BitVec.getLsbD_of_ge _ _ (by omega)

theorem LockedBelow.shifts {n m : Nat} {x : BitVec 15} (h : LockedBelow (n + m) x) :
    LockedBelow n (repeated (lfsrShift .steps7) m x) := by
  induction m generalizing x with
  | zero => exact h
  | succ m ih => exact ih h.shift

/-- No register has a bit from place 15 up. -/
theorem lockedBelow_fifteen {x : BitVec 15} (h : LowSevenEq x 0) : LockedBelow 15 x := by
  intro i hi
  obtain hlow | hhigh := hi
  · exact (lowSevenEq_iff_getLsbD.1 h i hlow).trans BitVec.getLsbD_zero
  · exact BitVec.getLsbD_of_ge _ _ hhigh

theorem LockedBelow.eq_zero {x : BitVec 15} (h : LockedBelow 7 x) : x = 0 :=
  BitVec.eq_of_getLsbD_eq fun i _ => (h i (by omega)).trans BitVec.getLsbD_zero.symm

theorem repeated_lfsrShift_zero (sel : StepSel) (n : Nat) : repeated (lfsrShift sel) n 0 = 0 :=
  repeated_induction (P := (· = 0)) (fun _ h => h ▸ lfsrShift_zero sel) n rfl

/-! ## The noise channel's timer -/

/-- `j` whole periods after a reset ch4 has shifted its register `j` times, and plays its bit 0 inverted. -/
theorem stepTimer_ch4_after_reset (j : Nat) {s : Synth} (h : s.noise.drf ≤ 7) :
    let t := stepTimer .ch4 (j * (divisor s.noise.drf * 2 ^ s.noise.scf)) (resetChan .ch4 s)
    t.noise.lfsr = repeated (lfsrShift s.noise.stepSel) j 0x7FFF ∧
      (t.common .ch4).raw = noiseSample t.noise.lfsr := by
  intro t
  have hcommon := common_resetChan .ch4 s
  have hnoise : (resetChan .ch4 s).noise = { s.noise with lfsr := 0x7FFF } := rfl
  have hperiod : period (resetChan .ch4 s) .ch4 = divisor s.noise.drf * 2 ^ s.noise.scf := rfl
  have hpos : 0 < divisor s.noise.drf * 2 ^ s.noise.scf := by
    rw [divisor_eq h]
    split_ifs <;> positivity
  refine ⟨(lfsr_repeated_rollover _ _).trans ?_, raw_stepTimer_of_latched (by rw [hcommon]) _⟩
  rw [hperiod, hcommon, noise_setCommon, hnoise, Nat.zero_add, Nat.mul_div_cancel _ hpos]

/-! ## The statements -/

/-- Settles O33: each setter writes its fields of the noise registers and writes the others back. -/
theorem noiseSettersLoadTheirFields : Obligations.NoiseSettersLoadTheirFields := by
  refine ⟨fun b s => ⟨_, rfl, changesOnly_setSynth (sameBut_setNoise _), ?scf, ?stepSel, ?drf⟩,
    fun n s => ⟨_, rfl, changesOnly_setSynth (sameBut_setNoise _), rfl⟩,
    fun n s => ⟨_, rfl, changesOnly_setSynth (sameBut_setNoise _), rfl⟩,
    fun m s => ⟨_, rfl, changesOnly_setSynth (sameBut_setNoise _), rfl⟩⟩
  case scf => exact congrArg (fun n => Returned.nat (min n 13)) (bitField_seven_four b)
  case stepSel => exact congrArg Returned.stepSel (noiseStepSel_eq b)
  case drf => exact congrArg Returned.nat (bitField_two_zero b)

/-- Settles O34, from the one bit that is fed back. -/
theorem lfsrShiftBitByBit : Obligations.LfsrShiftBitByBit :=
  fun x _ hi => ⟨getLsbD_lfsrShift_steps15 x hi, getLsbD_lfsrShift_steps7 x hi⟩

/-- Settles O35: `j` rollovers from the seed, whose sample the reset has put in place. -/
theorem noiseChannelShiftsTheLfsr : Obligations.NoiseChannelShiftsTheLfsr := by
  intro j s hdrf
  obtain ⟨hlfsr, hraw⟩ := stepTimer_ch4_after_reset j hdrf
  rw [noiseSample_eq] at hraw
  rw [← divisor_eq hdrf]
  exact ⟨_, rfl, hlfsr, congrArg Returned.nat hraw⟩

/-- Settles O36, by the linear recurrence of the 15-bit mode and the low seven bits of the 7-bit mode. -/
theorem noiseRepeatsAndLocksUp : Obligations.NoiseRepeatsAndLocksUp := by
  refine ⟨⟨repeated_lfsrShift_steps15_period, fun j => repeated_lfsrShift_steps15_ne_of_lt⟩,
    noiseSample_steps7_period, fun x hx => ⟨fun j => ?_, ?_⟩, lfsrShift_zero⟩
  · have hlow := (lowSevenEq_zero_iff_mod.2 hx).shifts j
    rw [repeated_lfsrShift_zero] at hlow
    exact ⟨lowSevenEq_zero_iff_mod.1 hlow, hlow.sample_eq⟩
  · exact (lockedBelow_fifteen (lowSevenEq_zero_iff_mod.2 hx)).shifts (n := 7).eq_zero

end Sys2Proof.Machine

/-! PROOFS. 44_sequencer.md: the sequencer reset (O37), the frame event (O38), and the cycle advance in its
pieces (O39), its count (O40) and its splits (O41).

The timer advances of two different channels commute, and each forgets where it was split. So a piece of an
advance can be split anywhere before its boundary, and with it the whole advance; the count of frame events
then needs an induction over single cycles alone. -/

namespace Sys2Proof.Machine

/-! ## One channel's timer and what goes on beside it -/

/-- `g` lets the parts of a timer advance of channel `c` be: it keeps the timer and the period, and it commutes
with a write of the timer and with a rollover. -/
structure TimerBlind (c : Chan) (g : Synth → Synth) : Prop where
  timer : ∀ s, ((g s).common c).timer = (s.common c).timer
  period : ∀ s, period (g s) c = period s c
  setTimer : ∀ s t, g (s.setCommon c { s.common c with timer := t }) =
    (g s).setCommon c { (g s).common c with timer := t }
  rollover : ∀ s, rollover c (g s) = g (rollover c s)

theorem TimerBlind.stepTimer {c : Chan} {g : Synth → Synth} (h : TimerBlind c g) (k : Nat) (s : Synth) :
    stepTimer c k (g s) = g (stepTimer c k s) := by
  simp only [Machine.stepTimer, h.timer, h.period, ← h.setTimer, repeated_comm _ g h.rollover]

theorem timerBlind_withSeq (c : Chan) (x : Sequencer) : TimerBlind c fun s => { s with seq := x } where
  timer _ := by simp
  period s := period_congr c (by simp) rfl rfl
  setTimer _ _ := by cases c <;> rfl
  rollover _ := by cases c <;> rfl

theorem rollover_comm (c c' : Chan) (s : Synth) :
    rollover c (rollover c' s) = rollover c' (rollover c s) := by
  cases c <;> cases c' <;> rfl

/-- No rollover looks at a timer, its own channel's or another's. -/
theorem rollover_setTimer_any (c c' : Chan) (s : Synth) (t : Nat) :
    rollover c' (s.setCommon c { s.common c with timer := t }) =
      (rollover c' s).setCommon c { (rollover c' s).common c with timer := t } := by
  cases c <;> cases c' <;> rfl

section OtherChannel

variable {c c' : Chan} (hne : c ≠ c')
include hne

theorem setCommon_comm (s : Synth) (x y : Common) :
    (s.setCommon c x).setCommon c' y = (s.setCommon c' y).setCommon c x := by
  revert hne
  cases c <;> cases c' <;> simp [Synth.setCommon]

theorem timerBlind_rollover : TimerBlind c (rollover c') where
  timer s := by
    obtain ⟨r, hr⟩ := common_rollover c' c s
    rw [hr, if_neg hne]
  period := period_rollover c' c
  setTimer := rollover_setTimer_any c c'
  rollover := rollover_comm c c'

theorem timerBlind_setTimer (t : Nat) :
    TimerBlind c fun s => s.setCommon c' { s.common c' with timer := t } where
  timer s := by simp [hne]
  period s := period_congr c (by simp [hne]) (by simp) (by simp)
  setTimer s t := by simp [hne, hne.symm, setCommon_comm hne]
  rollover s := rollover_setTimer_any c' c s t

theorem timerBlind_stepTimer (k : Nat) : TimerBlind c (stepTimer c' k) where
  timer := stepTimer_keeps (fun s => (s.common c).timer) c' (timerBlind_rollover hne).timer
    (fun s x => by simp [hne]) k
  period := stepTimer_keeps (fun s => period s c) c' (period_rollover c' c)
    (fun s x => period_congr c (by simp [hne]) (by simp) (by simp)) k
  setTimer s t := (timerBlind_setTimer hne.symm t).stepTimer k s
  rollover s := ((timerBlind_rollover hne.symm).stepTimer k s).symm

end OtherChannel

/-! ## Timer advances split -/

/-- The rollovers of two advances in a row are those of the sum, for a period of 0 too. -/
theorem div_add_mod_add_div (t b p : Nat) : t / p + (t % p + b) / p = (t + b) / p := by
  rcases Nat.eq_zero_or_pos p with rfl | hp
  · simp
  · have hsum : t + b = t % p + b + t / p * p := by
      have := Nat.mod_add_div' t p
      omega
    rw [hsum, Nat.add_mul_div_right _ _ hp, Nat.add_comm]

/-- The rollovers of an advance, whatever the timer is set to after it. -/
theorem setTimer_stepTimer (c : Chan) (k t : Nat) (s : Synth) :
    (stepTimer c k s).setCommon c { (stepTimer c k s).common c with timer := t } =
      repeated (rollover c) (((s.common c).timer + k) / period s c)
        (s.setCommon c { s.common c with timer := t }) := by
  have hcomm := fun n x => repeated_comm (rollover c)
    (fun y => y.setCommon c { y.common c with timer := t }) (fun y => rollover_setTimer c y t) n x
  rw [stepTimer, ← hcomm]
  simp

/-- A timer does not remember where its advance was split (R145, R88). -/
theorem stepTimer_add (c : Chan) (a b : Nat) (s : Synth) :
    stepTimer c (a + b) s = stepTimer c b (stepTimer c a s) := by
  symm
  rw [stepTimer, timer_stepTimer, period_stepTimer, setTimer_stepTimer, ← repeated_add,
    div_add_mod_add_div, Nat.mod_add_mod, Nat.add_assoc]
  rfl

theorem stepTimers_add (a b : Nat) (s : Synth) : stepTimers (a + b) s = stepTimers b (stepTimers a s) := by
  have swap : ∀ c c' : Chan, c ≠ c' → ∀ x,
      stepTimer c b (stepTimer c' a x) = stepTimer c' a (stepTimer c b x) :=
    fun c c' hne x => (timerBlind_stepTimer hne a).stepTimer b x
  simp only [stepTimers, stepTimer_add, swap .ch1 .ch2 nofun, swap .ch1 .ch3 nofun, swap .ch1 .ch4 nofun,
    swap .ch2 .ch3 nofun, swap .ch2 .ch4 nofun, swap .ch3 .ch4 nofun]

theorem stepTimers_withSeq (k : Nat) (s : Synth) (x : Sequencer) :
    stepTimers k { s with seq := x } = { stepTimers k s with seq := x } := by
  have step := fun c y => (timerBlind_withSeq c x).stepTimer k y
  simp only [stepTimers, step]

/-! ## One piece of the advance -/

/-- A piece that does not end at the boundary only steps the timers and counts (R310). -/
theorem advancePiece_inside (dc : Bool) {k : Nat} {s : Synth} (h : s.seq.acc + k ≠ 8192) :
    advancePiece dc k s = { stepTimers k s with seq := ⟨s.seq.step, s.seq.acc + k⟩ } := by
  simp [advancePiece, Config.framePeriod, h]

/-- A piece that ends at the boundary clears the count, runs the event and moves the step (R310, R304). -/
theorem advancePiece_boundary (dc : Bool) {k : Nat} {s : Synth} (h : s.seq.acc + k = 8192) :
    advancePiece dc k s =
      { frameEvent dc s.seq.step { stepTimers k s with seq := ⟨s.seq.step, 0⟩ } with
        seq := ⟨(s.seq.step + 1) % 8, 0⟩ } := by
  simp [advancePiece, frameBoundary, Config.framePeriod, h]

theorem advancePiece_add (dc : Bool) {a : Nat} (b : Nat) {s : Synth} (h : s.seq.acc + a ≠ 8192) :
    advancePiece dc (a + b) s = advancePiece dc b (advancePiece dc a s) := by
  rw [advancePiece_inside dc h]
  simp only [advancePiece, stepTimers_withSeq, stepTimers_add, seq_stepTimers, Nat.add_assoc]

/-! ## The whole advance -/

/-- An advance that does not pass the boundary is one piece (R310). -/
theorem advanceCycles_of_le (dc : Bool) {n : Nat} {s : Synth} (hn : 0 < n) (h : s.seq.acc + n ≤ 8192)
    (hs : s.seq.acc < 8192) : advanceCycles dc n s = advancePiece dc n s := by
  rw [advanceCycles_turn dc hn hs, Nat.min_eq_left (by omega), Nat.sub_self, advanceCycles_zero]

/-- An advance that reaches the boundary is the piece up to it and then the rest (R310). -/
theorem advanceCycles_of_ge (dc : Bool) {n : Nat} {s : Synth} (h : 8192 - s.seq.acc ≤ n)
    (hs : s.seq.acc < 8192) :
    advanceCycles dc n s =
      advanceCycles dc (n - (8192 - s.seq.acc)) (advancePiece dc (8192 - s.seq.acc) s) := by
  rw [advanceCycles_turn dc (by omega) hs, Nat.min_eq_right h]

/-- A piece short of the boundary, and then the rest of the advance. -/
theorem advanceCycles_piece (dc : Bool) {a : Nat} (b : Nat) {s : Synth} (ha : 0 < a)
    (h : s.seq.acc + a < 8192) :
    advanceCycles dc (a + b) s = advanceCycles dc b (advancePiece dc a s) := by
  have hs : s.seq.acc < 8192 := by omega
  have hseq : (advancePiece dc a s).seq.acc = s.seq.acc + a := by rw [seq_advancePiece, if_neg h.ne]
  rcases Nat.eq_zero_or_pos b with rfl | hb
  · exact advanceCycles_of_le dc ha h.le hs
  · have hmin : min (a + b) (8192 - s.seq.acc) = a + min b (8192 - (s.seq.acc + a)) := by omega
    rw [advanceCycles_turn dc (by omega) hs, advanceCycles_turn dc hb (by omega), hseq, hmin,
      advancePiece_add dc _ h.ne, Nat.add_sub_add_left]

/-- Time has no seams (R310, R88). -/
theorem advanceCycles_add (dc : Bool) (a b : Nat) {s : Synth} (h : s.seq.acc < 8192) :
    advanceCycles dc (a + b) s = advanceCycles dc b (advanceCycles dc a s) := by
  induction a using Nat.strong_induction_on generalizing s with
  | _ a ih =>
    rcases Nat.lt_or_ge a (8192 - s.seq.acc) with hinside | hreach
    · rcases Nat.eq_zero_or_pos a with rfl | ha
      · rw [Nat.zero_add, advanceCycles_zero]
      · rw [advanceCycles_piece dc b ha (by omega), advanceCycles_of_le dc ha (by omega) h]
    · have hnext : (advancePiece dc (8192 - s.seq.acc) s).seq.acc < 8192 := by
        rw [seq_advancePiece, if_pos (by omega)]
        exact Nat.zero_lt_succ _
      have hrest : a + b - (8192 - s.seq.acc) = a - (8192 - s.seq.acc) + b := by omega
      rw [advanceCycles_of_ge dc (by omega) h, advanceCycles_of_ge dc hreach h, hrest, ih _ (by omega) hnext]

/-- The sequencer after `n` cycles (R311, R304), one cycle after the other. -/
theorem seq_advanceCycles (dc : Bool) (n : Nat) {s : Synth} (hstep : s.seq.step < 8)
    (hacc : s.seq.acc < 8192) :
    (advanceCycles dc n s).seq =
      ⟨(s.seq.step + (s.seq.acc + n) / 8192) % 8, (s.seq.acc + n) % 8192⟩ := by
  induction n with
  | zero =>
    rw [advanceCycles_zero, Nat.add_zero, Nat.div_eq_of_lt hacc, Nat.mod_eq_of_lt hacc, Nat.add_zero,
      Nat.mod_eq_of_lt hstep]
  | succ n ih =>
    have hcount : (advanceCycles dc n s).seq.acc < 8192 := by
      rw [ih]
      exact Nat.mod_lt _ (Nat.zero_lt_succ _)
    rw [advanceCycles_add dc n 1 hacc, advanceCycles_of_le dc Nat.one_pos hcount hcount, seq_advancePiece, ih]
    split_ifs with hfull <;> simp only [Sequencer.mk.injEq] at hfull ⊢ <;> omega

/-- Counted from a sequencer reset, event `e` runs step `e mod 8` (R311). -/
theorem seq_advanceCycles_of_reset (dc : Bool) (n : Nat) (s : Synth) :
    (advanceCycles dc n { s with seq := ⟨0, 0⟩ }).seq = ⟨n / 8192 % 8, n % 8192⟩ := by
  rw [seq_advanceCycles dc n (Nat.zero_lt_succ 7) (Nat.zero_lt_succ 8191), Nat.zero_add, Nat.zero_add]

/-! ## Runs of operations -/

theorem exec_advance (n : Nat) (s : State) :
    exec (.advance n) s = .next (s.setSynth (advanceCycles s.params.sweepDoubleCheck n s.synth)) := rfl

theorem runAll_timerPieces (k : Nat) (s : State) :
    ∃ r, runAll (timerPieces k) s = some ((s.setSynth (stepTimers k s.synth)).giveBack r) := ⟨_, rfl⟩

theorem frameEvent_of_no_tick {n : Nat} (h : n ∉ [0, 2, 4, 6, 7]) (dc : Bool) (s : Synth) :
    frameEvent dc n s = s := by
  simp only [List.mem_cons, List.not_mem_nil, or_false, not_or] at h
  simp [frameEvent, h]

/-- The ticks that the schedule lists are those of the frame event, in its order (R302, R303). -/
theorem runAll_frameSchedule (n : Nat) (s : State) :
    ∃ u, runAll (frameSchedule n) s = some u ∧
      u.synth = frameEvent s.params.sweepDoubleCheck n s.synth := by
  unfold frameSchedule
  split
  case h_6 h0 h2 h4 h6 h7 =>
    have hn : n ∉ [0, 2, 4, 6, 7] := by simpa using ⟨h0, h2, h4, h6, h7⟩
    exact ⟨s, rfl, (frameEvent_of_no_tick hn _ _).symm⟩
  all_goals exact ⟨_, rfl, rfl⟩

theorem sameBut_withSeq (s : Synth) (x : Sequencer) :
    Synth.SameBut [.seqStep, .seqAcc] s { s with seq := x } := by
  intro f hf
  cases f with
  | seqStep | seqAcc => simp at hf
  | _ => simp [Synth.get]

/-! ## The statements -/

/-- Settles O37: the count starts again at 0, so 8192 cycles reach the boundary and 8191 do not. -/
theorem seqResetRestartsTheFrame : Obligations.SeqResetRestartsTheFrame := by
  intro s
  have hseq := seq_advanceCycles_of_reset s.params.sweepDoubleCheck
  exact ⟨_, rfl, rfl, changesOnly_setSynth (sameBut_withSeq _ _),
    ⟨_, exec_advance 8191 _, (hseq 8191 s.synth).trans (by norm_num)⟩,
    ⟨_, exec_advance 8192 _, (hseq 8192 s.synth).trans (by norm_num)⟩⟩

/-- Settles O38, by the rows of the schedule. -/
theorem frameEventFollowsTheSchedule : Obligations.FrameEventFollowsTheSchedule := by
  intro s
  obtain ⟨u, hrun, hsynth⟩ := runAll_frameSchedule s.synth.seq.step s
  exact ⟨_, u, rfl, hrun, hsynth.symm, ⟨rfl, rfl, rfl, rfl⟩, rfl, seq_frameEvent ..⟩

/-- Settles O39: inside the frame and at its boundary the advance is one piece, past it a piece and the
rest. -/
theorem advanceStopsAtEachFrame : Obligations.AdvanceStopsAtEachFrame := by
  intro n s hacc
  obtain ⟨r, hrun⟩ := runAll_timerPieces n s
  refine ⟨rfl, fun hlt hpos => ?inside, fun heq => ?boundary, fun hgt => ?past⟩
  case inside =>
    refine ⟨_, _, exec_advance n s, hrun, ⟨rfl, rfl, rfl, rfl⟩, ?_⟩
    rw [synth_setSynth, advanceCycles_of_le _ hpos (by omega) hacc, advancePiece_inside _ (by omega)]
    rfl
  case boundary =>
    refine ⟨_, _, _, exec_advance n s, hrun, ⟨rfl, rfl, rfl, rfl⟩, rfl, ?_⟩
    rw [synth_setSynth, advanceCycles_of_le _ (by omega) (by omega) hacc,
      advancePiece_boundary _ (by omega)]
    rfl
  case past =>
    have hsplit := advanceCycles_add s.params.sweepDoubleCheck (8192 - s.synth.seq.acc)
      (n - (8192 - s.synth.seq.acc)) hacc
    rw [Nat.add_sub_cancel' hgt.le] at hsplit
    refine ⟨_, _, exec_advance n s, rfl, ?_⟩
    rw [hsplit]
    rfl

/-- Settles O40, by the count of single cycles. -/
theorem advanceCountsFrameEvents : Obligations.AdvanceCountsFrameEvents := by
  intro n s hstep hacc
  have hseq := seq_advanceCycles s.params.sweepDoubleCheck n hstep hacc
  exact ⟨_, exec_advance n s, congrArg Sequencer.acc hseq, congrArg Sequencer.step hseq⟩

/-- Settles O41: of a legal Synth only the cycle count below 8192 is used. -/
theorem advanceSplitsAnywhere : Obligations.AdvanceSplitsAnywhere := by
  intro a b s hok
  obtain ⟨-, hacc⟩ := (s.synth.ok_iff_legal.1 hok).seq
  refine ⟨_, _, exec_advance (a + b) s, rfl, ?_⟩
  rw [advanceCycles_add _ a b hacc]
  rfl

end Sys2Proof.Machine

/-! PROOFS. 45_mixer.md: the mixer setters (O42), the mix of a terminal (O43) and its range (O44).

A terminal that is off has one equation and a terminal that is on another; the range is then that of each
channel's output, of their mean and of the volume's share. -/

namespace Sys2Proof.Machine

/-! ## Writes of the mixer registers -/

/-- A write of the mixer's registers changes those of its fields that it does not write back. -/
theorem sameBut_withMix (s : Synth) {fs : List SynthField} {x : Mixer}
    (hmask : .mixMask ∈ fs ∨ x.mask = s.mix.mask)
    (henable : ∀ t, .termEnable t ∈ fs ∨ x.termEnable.get t = s.mix.termEnable.get t)
    (hvol : ∀ t, .termVol t ∈ fs ∨ x.termVol.get t = s.mix.termVol.get t) :
    Synth.SameBut fs s { s with mix := x } := by
  intro f hf
  cases f with
  | mixMask => simp [Synth.get, hmask.resolve_left hf]
  | termEnable t => simp [Synth.get, (henable t).resolve_left hf]
  | termVol t => simp [Synth.get, (hvol t).resolve_left hf]
  | _ => simp [Synth.get]

/-- A write for one terminal leaves the other terminal's value. -/
theorem PerTerm.eq_or_get_set {α : Type} (p : PerTerm α) (t t' : Term) (v : α) :
    t' = t ∨ (p.set t v).get t' = p.get t' := by
  rw [PerTerm.get_set, or_iff_not_imp_left]
  exact fun h => if_neg h

/-! ## The mixer's output on a terminal -/

theorem mixTerm_of_off {m : Mixer} {t : Term} (h : m.termEnable.get t = false) (o : Chan → ℚ) :
    mixTerm m o t = 0 := by
  simp [mixTerm, h]

/-- R334, with the volume as a factor of its own. -/
theorem mixTerm_of_on {m : Mixer} {t : Term} (h : m.termEnable.get t = true) (o : Chan → ℚ) :
    mixTerm m o t =
      (routed m t o .ch1 + routed m t o .ch2 + routed m t o .ch3 + routed m t o .ch4) / 4 *
        ((m.termVol.get t : ℚ) / 7) := by
  simp [mixTerm, h, Config.maxTermVolume, mul_div_assoc]

theorem routed_eq_ite_mul (m : Mixer) (t : Term) (o : Chan → ℚ) (c : Chan) :
    routed m t o c = (if route m.mask t c then 1 else 0) * o c := by
  rw [routed, ite_mul, one_mul, zero_mul]

/-- One channel alone on a terminal at full volume (R336). -/
theorem mixTerm_of_route_only {m : Mixer} {t : Term} {c : Chan} (hon : m.termEnable.get t = true)
    (hvol : m.termVol.get t = 7) (hroute : ∀ c', route m.mask t c' = decide (c' = c)) (o : Chan → ℚ) :
    mixTerm m o t = o c / 4 := by
  have hrouted : ∀ c', routed m t o c' = if c' = c then o c' else 0 := fun c' => by
    simp [routed, hroute]
  simp only [mixTerm_of_on hon, hvol, hrouted]
  cases c <;> simp

/-! ## Outputs in [0, 1] -/

theorem routed_mem_Icc {m : Mixer} {t : Term} {o : Chan → ℚ} {c : Chan}
    (h : route m.mask t c = true → o c ∈ Set.Icc 0 1) : routed m t o c ∈ Set.Icc 0 1 :=
  iteInduction h fun _ => ⟨le_rfl, zero_le_one⟩

/-- The mean of four values in [0, 1], times a volume of at most 7 over 7 (R336). -/
theorem mixTerm_mem_Icc {m : Mixer} {t : Term} {o : Chan → ℚ} (hvol : m.termVol.get t ≤ 7)
    (ho : ∀ c, route m.mask t c = true → o c ∈ Set.Icc 0 1) : mixTerm m o t ∈ Set.Icc 0 1 := by
  cases hon : m.termEnable.get t with
  | false => simp [mixTerm_of_off hon]
  | true =>
    have hv : (m.termVol.get t : ℚ) / 7 ∈ Set.Icc 0 1 :=
      ⟨by positivity, div_le_one_of_le₀ (by exact_mod_cast hvol) (by norm_num)⟩
    obtain ⟨l1, u1⟩ := routed_mem_Icc (ho .ch1)
    obtain ⟨l2, u2⟩ := routed_mem_Icc (ho .ch2)
    obtain ⟨l3, u3⟩ := routed_mem_Icc (ho .ch3)
    obtain ⟨l4, u4⟩ := routed_mem_Icc (ho .ch4)
    rw [mixTerm_of_on hon]
    exact ⟨mul_nonneg (by positivity) hv.1, mul_le_one₀ (by linarith) hv.1 hv.2⟩

/-- A natural of at most 15, over 15: a raw sample or an envelope volume as R151 reads it. -/
theorem div_fifteen_mem_Icc {n : Nat} (h : n ≤ 15) : (n : ℚ) / 15 ∈ Set.Icc 0 1 :=
  ⟨by positivity, div_le_one_of_le₀ (by exact_mod_cast h) (by norm_num)⟩

/-- The raw sample times the envelope's volume, each over 15 (R151). -/
theorem Synth.Legal.level_toChan_div_mem_Icc {s : Synth} (h : s.Legal) (e : EnvChan) :
    level s e.toChan / 15 ∈ Set.Icc 0 1 := by
  obtain ⟨⟨-, -, hraw⟩, -⟩ := h.common e.toChan
  obtain ⟨-, hvolume, -⟩ := h.env e
  obtain ⟨hraw0, hraw1⟩ := div_fifteen_mem_Icc hraw
  obtain ⟨hvolume0, hvolume1⟩ := div_fifteen_mem_Icc hvolume
  rw [level_toChan_div]
  exact ⟨mul_nonneg hraw0 hvolume0, mul_le_one₀ hraw1 hvolume0 hvolume1⟩

/-- The raw sample, which the output level never makes larger (R242). -/
theorem Synth.Legal.level_ch3_div_mem_Icc {s : Synth} (h : s.Legal) :
    level s .ch3 / 15 ∈ Set.Icc 0 1 := by
  obtain ⟨⟨-, -, hraw⟩, -⟩ := h.common .ch3
  cases hl : s.wave.level <;> rw [level_ch3 hl]
  case mute => simp
  case full => exact div_fifteen_mem_Icc hraw
  case half => exact div_fifteen_mem_Icc ((Nat.div_le_self _ 2).trans hraw)
  case quarter => exact div_fifteen_mem_Icc ((Nat.div_le_self _ 4).trans hraw)

/-- The output of an enabled channel of a legal Synth lies in [0, 1] (R152). -/
theorem Synth.Legal.chanOut_mem_Icc {s : Synth} (h : s.Legal) {c : Chan}
    (hon : (s.common c).enabled = true) (ground : ℚ) : chanOut ground s c ∈ Set.Icc 0 1 := by
  rw [chanOut, if_pos hon]
  cases c with
  | ch1 => exact h.level_toChan_div_mem_Icc .ch1
  | ch2 => exact h.level_toChan_div_mem_Icc .ch2
  | ch3 => exact h.level_ch3_div_mem_Icc
  | ch4 => exact h.level_toChan_div_mem_Icc .ch4

/-! ## The statements -/

/-- Settles O42, by the one field that each setter does not write back. -/
theorem mixerSettersWriteTheirFields : Obligations.MixerSettersWriteTheirFields := by
  refine ⟨fun b s => ⟨_, rfl, changesOnly_setSynth ?mask, rfl⟩,
    fun t e s => ⟨_, rfl, changesOnly_setSynth ?enable, ?enabled⟩,
    fun t v s => ⟨_, rfl, changesOnly_setSynth ?vol, ?volume⟩⟩
  case mask => exact sameBut_withMix _ (.inl (by simp)) (fun _ => .inr rfl) fun _ => .inr rfl
  case enable =>
    refine sameBut_withMix _ (.inr rfl) (fun t' => ?_) fun _ => .inr rfl
    simpa using PerTerm.eq_or_get_set s.synth.mix.termEnable t t' e
  case vol =>
    refine sameBut_withMix _ (.inr rfl) (fun _ => .inr rfl) fun t' => ?_
    simpa using PerTerm.eq_or_get_set s.synth.mix.termVol t t' (min v 7)
  case enabled | volume => simp [Synth.get]

/-- Settles O43: each channel's route is its mask bit, a factor of 1 or 0. -/
theorem mixSumsTheRoutedChannels : Obligations.MixSumsTheRoutedChannels := by
  intro m o1 o2 o3 o4 t bit
  have henable : m.termEnable.get t =
    match t with | .left => m.termEnable.left | .right => m.termEnable.right := by cases t <;> rfl
  split
  next h => exact mixTerm_of_off (henable.trans h) _
  next h =>
    rw [mixTerm_of_on (henable.trans h)]
    simp only [routed_eq_ite_mul]
    cases t <;> rfl

/-- Settles O44: a legal level is at most 15, and a legal terminal volume at most 7. -/
theorem mixStaysInRange : Obligations.MixStaysInRange := by
  refine ⟨fun s t hok henabled => ?_,
    fun s t c hon hvol hroute => mixTerm_of_route_only hon hvol hroute _⟩
  have h := s.synth.ok_iff_legal.1 hok
  exact mixTerm_mem_Icc (h.mix t) fun c hc => h.chanOut_mem_Icc (henabled c hc) _

end Sys2Proof.Machine

/-! PROOFS. 46_synth.md: `step()` advances and then mixes (O45), no cycle is lost over many steps (O46), both
fills are repeated steps (O47, O48), and the queries show the whole state (O49).

The advance neither reads nor writes the fraction of a cycle, so the whole cycles of many steps join into one
advance. A fill is followed frame by frame, the last frame first, for a later frame is written last. -/

namespace Sys2Proof.Machine

/-! ## The fraction of a cycle stands apart from the advance -/

/-- The Synth with another fraction of a cycle. -/
def Synth.setFacc (s : Synth) (x : ℚ) : Synth := { s with facc := x }

@[simp] theorem facc_setFacc (s : Synth) (x : ℚ) : (s.setFacc x).facc = x := rfl

@[simp] theorem seq_setFacc (s : Synth) (x : ℚ) : (s.setFacc x).seq = s.seq := rfl

@[simp] theorem setFacc_setFacc (s : Synth) (x y : ℚ) : (s.setFacc x).setFacc y = s.setFacc y := rfl

@[simp] theorem common_setFacc (s : Synth) (x : ℚ) (c : Chan) : (s.setFacc x).common c = s.common c :=
  common_with_facc s x c

@[simp] theorem setFacc_facc (s : Synth) : s.setFacc s.facc = s := rfl

/-- `f` neither reads the fraction of a cycle nor writes it. -/
def FaccBlind (f : Synth → Synth) : Prop := ∀ s x, f (s.setFacc x) = (f s).setFacc x

theorem FaccBlind.facc {f : Synth → Synth} (h : FaccBlind f) (s : Synth) : (f s).facc = s.facc :=
  calc (f s).facc = ((f s).setFacc s.facc).facc := congrArg Synth.facc (h s s.facc)
    _ = s.facc := rfl

theorem FaccBlind.comp {f g : Synth → Synth} (hf : FaccBlind f) (hg : FaccBlind g) :
    FaccBlind fun s => f (g s) := fun s x => (congrArg f (hg s x)).trans (hf (g s) x)

/-- A choice by what does not depend on the fraction. -/
theorem FaccBlind.ite {p : Synth → Prop} [DecidablePred p] (hp : ∀ s x, p (s.setFacc x) ↔ p s)
    {f g : Synth → Synth} (hf : FaccBlind f) (hg : FaccBlind g) :
    FaccBlind fun s => if p s then f s else g s := by
  intro s x
  by_cases h : p s
  · simpa only [hp, h, if_true] using hf s x
  · simpa only [hp, h, if_false] using hg s x

theorem timerBlind_setFacc (c : Chan) (x : ℚ) : TimerBlind c fun s => s.setFacc x where
  timer _ := by simp
  period s := period_congr c (by simp) rfl rfl
  setTimer _ _ := by cases c <;> rfl
  rollover _ := by cases c <;> rfl

theorem faccBlind_stepTimers (k : Nat) : FaccBlind (stepTimers k) := by
  have timer : ∀ c, FaccBlind (stepTimer c k) := fun c s x => (timerBlind_setFacc c x).stepTimer k s
  exact (timer .ch4).comp ((timer .ch3).comp ((timer .ch2).comp (timer .ch1)))

theorem faccBlind_disableChan (c : Chan) : FaccBlind (disableChan c) := fun _ _ => by cases c <;> rfl

theorem faccBlind_lengthTick (c : Chan) : FaccBlind (lengthTick c) := by
  have count : FaccBlind fun s => s.setCommon c { s.common c with length := (s.common c).length - 1 } :=
    fun _ _ => by cases c <;> rfl
  refine FaccBlind.ite (fun s x => ?_) (FaccBlind.ite (fun s x => ?_) ((faccBlind_disableChan c).comp count)
    count) fun _ _ => rfl
  all_goals rw [common_setFacc]

theorem faccBlind_envTick (e : EnvChan) : FaccBlind (envTick e) := fun _ _ => by cases e <;> rfl

theorem faccBlind_sweepEvent (dc : Bool) : FaccBlind (sweepEvent dc) := by
  have commit : FaccBlind fun s => sweepCommit (s.sweep.calc s.sweep.shadow) s := fun _ _ => rfl
  have check : FaccBlind fun s => disableOnOverflow (s.sweep.calc (s.sweep.calc s.sweep.shadow))
      (sweepCommit (s.sweep.calc s.sweep.shadow) s) :=
    FaccBlind.ite (fun _ _ => Iff.rfl) ((faccBlind_disableChan .ch1).comp commit) commit
  exact FaccBlind.ite (fun _ _ => Iff.rfl) (faccBlind_disableChan .ch1)
    (FaccBlind.ite (fun _ _ => Iff.rfl) (fun _ _ => rfl)
      (FaccBlind.ite (fun _ _ => Iff.rfl) check commit))

theorem faccBlind_sweepTick (dc : Bool) : FaccBlind (sweepTick dc) :=
  FaccBlind.ite (fun _ _ => Iff.rfl) (fun _ _ => rfl) <|
    FaccBlind.ite (fun _ _ => Iff.rfl) (fun _ _ => rfl)
      ((faccBlind_sweepEvent dc).comp (g := fun s => s.setSweep { s.sweep with counter := s.sweep.period })
        fun _ _ => rfl)

theorem faccBlind_frameEvent (dc : Bool) (n : Nat) : FaccBlind (frameEvent dc n) := by
  have lengths : FaccBlind lengthTicks :=
    (faccBlind_lengthTick .ch4).comp <| (faccBlind_lengthTick .ch3).comp <|
      (faccBlind_lengthTick .ch2).comp (faccBlind_lengthTick .ch1)
  have envelopes : FaccBlind envTicks :=
    (faccBlind_envTick .ch4).comp ((faccBlind_envTick .ch2).comp (faccBlind_envTick .ch1))
  have orNot : ∀ (p : Prop) [Decidable p] {f : Synth → Synth}, FaccBlind f →
      FaccBlind fun s => if p then f s else s :=
    fun _ _ _ hf => FaccBlind.ite (fun _ _ => Iff.rfl) hf fun _ _ => rfl
  exact (orNot (n = 7) envelopes).comp <| (orNot (n ∈ [2, 6]) (faccBlind_sweepTick dc)).comp <|
    orNot (n ∈ [0, 2, 4, 6]) lengths

theorem faccBlind_frameBoundary (dc : Bool) : FaccBlind (frameBoundary dc) := fun s x =>
  congrArg (fun t : Synth => { t with seq := { t.seq with step := (t.seq.step + 1) % 8 } })
    (faccBlind_frameEvent dc s.seq.step { s with seq := { s.seq with acc := 0 } } x)

theorem faccBlind_advancePiece (dc : Bool) (k : Nat) : FaccBlind (advancePiece dc k) := by
  have count : FaccBlind fun s => { s with seq := { s.seq with acc := s.seq.acc + k } } := fun _ _ => rfl
  have boundary : FaccBlind fun s => if s.seq.acc = Config.framePeriod then frameBoundary dc s else s :=
    FaccBlind.ite (fun _ _ => Iff.rfl) (faccBlind_frameBoundary dc) fun _ _ => rfl
  exact (boundary.comp count).comp (faccBlind_stepTimers k)

/-- The turns of R310's loop are cut by the cycle count alone. -/
theorem faccBlind_advanceCycles (dc : Bool) (n : Nat) : FaccBlind (advanceCycles dc n) := by
  have loop : ∀ fuel n, FaccBlind (advanceLoop dc fuel n) := by
    intro fuel
    induction fuel with
    | zero => exact fun _ _ _ => rfl
    | succ fuel ih =>
      intro n s x
      simp only [advanceLoop, seq_setFacc]
      split_ifs
      · rfl
      · rw [faccBlind_advancePiece, ih]
  exact loop n n

/-! ## One step and many (R350, R351) -/

theorem cyclesPerSample_eq (p : Params) : cyclesPerSample p = 4194304 / p.sampleRate := by
  norm_num [cyclesPerSample, Config.clock]

theorem cyclesPerSample_pos {p : Params} (hp : 0 < p.sampleRate) : 0 < cyclesPerSample p :=
  cyclesPerSample_eq p ▸ div_pos (by norm_num) hp

/-- A step advances the whole cycles owed, and keeps the rest. -/
theorem synthAfterStep_eq {p : Params} {s : Synth} (hp : 0 < p.sampleRate) (hf : 0 ≤ s.facc) :
    synthAfterStep p s = advanceCycles p.sweepDoubleCheck ⌊s.facc + cyclesPerSample p⌋₊
      (s.setFacc (Int.fract (s.facc + cyclesPerSample p))) := by
  have htotal : 0 ≤ s.facc + cyclesPerSample p := add_nonneg hf (cyclesPerSample_pos hp).le
  rw [synthAfterStep, sampleCycles, Int.floor_toNat, natCast_floor_eq_intCast_floor htotal,
    Int.self_sub_floor]
  rfl

/-- The whole cycles and the rest of a sum, where the rest alone of its first part is carried (R492). -/
theorem floor_add_of_carry {x y : ℚ} (hx : 0 ≤ x) (hy : 0 ≤ y) :
    ⌊x + y⌋₊ = ⌊x⌋₊ + ⌊Int.fract x + y⌋₊ := by
  have hsplit : x + y = ⌊x⌋₊ + (Int.fract x + y) := by
    rw [natCast_floor_eq_intCast_floor hx, ← add_assoc, Int.floor_add_fract]
  rw [hsplit, add_comm, Nat.floor_add_natCast (add_nonneg (Int.fract_nonneg x) hy), Nat.add_comm]

theorem fract_add_of_carry (x y : ℚ) : Int.fract (Int.fract x + y) = Int.fract (x + y) := by
  conv_rhs => rw [← Int.floor_add_fract x, add_assoc, Int.fract_intCast_add]

/-- `j` steps are one advance by the whole cycles of all `j` (R351, R492). -/
theorem repeated_synthAfterStep {p : Params} {s : Synth} (hp : 0 < p.sampleRate) (hs : s.Legal) (j : Nat) :
    repeated (synthAfterStep p) j s =
      (advanceCycles p.sweepDoubleCheck ⌊s.facc + j * cyclesPerSample p⌋₊ s).setFacc
        (Int.fract (s.facc + j * cyclesPerSample p)) := by
  have hcps := cyclesPerSample_pos hp
  obtain ⟨hf0, hf1⟩ := hs.facc
  induction j with
  | zero =>
    have hfloor : ⌊s.facc⌋₊ = 0 := Nat.floor_eq_zero.2 hf1
    simp [hfloor, Int.fract_eq_self.2 hs.facc]
  | succ j ih =>
    have htotal : 0 ≤ s.facc + j * cyclesPerSample p := by positivity
    have hnext : s.facc + (j + 1 : ℕ) * cyclesPerSample p =
        s.facc + j * cyclesPerSample p + cyclesPerSample p := by push_cast; ring
    rw [repeated_succ', ih, synthAfterStep_eq hp (Int.fract_nonneg _), facc_setFacc, setFacc_setFacc,
      faccBlind_advanceCycles, ← advanceCycles_add _ _ _ hs.seq.2, hnext,
      floor_add_of_carry htotal hcps.le, fract_add_of_carry]

/-! ## Runs of `step()` -/

/-- The machine after one `step()` (R351). -/
def State.afterSynthStep (s : State) : State :=
  { s with
    synth := synthAfterStep s.params s.synth
    returned := .pair (outOf s.params (synthAfterStep s.params s.synth) .left)
      (outOf s.params (synthAfterStep s.params s.synth) .right) }

theorem exec_synthStep (s : State) : exec .synthStep s = .next s.afterSynthStep := rfl

theorem runAll_synthSteps (j : Nat) (s : State) :
    runAll (List.replicate j .synthStep) s = some (repeated State.afterSynthStep j s) := by
  induction j generalizing s with
  | zero => rfl
  | succ j ih => exact ih s.afterSynthStep

theorem synth_repeated_afterSynthStep (j : Nat) (s : State) :
    (repeated State.afterSynthStep j s).synth = repeated (synthAfterStep s.params) j s.synth := by
  induction j generalizing s with
  | zero => rfl
  | succ j ih => exact ih s.afterSynthStep

/-- The output of call `j + 1` of `step()` on one terminal. -/
def frameOut (p : Params) (s : Synth) (t : Term) (j : Nat) : OutVal :=
  outOf p (repeated (synthAfterStep p) (j + 1) s) t

theorem returned_repeated_afterSynthStep (j : Nat) (s : State) :
    (repeated State.afterSynthStep (j + 1) s).returned =
      .pair (frameOut s.params s.synth .left j) (frameOut s.params s.synth .right j) := by
  induction j generalizing s with
  | zero => rfl
  | succ j ih => exact ih s.afterSynthStep

/-! ## The loop of both fills (R353, R354) -/

theorem fillLoop_fst (p : Params) (put : Nat → OutVal → OutVal → HostMem → HostMem) (n j : Nat) (s : Synth)
    (m : HostMem) : (fillLoop p put n j s m).1 = repeated (synthAfterStep p) n s := by
  induction n generalizing j s m with
  | zero => rfl
  | succ n ih => exact ih ..

/-- The last frame is written after all others. -/
theorem fillLoop_snd_succ (p : Params) (put : Nat → OutVal → OutVal → HostMem → HostMem) (n j : Nat)
    (s : Synth) (m : HostMem) :
    (fillLoop p put (n + 1) j s m).2 =
      put (j + n) (frameOut p s .left n) (frameOut p s .right n) (fillLoop p put n j s m).2 := by
  induction n generalizing j s m with
  | zero => rfl
  | succ n ih =>
    have hj : j + (n + 1) = j + 1 + n := by omega
    rw [hj]
    exact ih (j + 1) ..

/-- Where one buffer is passed twice, the right value is the one left standing. -/
theorem read_fillLoop_putStereo (p : Params) (left right n : Nat) (s : Synth) (m : HostMem) (b i : Nat) :
    HostMem.read (fillLoop p (putStereo left right) n 0 s m).2 b i =
      if b = right ∧ i < n then some (frameOut p s .right i)
      else if b = left ∧ i < n then some (frameOut p s .left i)
      else HostMem.read m b i := by
  induction n with
  | zero => simp [fillLoop]
  | succ n ih =>
    rw [fillLoop_snd_succ, putStereo, HostMem.read_write, HostMem.read_write, ih, Nat.zero_add]
    rcases eq_or_ne i n with rfl | hi
    · simp
    · have hlt : i < n + 1 ↔ i < n := by omega
      simp only [hi, hlt, and_false, if_false]

theorem read_fillLoop_putInterleaved (p : Params) (buf n : Nat) (s : Synth) (m : HostMem) (b i : Nat) :
    HostMem.read (fillLoop p (putInterleaved buf) n 0 s m).2 b i =
      if b = buf ∧ i < 2 * n then some (frameOut p s (if i % 2 = 0 then .left else .right) (i / 2))
      else HostMem.read m b i := by
  induction n with
  | zero => simp [fillLoop]
  | succ n ih =>
    rw [fillLoop_snd_succ, putInterleaved, HostMem.read_write, HostMem.read_write, ih, Nat.zero_add]
    have hcases : i = 2 * n + 1 ∨ i = 2 * n ∨ (i ≠ 2 * n + 1 ∧ i ≠ 2 * n) := by omega
    obtain rfl | rfl | ⟨hright, hleft⟩ := hcases
    · have hhalf : (2 * n + 1) / 2 = n := by omega
      simp [hhalf, Nat.mul_succ]
    · simp [Nat.mul_succ]
    · have hlt : i < 2 * (n + 1) ↔ i < 2 * n := by omega
      simp only [hright, hleft, hlt, and_false, if_false]

/-! ## Records by their fields (R360, R384) -/

theorem Common.eq_of_get {x y : Common} (h : ∀ f, x.get f = y.get f) : x = y :=
  (Common.mk.injEq ..).mpr ⟨Returned.nat.inj (h .freq), Returned.nat.inj (h .length),
    Returned.bool.inj (h .enabled), Returned.bool.inj (h .continuous), Returned.nat.inj (h .timer),
    Returned.nat.inj (h .raw)⟩

theorem Envelope.eq_of_get {x y : Envelope} (h : ∀ f, x.get f = y.get f) : x = y :=
  (Envelope.mk.injEq ..).mpr ⟨Returned.nat.inj (h .initVolume), Returned.nat.inj (h .volume),
    Returned.direction.inj (h .direction), Returned.nat.inj (h .period), Returned.nat.inj (h .counter)⟩

theorem Sweep.eq_of_get {x y : Sweep} (h : ∀ f, x.get f = y.get f) : x = y :=
  (Sweep.mk.injEq ..).mpr ⟨Returned.nat.inj (h .shift), Returned.nat.inj (h .period),
    Returned.mode.inj (h .mode), Returned.nat.inj (h .shadow), Returned.nat.inj (h .counter)⟩

theorem PerTerm.eq_of_get {α : Type} {p q : PerTerm α} (h : ∀ t, p.get t = q.get t) : p = q :=
  (PerTerm.mk.injEq ..).mpr ⟨h .left, h .right⟩

theorem Osc.eq_of_get {o p : Osc} (h : ∀ f, o.get f = p.get f) : o = p :=
  (Osc.mk.injEq ..).mpr ⟨Returned.nat.inj (h .multiplier), Returned.nat.inj (h .waveLength),
    Returned.rat.inj (h .rate), Returned.nat.inj (h .freq), Returned.ints.inj (h .wave),
    Returned.bool.inj (h .muted), Returned.bool.inj (h .dirty), Returned.rat.inj (h .spd),
    Returned.rat.inj (h .spp), Returned.deltas.inj (h .deltas), Returned.rat.inj (h .phase),
    Returned.rats.inj (h .leftover), Returned.rat.inj (h .seed)⟩

/-- The 16 bytes are the whole of a WAVE memory in canonical form (R80). -/
theorem Memory.eq_of_bytes {m m' : List Host.Cell} (hm : Memory.wf m) (hm' : Memory.wf m')
    (h : Memory.bytes m = Memory.bytes m') : m = m' := by
  refine Memory.ext hm hm' fun i => ?_
  rcases Nat.lt_or_ge i 16 with hi | hi
  · exact List.map_inj_left.1 h i (List.mem_range.2 hi)
  · rw [Memory.read_of_ge hm hi, Memory.read_of_ge hm' hi]

/-- Two legal Synths with the same answers have the same registers (R360). -/
theorem Synth.Legal.eq_of_get {s t : Synth} (hs : s.Legal) (ht : t.Legal) (h : ∀ f, s.get f = t.get f) :
    s = t := by
  have hram := Memory.eq_of_bytes hs.wave.2 ht.wave.2 (Returned.bytes.inj (h .waveRam))
  have hlfsr := BitVec.eq_of_toNat_eq (Returned.nat.inj (h .lfsr))
  have hmask := BitVec.eq_of_toNat_eq (Returned.nat.inj (h .mixMask))
  have henable := PerTerm.eq_of_get fun x => Returned.bool.inj (h (.termEnable x))
  have hvol := PerTerm.eq_of_get fun x => Returned.nat.inj (h (.termVol x))
  exact Synth.ext_registers
    (fun c => Common.eq_of_get fun f => h (.common c f))
    (fun e => Envelope.eq_of_get fun f => h (.env e f))
    (fun p => (Pulse.mk.injEq ..).mpr ⟨Returned.duty.inj (h (.duty p)), Returned.nat.inj (h (.dutyIndex p))⟩)
    (Sweep.eq_of_get fun f => h (.sweep f))
    ((Wave.mk.injEq ..).mpr ⟨hram, Returned.level.inj (h .level), Returned.nat.inj (h .position)⟩)
    ((Noise.mk.injEq ..).mpr ⟨hlfsr, Returned.nat.inj (h .scf), Returned.nat.inj (h .drf),
      Returned.stepSel.inj (h .stepSel)⟩)
    ((Sequencer.mk.injEq ..).mpr ⟨Returned.nat.inj (h .seqStep), Returned.nat.inj (h .seqAcc)⟩)
    ((Mixer.mk.injEq ..).mpr ⟨hmask, henable, hvol⟩)
    (Returned.rat.inj (h .facc))

/-! ## The statements -/

/-- Settles O45: the advance keeps the fraction that the step has set aside. -/
theorem synthStepAdvancesThenMixes : Obligations.SynthStepAdvancesThenMixes := by
  intro s hf0 _ hp total
  have hstep := synthAfterStep_eq hp hf0
  rw [cyclesPerSample_eq] at hstep
  have hfacc : (synthAfterStep s.params s.synth).facc = Int.fract total := by
    rw [hstep]
    exact (faccBlind_advanceCycles _ _).facc _
  refine ⟨_, _, exec_synthStep s, exec_advance _ _, ?_, ⟨rfl, rfl, rfl, rfl⟩, hfacc,
    hfacc ▸ Int.fract_nonneg total, hfacc ▸ Int.fract_lt_one total, rfl⟩
  rw [Int.floor_toNat]
  exact hstep

/-- Settles O46, by induction on the number of steps: a split advance is one advance (O41). -/
theorem stepsLoseNoCycle : Obligations.StepsLoseNoCycle := by
  intro j s hs total
  obtain ⟨hok, -, -, -, hp⟩ := hs
  refine ⟨_, _, runAll_synthSteps j s, exec_advance _ s, ?_⟩
  rw [synth_repeated_afterSynthStep, repeated_synthAfterStep hp (s.synth.ok_iff_legal.1 hok),
    cyclesPerSample_eq, Int.floor_toNat]
  rfl

/-- Settles O47: the loop's Synth is that of the steps, and each element is that of its last write. -/
theorem fillStereoIsRepeatedSteps : Obligations.FillStereoIsRepeatedSteps := by
  intro left right n s hl hr
  have hread := read_fillLoop_putStereo s.params left.buf right.buf n s.synth s.host
  refine ⟨_, _, if_pos ⟨hl, hr⟩, runAll_synthSteps n s,
    (fillLoop_fst ..).trans (synth_repeated_afterSynthStep n s).symm, rfl, rfl, rfl,
    fun j hj => ⟨_, _, _, runAll_synthSteps (j + 1) s, returned_repeated_afterSynthStep j s, ?right, ?left⟩,
    fun b i hbi => ?frame⟩
  case right => simp [hread, hj]
  case left =>
    rw [hread]
    by_cases hb : left.buf = right.buf <;> simp [hb, hj]
  case frame =>
    have hr : ¬(b = right.buf ∧ i < n) := by omega
    have hl : ¬(b = left.buf ∧ i < n) := by omega
    rw [hread, if_neg hr, if_neg hl]

/-- Settles O48: an even element is a left value and an odd one a right value. -/
theorem fillInterleavedIsRepeatedSteps : Obligations.FillInterleavedIsRepeatedSteps := by
  intro buf n s hsize
  have hread := read_fillLoop_putInterleaved s.params buf.buf n s.synth s.host
  refine ⟨_, _, if_pos hsize, runAll_synthSteps n s,
    (fillLoop_fst ..).trans (synth_repeated_afterSynthStep n s).symm, rfl, rfl, rfl,
    fun j hj => ⟨_, _, _, runAll_synthSteps (j + 1) s, returned_repeated_afterSynthStep j s, ?left, ?right⟩,
    fun b i hbi => ?frame⟩
  case left =>
    have hlt : 2 * j < 2 * n := by omega
    simp [hread, hlt]
  case right =>
    have hlt : 2 * j + 1 < 2 * n := by omega
    have hhalf : (2 * j + 1) / 2 = j := by omega
    simp [hread, hlt, hhalf]
  case frame =>
    have hout : ¬(b = buf.buf ∧ i < 2 * n) := by omega
    rw [hread, if_neg hout]

/-- Settles O49: each answer by its field's name, and the fields by the answers. -/
theorem queriesShowTheWholeState : Obligations.QueriesShowTheWholeState := by
  refine ⟨fun f s => ?synthQuery, fun k f s o ho => (withOsc_some ho _).trans ?oscQuery,
    fun s t hs ht => (s.ok_iff_legal.1 hs).eq_of_get (t.ok_iff_legal.1 ht), fun o p => Osc.eq_of_get⟩
  case synthQuery =>
    cases f with
    | common c g => cases g <;> rfl
    | env e g => cases g <;> rfl
    | sweep g => cases g <;> rfl
    | termEnable t => cases t <;> rfl
    | termVol t => cases t <;> rfl
    | _ => rfl
  case oscQuery => cases f <;> rfl

end Sys2Proof.Machine

/-! PROOFS. 47_osc.md: construction and setters (O53, O54), an operation leaves the other agents alone (O11),
recompute (O55), the steps and their taps (O56), the occurrences in a block (O57), the working buffer (O58)
and what `generate` writes and carries (O59).

Every loop of the splats is a fold whose turns each add something to one element of the buffer (`AddsAt`), so
an element of the working buffer is what it was before plus the sum over the loop. -/

namespace Sys2Proof.Machine

/-! ## Operations of one agent (R404, R463) -/

/-- A guarded operation that answers a next state answers the one it names. -/
theorem next_of_guarded {p : Prop} [Decidable p] {t t' : State} {r : Refusal}
    (h : (if p then .next t' else .refused r : Host.Outcome State Fault Refusal) = .next t) : t' = t := by
  split_ifs at h
  exact Host.Outcome.next.inj h

/-- An operation of the Synth writes no Osc instance. -/
theorem oscs_of_agentOf_synth {i : Instr} {s t : State} (ha : agentOf i = some .synth)
    (h : exec i s = .next t) : t.oscs = s.oscs := by
  cases i with
  | fromGbFreq | toGbFreq | oscNew | oscSetFrequency | oscSetWaveform | oscSetMuted | oscQuery
  | generate => simp [agentOf] at ha
  | setWaveform | fillStereo | fillInterleaved => exact next_of_guarded h ▸ rfl
  | _ => exact Host.Outcome.next.inj h ▸ rfl

/-- An operation of an Osc instance writes that instance alone, if any. -/
theorem frame_of_agentOf_osc {i : Instr} {k : Nat} {s t : State} (ha : agentOf i = some (.osc k))
    (h : exec i s = .next t) : t.synth = s.synth ∧ ∃ o, t.oscs = s.oscs.set k o := by
  cases i with
  | oscSetFrequency k v | oscSetMuted k v =>
    obtain rfl := Agent.osc.inj (Option.some.inj ha)
    obtain ⟨o, -, h⟩ := withOsc_next h
    exact Host.Outcome.next.inj h ▸ ⟨rfl, _, rfl⟩
  | oscQuery k f =>
    obtain rfl := Agent.osc.inj (Option.some.inj ha)
    obtain ⟨o, ho, h⟩ := withOsc_next h
    obtain ⟨hk, rfl⟩ := List.getElem?_eq_some_iff.1 ho
    exact Host.Outcome.next.inj h ▸ ⟨rfl, _, (List.set_getElem_self hk).symm⟩
  | oscSetWaveform k w | generate k buf n =>
    obtain rfl := Agent.osc.inj (Option.some.inj ha)
    obtain ⟨o, -, h⟩ := withOsc_next h
    exact next_of_guarded h ▸ ⟨rfl, _, rfl⟩
  | _ => simp [agentOf] at ha

/-- A free function writes neither; a constructor adds an instance after those there are. -/
theorem frame_of_agentOf_none {i : Instr} {s t : State} (ha : agentOf i = none)
    (h : exec i s = .next t) : t.synth = s.synth ∧ ∃ new, t.oscs = s.oscs ++ new := by
  cases i with
  | fromGbFreq | toGbFreq => exact Host.Outcome.next.inj h ▸ ⟨rfl, [], (List.append_nil _).symm⟩
  | oscNew => exact next_of_guarded h ▸ ⟨rfl, _, rfl⟩
  | _ => simp [agentOf] at ha

/-- Settles O11, by the agent of the operation. -/
theorem agentsAreIndependent : Obligations.AgentsAreIndependent := by
  intro i s t h
  cases ha : agentOf i with
  | none =>
    obtain ⟨hsynth, new, hoscs⟩ := frame_of_agentOf_none ha h
    refine ⟨fun _ => hsynth, fun k o _ ho => ?_⟩
    obtain ⟨hk, -⟩ := List.getElem?_eq_some_iff.1 ho
    rw [hoscs, List.getElem?_append_left hk, ho]
  | some a =>
    cases a with
    | synth => exact ⟨fun hne => absurd rfl hne, fun k o _ ho => (oscs_of_agentOf_synth ha h).symm ▸ ho⟩
    | osc k =>
      obtain ⟨hsynth, o', hoscs⟩ := frame_of_agentOf_osc ha h
      refine ⟨fun _ => hsynth, fun k' o hne ho => ?_⟩
      have hk : k ≠ k' := fun e => hne (e ▸ rfl)
      rw [hoscs, List.getElem?_set_ne hk, ho]

/-! ## Construction and setters -/

/-- Settles O53: the arguments meet the guard, and the fields are those of the construction. -/
theorem oscNewAddsAnInstance : Obligations.OscNewAddsAnInstance := by
  intro m l r s hm hl hr
  exact ⟨_, Osc.construction m l r, if_pos ⟨hm, hl, hr⟩, ⟨rfl, rfl, rfl⟩, rfl, rfl, rfl, rfl, rfl, rfl, rfl,
    List.length_replicate, fun _ => List.eq_of_mem_replicate, rfl, rfl, rfl, rfl, rfl, rfl,
    List.length_replicate, fun _ => List.eq_of_mem_replicate, rfl⟩

/-- Settles O54: each setter meets its instance, and the waveform its guard. -/
theorem oscSettersWriteTheirFields : Obligations.OscSettersWriteTheirFields := by
  intro k s o ho
  exact ⟨fun _ => withOsc_some ho _, fun _ hw => (withOsc_some ho _).trans (if_pos hw),
    fun _ => withOsc_some ho _⟩

/-! ## The transition list (R388) -/

theorem mem_deltaAt_iff {spd : ℚ} {prev cur : ℤ} {i : Nat} {d : Delta} :
    d ∈ deltaAt spd prev cur i ↔ cur ≠ prev ∧ d = ⟨i * spd, cur - prev, prev, cur⟩ := by
  unfold deltaAt
  split_ifs with h <;> simp [h]

/-- There is at most one transition at a step. -/
theorem pairwise_deltaAt (spd : ℚ) (prev cur : ℤ) (i : Nat) (R : Delta → Delta → Prop) :
    (deltaAt spd prev cur i).Pairwise R := by
  unfold deltaAt
  split_ifs
  exacts [List.pairwise_singleton _ _, List.Pairwise.nil]

/-- A step without a change counts as a change of 0. -/
theorem sum_change_deltaAt (spd : ℚ) (prev cur : ℤ) (i : Nat) :
    ((deltaAt spd prev cur i).map Delta.change).sum = cur - prev := by
  unfold deltaAt
  split_ifs with h
  · simp
  · simp [not_not.1 h]

/-- The transition at step `j` of the waveform `ws` that `prev` comes before, and the condition for there to
be one, whatever number `i` the first step has. -/
theorem mem_deltasFrom_iff {spd : ℚ} {prev : ℤ} {i : Nat} {ws : List ℤ} {d : Delta} :
    d ∈ deltasFrom spd prev i ws ↔ ∃ j < ws.length, ws.getD j 0 ≠ (prev :: ws).getD j 0 ∧
      d = ⟨(i + j : ℕ) * spd, ws.getD j 0 - (prev :: ws).getD j 0, (prev :: ws).getD j 0, ws.getD j 0⟩ := by
  induction ws generalizing prev i with
  | nil => simp [deltasFrom]
  | cons w ws ih =>
    have hnext : ∀ j, i + 1 + j = i + (j + 1) := fun j => by omega
    simp only [deltasFrom, List.mem_append, mem_deltaAt_iff, ih, List.length_cons]
    constructor
    · rintro (h | ⟨j, hj, h⟩)
      · exact ⟨0, Nat.succ_pos _, h⟩
      · exact ⟨j + 1, Nat.succ_lt_succ hj, hnext j ▸ h⟩
    · rintro ⟨_ | j, hj, h⟩
      · exact Or.inl h
      · exact Or.inr ⟨j, Nat.lt_of_succ_lt_succ hj, (hnext j).symm ▸ h⟩

/-- The waveform is periodic: before step 0 comes the last one. -/
theorem getD_cons_getLastD {wave : List ℤ} {j : Nat} (hj : j < wave.length) :
    (wave.getLastD 0 :: wave).getD j 0 = wave.getD ((j + wave.length - 1) % wave.length) 0 := by
  cases j with
  | zero =>
    have hne : wave ≠ [] := List.ne_nil_of_length_pos hj
    have hlast : (0 + wave.length - 1) % wave.length = wave.length - 1 := by
      rw [Nat.zero_add, Nat.mod_eq_of_lt (Nat.sub_one_lt_of_lt hj)]
    rw [hlast, List.getD_cons_zero, List.getLastD_eq_getLast?, List.getLast?_eq_getElem?,
      List.getD_eq_getElem?_getD]
  | succ j =>
    have hprev : j + 1 + wave.length - 1 = j + wave.length := by omega
    rw [List.getD_cons_succ, hprev, Nat.add_mod_right, Nat.mod_eq_of_lt (Nat.lt_of_succ_lt hj)]

theorem mem_waveDeltas_iff {spd : ℚ} {wave : List ℤ} {d : Delta} :
    d ∈ waveDeltas spd wave ↔ ∃ j < wave.length,
      wave.getD j 0 ≠ wave.getD ((j + wave.length - 1) % wave.length) 0 ∧
      d = ⟨j * spd, wave.getD j 0 - wave.getD ((j + wave.length - 1) % wave.length) 0,
        wave.getD ((j + wave.length - 1) % wave.length) 0, wave.getD j 0⟩ := by
  rw [waveDeltas, mem_deltasFrom_iff]
  refine exists_congr fun j => and_congr_right fun hj => ?_
  rw [getD_cons_getLastD hj, Nat.zero_add]

/-- The transitions are listed in the order of their steps. -/
theorem pairwise_deltasFrom {spd : ℚ} (hspd : 0 < spd) (prev : ℤ) (i : Nat) (ws : List ℤ) :
    (deltasFrom spd prev i ws).Pairwise fun a b => a.location < b.location := by
  induction ws generalizing prev i with
  | nil => exact List.Pairwise.nil
  | cons w ws ih =>
    refine List.pairwise_append.2 ⟨pairwise_deltaAt spd prev w i _, ih w (i + 1), fun a ha b hb => ?_⟩
    obtain ⟨-, rfl⟩ := mem_deltaAt_iff.1 ha
    obtain ⟨j, -, -, rfl⟩ := mem_deltasFrom_iff.1 hb
    have hlt : (i : ℚ) < (i + 1 + j : ℕ) := by exact_mod_cast (by omega : i < i + 1 + j)
    exact mul_lt_mul_of_pos_right hlt hspd

/-- The changes lead from the value before the first step to the last one. -/
theorem sum_change_deltasFrom (spd : ℚ) (prev : ℤ) (i : Nat) (ws : List ℤ) :
    ((deltasFrom spd prev i ws).map Delta.change).sum = ws.getLastD prev - prev := by
  induction ws generalizing prev i with
  | nil => simp [deltasFrom]
  | cons w ws ih =>
    rw [deltasFrom, List.map_append, List.sum_append, sum_change_deltaAt, ih, List.getLastD_cons]
    ring

/-! ## The taps of a step (R397) -/

theorem stepTap_of_ne (t : SincTable) (c : ℚ) (ph : Nat) {k : Nat} (hk : k ≠ 7) :
    stepTap t c ph k = c * sincTap t ph k := if_neg hk

theorem sincTap_eq (t : SincTable) {ph k : Nat} (hp : ph < 32) (hk : k < 15) : sincTap t ph k = t[ph][k] := by
  simp [sincTap, hp, hk]

/-- The centre tap is what the others leave of the change. -/
theorem sum_stepTap (t : SincTable) (c : ℚ) (ph : Nat) :
    ((List.range 15).map (stepTap t c ph)).sum = c := by
  have hside : (((List.range 15).filter (· ≠ 7)).map (stepTap t c ph)) =
      ((List.range 15).filter (· ≠ 7)).map fun k => c * sincTap t ph k :=
    List.map_congr_left fun k hk => stepTap_of_ne t c ph (by simpa using (List.mem_filter.1 hk).2)
  have hcentre : stepTap t c ph 7 =
      c - (((List.range 15).filter (· ≠ 7)).map fun k => c * sincTap t ph k).sum := rfl
  have hsplit : (List.range 15).erase 7 = (List.range 15).filter (· ≠ 7) := rfl
  rw [← List.sum_map_erase (stepTap t c ph) (List.mem_range.2 (by decide : 7 < 15)), hsplit, hside, hcentre,
    sub_add_cancel]

/-- Settles O56: the centre tap is a difference, and the changes of a period telescope. -/
theorem injectedStepsSumExactly : Obligations.InjectedStepsSumExactly := by
  refine ⟨sum_stepTap, fun t c ph k hp hk hne => ?_, fun spd wave => ?_⟩
  · rw [stepTap_of_ne t c ph hne, sincTap_eq t hp hk]
  · rw [waveDeltas, sum_change_deltasFrom]
    cases wave with
    | nil => rfl
    | cons w ws => simp only [List.getLastD_cons, sub_self]

/-! ## Occurrences (R392, R395) -/

theorem Osc.wait_nonneg {o : Osc} (h : 0 < o.spp) (d : Delta) : 0 ≤ o.wait d := (ratMod_range h).1

/-- The occurrences counted are those that begin before the block's end. -/
theorem Osc.lt_occurrenceCount {o : Osc} (h : 0 < o.spp) (n : Nat) (d : Delta) (m : Nat) :
    m < o.occurrenceCount n d ↔ o.wait d + m * o.spp < n := by
  rw [occurrenceCount, Int.ceil_toNat, Nat.lt_ceil, lt_div_iff₀ h, lt_sub_iff_add_lt']

/-- R392's times, the period counted by naturals. -/
theorem Osc.occurrences_eq (o : Osc) (n : Nat) (d : Delta) :
    o.occurrences n d =
      (List.range (o.occurrenceCount n d)).map fun m : Nat => 7 + o.wait d + m * o.spp := by
  simp [occurrences, Config.sincCenter, ← List.map_eq_flatMap]

theorem Osc.mem_occurrences {o : Osc} (h : 0 < o.spp) (n : Nat) (d : Delta) (τ : ℚ) :
    τ ∈ o.occurrences n d ↔ (∃ m : Nat, τ = 7 + o.wait d + m * o.spp) ∧ τ < n + 7 := by
  have hlt : ∀ m : Nat, 7 + o.wait d + m * o.spp < n + 7 ↔ o.wait d + m * o.spp < n := fun m => by
    rw [add_assoc, add_comm (n : ℚ), add_lt_add_iff_left]
  simp only [occurrences_eq, List.mem_map, List.mem_range, lt_occurrenceCount h]
  constructor
  · rintro ⟨m, hm, rfl⟩
    exact ⟨⟨m, rfl⟩, (hlt m).2 hm⟩
  · rintro ⟨⟨m, rfl⟩, hm⟩
    exact ⟨m, (hlt m).1 hm, rfl⟩

theorem Osc.pairwise_occurrences {o : Osc} (h : 0 < o.spp) (n : Nat) (d : Delta) :
    (o.occurrences n d).Pairwise (· < ·) := by
  rw [occurrences_eq]
  refine List.pairwise_map.2 (List.pairwise_lt_range.imp fun {a b} hab => ?_)
  have hab' : (a : ℚ) < b := by exact_mod_cast hab
  exact (add_lt_add_iff_left _).2 (mul_lt_mul_of_pos_right hab' h)

theorem Osc.seven_le_of_mem_occurrences {o : Osc} (h : 0 < o.spp) {n : Nat} {d : Delta} {τ : ℚ}
    (hτ : τ ∈ o.occurrences n d) : 7 ≤ τ := by
  obtain ⟨⟨m, rfl⟩, -⟩ := (mem_occurrences h n d τ).1 hτ
  have := wait_nonneg h d
  have : 0 ≤ m * o.spp := by positivity
  linarith

/-- The last of the 15 taps of an occurrence lands inside the working buffer (R394). -/
theorem Osc.firstTap_of_mem_occurrences {o : Osc} (h : 0 < o.spp) {n : Nat} {d : Delta} {τ : ℚ}
    (hτ : τ ∈ o.occurrences n d) : firstTap τ + 14 ≤ n + 13 := by
  have hge := seven_le_of_mem_occurrences h hτ
  obtain ⟨-, hlt⟩ := (mem_occurrences h n d τ).1 hτ
  have h7 : (7 : ℤ) ≤ ⌊τ⌋ := Int.le_floor.2 (by exact_mod_cast hge)
  have hn : ⌊τ⌋ < (n : ℤ) + 7 := Int.floor_lt.2 (by exact_mod_cast hlt)
  simp only [firstTap, Config.sincCenter]
  omega

/-- With no samples no transition occurs (R390). -/
theorem Osc.occurrences_zero {o : Osc} (h : 0 < o.spp) (d : Delta) : o.occurrences 0 d = [] := by
  refine List.eq_nil_iff_forall_not_mem.2 fun τ hτ => ?_
  have hge := seven_le_of_mem_occurrences h hτ
  obtain ⟨-, hlt⟩ := (mem_occurrences h 0 d τ).1 hτ
  norm_num at hlt
  exact hge.not_gt hlt

theorem firstTap_cast {τ : ℚ} (h : 7 ≤ τ) : (firstTap τ : ℤ) = ⌊τ⌋ - 7 := by
  have h7 : (7 : ℤ) ≤ ⌊τ⌋ := Int.le_floor.2 (by exact_mod_cast h)
  simp only [firstTap, Config.sincCenter]
  omega

theorem sincRow_cast (τ : ℚ) : (sincRow τ : ℤ) = ⌊(τ - (⌊τ⌋ : ℚ)) * 32⌋ :=
  Int.toNat_of_nonneg (Int.floor_nonneg.2 (mul_nonneg (Int.fract_nonneg τ) (by norm_num)))

theorem sincRow_lt (τ : ℚ) : sincRow τ < 32 := by
  have hfract : τ - (⌊τ⌋ : ℚ) < 1 := Int.fract_lt_one τ
  have hfloor : ⌊(τ - (⌊τ⌋ : ℚ)) * 32⌋ < 32 := Int.floor_lt.2 (by push_cast; linarith)
  exact_mod_cast sincRow_cast τ ▸ hfloor

/-- Settles O57: the count is a ceiling, and every occurrence lies between 7 and n + 7. -/
theorem occurrencesAreExact : Obligations.OccurrencesAreExact := by
  refine ⟨fun o n d h => ⟨Osc.pairwise_occurrences h n d, fun τ => ⟨Osc.mem_occurrences h n d τ, fun hτ => ?_⟩⟩,
    fun τ hτ => ⟨firstTap_cast hτ, sincRow_cast τ⟩⟩
  exact ⟨Osc.seven_le_of_mem_occurrences h hτ, Osc.firstTap_of_mem_occurrences h hτ, sincRow_lt τ⟩

/-! ## The working buffer (R394, R395) -/

/-- On a buffer of `n` elements, `f` keeps the length and adds `x` to element `j`. -/
def AddsAt (n j : Nat) (f : List ℚ → List ℚ) (x : ℚ) : Prop :=
  ∀ e : List ℚ, e.length = n → (f e).length = n ∧ (f e).getD j 0 = e.getD j 0 + x

/-- A loop adds the sum of what its turns add. -/
theorem AddsAt.foldl {α : Type} {n j : Nat} {step : List ℚ → α → List ℚ} {w : α → ℚ} {xs : List α}
    (h : ∀ x ∈ xs, AddsAt n j (fun e => step e x) (w x)) :
    AddsAt n j (fun e => xs.foldl step e) (xs.map w).sum := by
  induction xs with
  | nil => exact fun e he => ⟨he, by simp⟩
  | cons x xs ih =>
    intro e he
    obtain ⟨hlen, hget⟩ := h x List.mem_cons_self e he
    obtain ⟨hlen', hget'⟩ := ih (fun y hy => h y (List.mem_cons_of_mem x hy)) _ hlen
    refine ⟨hlen', hget'.trans ?_⟩
    rw [hget, List.map_cons, List.sum_cons, add_assoc]

theorem addsAt_addAt {n i : Nat} (hi : i < n) (j : Nat) (x : ℚ) :
    AddsAt n j (fun e => addAt e i x) (if j = i then x else 0) := fun e he =>
  ⟨(length_addAt e i x).trans he, getD_addAt e i j x (he ▸ hi)⟩

/-- Of `m` terms placed from `a` on, the one placed at `j` remains. -/
theorem sum_range_ite_eq (f : Nat → ℚ) (a j m : Nat) :
    ((List.range m).map fun k => if j = a + k then f k else 0).sum =
      if a ≤ j ∧ j < a + m then f (j - a) else 0 := by
  induction m with
  | zero => simp
  | succ m ih =>
    rw [List.range_succ, List.map_append, List.sum_append, ih]
    rcases eq_or_ne j (a + m) with rfl | hj
    · simp
    · have hlt : a ≤ j ∧ j < a + (m + 1) ↔ a ≤ j ∧ j < a + m := by omega
      simp [hj, hlt]

/-- One occurrence adds to an element the tap that lands there. -/
theorem addsAt_splat (t : SincTable) (c : ℚ) {τ : ℚ} {n : Nat} (hτ : firstTap τ + 14 < n) (j : Nat) :
    AddsAt n j (fun e => splat t c e τ) (if firstTap τ ≤ j ∧ j ≤ firstTap τ + 14
      then stepTap t c (sincRow τ) (j - firstTap τ) else 0) := by
  have htaps : AddsAt n j (fun e => splat t c e τ)
      ((List.range 15).map fun k => if j = firstTap τ + k then stepTap t c (sincRow τ) k else 0).sum :=
    AddsAt.foldl fun k hk =>
      addsAt_addAt (hτ.trans_le' (Nat.add_le_add_left (Nat.le_of_lt_succ (List.mem_range.1 hk)) _)) j _
  rw [sum_range_ite_eq] at htaps
  simpa only [Nat.lt_succ_iff, Nat.add_succ] using htaps

/-- What the taps of all occurrences of a transition in a block of `n` samples add to element `j`. -/
def Osc.tapsOn (t : SincTable) (o : Osc) (n j : Nat) (d : Delta) : ℚ :=
  ((o.occurrences n d).map fun τ =>
    if firstTap τ ≤ j ∧ j ≤ firstTap τ + 14 then stepTap t d.change (sincRow τ) (j - firstTap τ) else 0).sum

theorem addsAt_splatDelta (t : SincTable) {o : Osc} (h : 0 < o.spp) (n j : Nat) (d : Delta) :
    AddsAt (n + 14) j (fun e => splatDelta t o n e d) (o.tapsOn t n j d) :=
  AddsAt.foldl fun _ hτ =>
    addsAt_splat t d.change (Nat.lt_succ_of_le (Osc.firstTap_of_mem_occurrences h hτ)) j

@[simp] theorem Osc.length_carried (o : Osc) (n : Nat) : (o.carried n).length = n + 14 := by
  simp [carried]

theorem Osc.getD_carried (o : Osc) {n j : Nat} (hj : j < n + 14) :
    (o.carried n).getD j 0 = if j ≤ 13 then o.leftover.getD j 0 else 0 := by
  simp [carried, List.getElem?_range hj]

/-- Splatting the transitions onto the carried buffer. -/
theorem Osc.working_spec (t : SincTable) {o : Osc} (h : 0 < o.spp) (n j : Nat) :
    (o.working t n).length = n + 14 ∧
      (o.working t n).getD j 0 = (o.carried n).getD j 0 + (o.deltas.map (o.tapsOn t n j)).sum :=
  AddsAt.foldl (fun d _ => addsAt_splatDelta t h n j d) _ (o.length_carried n)

theorem Osc.length_working (t : SincTable) {o : Osc} (h : 0 < o.spp) (n : Nat) :
    (o.working t n).length = n + 14 := (working_spec t h n 0).1

/-- Settles O58: the splats are three nested loops of additions. -/
theorem workingBufferSumsTheTaps : Obligations.WorkingBufferSumsTheTaps := by
  intro t o n j h hj
  obtain ⟨hlen, hget⟩ := Osc.working_spec t h n j
  rw [o.getD_carried hj] at hget
  exact ⟨hlen, hget⟩

/-! ## Generate (R390 to R399) -/

/-- Once refreshed, an instance has a period, and its phase lies inside it. -/
theorem Osc.refresh_phase_range {o : Osc} (h : o.ok) :
    0 < o.refresh.spp ∧ 0 ≤ o.refresh.phase ∧ o.refresh.phase < o.refresh.spp := by
  obtain ⟨-, -, ⟨hdirty, -⟩ | ⟨hpos, h0, hlt, -⟩, -⟩ := refresh_ok h
  · exact absurd (hdirty.symm.trans (dirty_refresh o)) nofun
  · exact ⟨hpos, h0, hlt⟩

@[simp] theorem Osc.muted_refresh (o : Osc) : o.refresh.muted = o.muted :=
  iteInduction (motive := fun p : Osc => p.muted = o.muted) (fun _ => rfl) fun _ => rfl

theorem getElem?_runningSums (a : ℚ) {xs : List ℚ} {j : Nat} (hj : j < xs.length) :
    (runningSums a xs)[j]? = some (a + (xs.take (j + 1)).sum) := by
  induction xs generalizing a j with
  | nil => cases hj
  | cons x xs ih =>
    cases j with
    | zero => simp [runningSums]
    | succ j => simpa [runningSums, add_assoc] using ih (a + x) (Nat.lt_of_succ_lt_succ hj)

theorem getLastD_runningSums (a : ℚ) (xs : List ℚ) : (runningSums a xs).getLastD a = a + xs.sum := by
  induction xs generalizing a with
  | nil => simp [runningSums]
  | cons x xs ih => rw [runningSums, List.getLastD_cons, ih, List.sum_cons, add_assoc]

/-- The samples are running sums, and the working buffer is longer than the block. -/
theorem Osc.length_generated (t : SincTable) {o : Osc} (h : o.ok) (n : Nat) :
    (o.generated t n).length = n := by
  have hlen := length_working t (refresh_phase_range h).1 n
  refine iteInduction (motive := fun l : List ℚ => l.length = n) (fun _ => List.length_replicate) fun _ => ?_
  simp [samples, hlen]

theorem Osc.getElem?_generated (t : SincTable) {o : Osc} (h : o.ok) {n j : Nat} (hj : j < n) :
    (o.generated t n)[j]? = some (if o.muted then 0
      else o.refresh.seed + ((o.refresh.working t n).take (j + 1)).sum) := by
  have hlen := length_working t (refresh_phase_range h).1 n
  rw [generated, muted_refresh]
  split_ifs
  · rw [List.getElem?_replicate, if_pos hj]
  · rw [samples, getElem?_runningSums _ (by rw [List.length_take]; omega), List.take_take,
      Nat.min_eq_left hj]

/-- The seed carried is the last sample, and the old one after an empty block (R399). -/
theorem Osc.seed_afterBlock (t : SincTable) (o : Osc) (n : Nat) :
    (o.afterBlock t n).seed = o.seed + ((o.working t n).take n).sum := by
  cases n with
  | zero => simp [afterBlock]
  | succ n => exact getLastD_runningSums _ _

/-- The seed, the leftover and the phase that `generate` carries (R391, R399). -/
theorem Osc.afterGenerate_eq (t : SincTable) (o : Osc) (n : Nat) :
    o.afterGenerate t n = { o.refresh with
      seed := if o.muted then (if n = 0 then o.refresh.seed else 0)
        else o.refresh.seed + ((o.refresh.working t n).take n).sum
      leftover := if o.muted then (if n = 0 then o.refresh.leftover else List.replicate 14 0)
        else (List.range 14).map fun j => (o.refresh.working t n).getD (n + j) 0
      phase := ratMod (o.refresh.phase + n) o.refresh.spp } := by
  rw [afterGenerate, muted_refresh]
  cases o.muted with
  | true => cases n <;> rfl
  | false =>
    simp only [Bool.false_eq_true, if_false, ← seed_afterBlock]
    rfl

/-- The state after `generate`, on a buffer of the size asked for. -/
theorem exec_generate {k : Nat} {buf : BufRef} {n : Nat} {s : State} {o : Osc} (ho : s.oscs[k]? = some o)
    (hsize : buf.size = n) :
    exec (.generate k buf n) s = .next { s.setOsc k (o.afterGenerate s.params.sinc n) with
      host := s.host.writeFrom buf.buf 0 ((o.generated s.params.sinc n).map .floatOut) } :=
  (withOsc_some ho _).trans (if_pos hsize)

/-- Settles O59: the elements written are the samples, and the instance is what the block carries. -/
theorem generateWritesOneBlock : Obligations.GenerateWritesOneBlock := by
  intro k buf n s o ho hok hsize q e
  have hlen := Osc.length_generated s.params.sinc hok n
  refine ⟨_, _, exec_generate ho hsize, rfl, ⟨rfl, rfl, rfl⟩, rfl, fun b i hbi => ?frame, fun j hj => ?written,
    Osc.afterGenerate_eq s.params.sinc o n⟩
  case frame =>
    have hout : ¬(b = buf.buf ∧ 0 ≤ i ∧ i < 0 + n) := by omega
    rw [HostMem.read_writeFrom, List.length_map, hlen, if_neg hout]
  case written =>
    have hin : buf.buf = buf.buf ∧ 0 ≤ j ∧ j < 0 + n := by omega
    rw [HostMem.read_writeFrom, List.length_map, hlen, if_pos hin, Nat.sub_zero, List.getElem?_map,
      Osc.getElem?_generated _ hok hj]
    rfl

/-! ## An empty block (R390, R403) -/

/-- With no samples nothing is splatted, so the buffer is the leftover. -/
theorem Osc.map_getD_working_zero (t : SincTable) {o : Osc} (h : 0 < o.spp) (hlen : o.leftover.length = 14) :
    ((List.range 14).map fun j => (o.working t 0).getD (0 + j) 0) = o.leftover := by
  have hget : ∀ j < 14, (o.working t 0).getD (0 + j) 0 = o.leftover.getD j 0 := fun j hj => by
    have htaps : ∀ d, o.tapsOn t 0 j d = 0 := fun d => by simp [tapsOn, occurrences_zero h]
    rw [Nat.zero_add, (working_spec t h 0 j).2, getD_carried o (by omega), if_pos (by omega),
      List.map_congr_left fun d _ => htaps d, List.map_const', List.sum_replicate, smul_zero, add_zero]
  refine List.ext_getElem (by simp [hlen]) fun j hj hj' => ?_
  rw [List.getElem_map, List.getElem_range, hget j (hlen ▸ hj'), List.getD_eq_getElem _ _ hj']

/-- An empty block is the recompute, if one is due, and nothing else. -/
theorem Osc.afterGenerate_zero (t : SincTable) {o : Osc} (h : o.ok) : o.afterGenerate t 0 = o.refresh := by
  obtain ⟨hspp, h0, hlt⟩ := refresh_phase_range h
  obtain ⟨-, ⟨-, hlen⟩, -⟩ := refresh_ok h
  have hphase : ratMod (o.refresh.phase + (0 : ℕ)) o.refresh.spp = o.refresh.phase := by
    rw [Nat.cast_zero, add_zero, ratMod_of_lt h0 hlt]
  rw [afterGenerate_eq, hphase, map_getD_working_zero t hspp hlen, List.take_zero, List.sum_nil, add_zero,
    if_pos rfl, if_pos rfl, ite_self, ite_self]

theorem Osc.newSpd_eq (o : Osc) : o.newSpd = (2048 - (o.freq : ℚ)) * o.m * o.r / 4194304 := by
  norm_num [newSpd, Config.clock]

/-- Settles O55: an empty block leaves the recomputed instance, and writes no element. -/
theorem emptyBlockRecomputes : Obligations.EmptyBlockRecomputes := by
  intro k buf s o ho hok hdirty hsize spd
  have hspd : o.newSpd = spd := o.newSpd_eq
  have hp : o.afterGenerate s.params.sinc 0 = o.recompute :=
    (Osc.afterGenerate_zero _ hok).trans (if_pos hdirty)
  have hnil : o.generated s.params.sinc 0 = [] :=
    List.eq_nil_of_length_eq_zero (Osc.length_generated _ hok 0)
  obtain ⟨hk, -⟩ := List.getElem?_eq_some_iff.1 ho
  have hexec := exec_generate ho hsize
  rw [hp, hnil] at hexec
  obtain ⟨hargs, ⟨hwave, -⟩, -⟩ := hok
  have hpos : 0 < spd := hspd ▸ Osc.newSpd_pos hargs
  refine ⟨_, o.recompute, hexec, List.getElem?_set_self hk, ⟨rfl, rfl, rfl⟩, rfl,
    fun k' hk' => List.getElem?_set_ne hk'.symm, hspd, ?spp, hpos.trans_eq hspd.symm, ?phase, ?ascending,
    fun d => ?transitions, rfl, rfl, rfl, rfl, rfl, rfl, rfl, rfl, rfl⟩
  case spp => exact hspd ▸ rfl
  case phase => exact hspd ▸ rfl
  case ascending => exact pairwise_deltasFrom (hpos.trans_eq hspd.symm) _ _ _
  case transitions =>
    have hmem := mem_waveDeltas_iff (spd := o.newSpd) (wave := o.wave) (d := d)
    rw [hwave, hspd] at hmem
    rw [← hmem, ← hspd]
    rfl

end Sys2Proof.Machine

/-! PROOFS. 48_conversions.md: `fromGbFreq` (O50), `toGbFreq` (O51), and that the second undoes the first, with
the interval of frequencies of each register value (O52). -/

namespace Sys2Proof.Machine

/-! ## The register value of a frequency (R432) -/

/-- A finite positive input gives its rounded value where that is a register value, and 0x7FF elsewhere. -/
theorem gbRegister_of_pos {q : ℚ} (hq : 0 < q) :
    gbRegister (.finite q) = if 0 ≤ ⌊2048 - 131072 / q + 1 / 2⌋ ∧ ⌊2048 - 131072 / q + 1 / 2⌋ ≤ 0x7FF
      then ⌊2048 - 131072 / q + 1 / 2⌋.toNat else 0x7FF := by
  have hrange : (⌊2048 - 131072 / q + 1 / 2⌋ < 0 ∨ (Config.freqMax : ℤ) < ⌊2048 - 131072 / q + 1 / 2⌋) ↔
      ¬(0 ≤ ⌊2048 - 131072 / q + 1 / 2⌋ ∧ ⌊2048 - 131072 / q + 1 / 2⌋ ≤ 0x7FF) := by
    rw [not_and_or, not_le, not_le]
    rfl
  simp only [gbRegister, roundHalfUp, if_neg hq.not_ge, hrange, ite_not]
  rfl

theorem gbRegister_of_nonpos {q : ℚ} (hq : q ≤ 0) : gbRegister (.finite q) = 0x7FF := if_pos hq

/-- Below 0x7FF a register value is given only by the frequencies that round to it. -/
theorem gbRegister_eq_iff_floor {q : ℚ} (hq : 0 < q) {r : Nat} (hr : r < 0x7FF) :
    gbRegister (.finite q) = r ↔ ⌊2048 - 131072 / q + 1 / 2⌋ = r := by
  rw [gbRegister_of_pos hq]
  split_ifs with h <;> omega

/-- R434's interval: the frequencies that round to `r`. -/
theorem floor_eq_iff_interval {q : ℚ} (hq : 0 < q) {r : Nat} (hr : r < 0x7FF) :
    ⌊2048 - 131072 / q + 1 / 2⌋ = r ↔
      131072 / (2048 + 1 / 2 - (r : ℚ)) ≤ q ∧ q < 131072 / (2047 + 1 / 2 - (r : ℚ)) := by
  have hr' : (r : ℚ) + 1 ≤ 0x7FF := by exact_mod_cast hr
  have hlow : (0 : ℚ) < 2048 + 1 / 2 - r := by linarith
  have hhigh : (0 : ℚ) < 2047 + 1 / 2 - r := by linarith
  rw [Int.floor_eq_iff, Int.cast_natCast, div_le_comm₀ hlow hq, lt_div_comm₀ hq hhigh]
  exact ⟨fun ⟨hge, hlt⟩ => ⟨by linarith, by linarith⟩, fun ⟨hle, hgt⟩ => ⟨by linarith, by linarith⟩⟩

theorem gbRegister_eq_iff_interval (q : ℚ) {r : Nat} (hr : r < 0x7FF) :
    gbRegister (.finite q) = r ↔
      131072 / (2048 + 1 / 2 - (r : ℚ)) ≤ q ∧ q < 131072 / (2047 + 1 / 2 - (r : ℚ)) := by
  rcases le_or_gt q 0 with hq | hq
  · have hr' : (r : ℚ) + 1 ≤ 0x7FF := by exact_mod_cast hr
    have hpos : 0 < 131072 / (2048 + 1 / 2 - (r : ℚ)) := div_pos (by norm_num) (by linarith)
    rw [gbRegister_of_nonpos hq]
    exact ⟨fun h => absurd h hr.ne', fun ⟨h, _⟩ => absurd (hpos.trans_le h) hq.not_gt⟩
  · exact (gbRegister_eq_iff_floor hq hr).trans (floor_eq_iff_interval hq hr)

/-- Above every interval the rounded value is past the register's range. -/
theorem gbRegister_of_ge {q : ℚ} (hq : 262144 ≤ q) : gbRegister (.finite q) = 0x7FF := by
  have hpos : 0 < q := by linarith
  have hdiv : 131072 / q ≤ 1 / 2 := (div_le_iff₀ hpos).2 (by linarith)
  have hfloor : 2048 ≤ ⌊2048 - 131072 / q + 1 / 2⌋ := Int.le_floor.2 (by push_cast; linarith)
  rw [gbRegister_of_pos hpos, if_neg (by omega)]

/-! ## The frequency of a register value (R430) -/

/-- The divisor of R430 lies between 1 and 2048. -/
theorem gbDivisor_mem_Icc (reg : Nat) : (2048 : ℚ) - (min reg 0x7FF : ℕ) ∈ Set.Icc 1 2048 := by
  have hmin : ((min reg 0x7FF : ℕ) : ℚ) ≤ 0x7FF := by exact_mod_cast min_le_right reg 0x7FF
  exact ⟨by linarith, sub_le_self _ (Nat.cast_nonneg _)⟩

theorem gbHertz_mul (reg : Nat) : gbHertz reg * (2048 - (min reg 0x7FF : ℕ)) = 131072 := by
  obtain ⟨hone, -⟩ := gbDivisor_mem_Icc reg
  exact div_mul_cancel₀ _ (zero_lt_one.trans_le hone).ne'

theorem gbHertz_mem_Icc (reg : Nat) : gbHertz reg ∈ Set.Icc 64 131072 := by
  obtain ⟨hone, hle⟩ := gbDivisor_mem_Icc reg
  have hpos := zero_lt_one.trans_le hone
  exact ⟨(le_div_iff₀ hpos).2 (by linarith), (div_le_iff₀ hpos).2 (by linarith)⟩

/-- A register value's own frequency rounds back to it (R433). -/
theorem gbRegister_gbHertz {reg : Nat} (h : reg ≤ 0x7FF) : gbRegister (.finite (gbHertz reg)) = reg := by
  have hmul := gbHertz_mul reg
  obtain ⟨hle, -⟩ := gbHertz_mem_Icc reg
  have hpos : 0 < gbHertz reg := by linarith
  rw [min_eq_left h] at hmul
  have hdiv : 131072 / gbHertz reg = 2048 - reg := by rw [← hmul, mul_div_cancel_left₀ _ hpos.ne']
  have hfloor : ⌊2048 - 131072 / gbHertz reg + 1 / 2⌋ = reg := by
    rw [hdiv, sub_sub_cancel, Int.floor_natCast_add]
    norm_num
  rw [gbRegister_of_pos hpos, hfloor, if_pos (by omega), Int.toNat_natCast]

/-! ## What the two operations answer -/

theorem exec_toGbFreq_eq_iff {hz : HostFloat} {s : State} {r : Nat} :
    exec (.toGbFreq hz) s = .next { s with returned := .nat r } ↔ gbRegister hz = r := by
  constructor
  · intro h
    exact Returned.nat.inj (congrArg State.returned (Host.Outcome.next.inj h))
  · rintro rfl
    rfl

theorem eq_gbHertz_of_exec_fromGbFreq {reg : Nat} {hz : ℚ} {s : State}
    (h : exec (.fromGbFreq reg) s = .next { s with returned := .out (.floatOut hz) }) : hz = gbHertz reg :=
  (OutVal.floatOut.inj (Returned.out.inj (congrArg State.returned (Host.Outcome.next.inj h)))).symm

/-- Settles O52, by the interval in which the rounded value is the register value. -/
theorem conversionsRoundTrip : Obligations.ConversionsRoundTrip := by
  refine ⟨fun reg hz s hreg h => ?_, fun r q s hr => ?_, fun q s hq => ?_⟩
  · obtain rfl := eq_gbHertz_of_exec_fromGbFreq h
    exact exec_toGbFreq_eq_iff.2 (gbRegister_gbHertz hreg)
  · exact exec_toGbFreq_eq_iff.trans (gbRegister_eq_iff_interval q hr)
  · exact exec_toGbFreq_eq_iff.2 (gbRegister_of_ge hq)

/-- Settles O50: the divisor lies between 1 and 2048. -/
theorem fromGbFreqIsTheFormula : Obligations.FromGbFreqIsTheFormula := fun reg _ =>
  ⟨gbHertz reg, rfl, gbHertz_mul reg, gbHertz_mem_Icc reg⟩

/-- Settles O51, by the kind of the input and, for a positive one, by the range of the rounded value. -/
theorem toGbFreqRoundsHalfUp : Obligations.ToGbFreqRoundsHalfUp := by
  refine ⟨fun hz s h => exec_toGbFreq_eq_iff.2 ?_, fun q s hq => ⟨_, rfl, ?_⟩⟩
  · obtain rfl | rfl | rfl | ⟨q, rfl, hq⟩ := h
    · rfl
    · rfl
    · rfl
    · exact gbRegister_of_nonpos hq
  · rw [gbRegister_of_pos hq]
    split_ifs with h
    · exact Int.toNat_of_nonneg h.1
    · rfl

end Sys2Proof.Machine

/-! PROOFS. 60_exceptions.md: which calls are refused at the boundary (O2, O3), and that every well-formed
operation on an instance that exists completes (O9). -/

namespace Sys2Proof

/-! ## Byte images that are no row of R101 (R456) -/

theorem decodeInternalRow_of_gt {row : Nat} (h : 37 < row) (t : Target) (bs : List Byte) :
    decodeInternalRow row t bs = .error .noSuchRow := by
  obtain ⟨n, rfl⟩ := Nat.exists_eq_add_of_le' h
  rfl

theorem decodeRow_of_no_row {row : Nat} (h : row = 0 ∨ 37 < row) (t : Target) (bs : List Byte) :
    decodeRow row t bs = .error .noSuchRow := by
  rcases h with rfl | h
  · rfl
  · rw [decodeRow, if_neg (by omega), if_neg (by omega), if_neg (by omega), decodeInternalRow_of_gt h]

/-- A row number outside R101's table is no row, on a target that exists or not. -/
theorem decodeCall_of_no_row {row : Byte} (h : row.toNat = 0 ∨ 37 < row.toNat) (target : Byte)
    (args : List Byte) : decodeCall (row :: target :: args) = .error .noSuchRow := by
  have hop : decodeOp (row :: target :: args) = .error .noSuchRow := by
    cases ht : Target.ofCode target with
    | none =>
      have hout : ¬(1 ≤ row.toNat ∧ row.toNat ≤ 37) := by omega
      simp only [decodeOp, ht, if_neg hout]
    | some t => simp only [decodeOp, ht, decodeRow_of_no_row h]
  rw [decodeCall, hop]

end Sys2Proof

namespace Sys2Proof.Machine

/-! ## Refusals at the call boundary (R455, R456) -/

theorem step_of_refused {s : State} {c : PendingCall} {rest : List PendingCall} {r : Refusal}
    (hcalls : s.calls = c :: rest) (hadm : admission c = .error r) : step s = .refused r := by
  simp only [step, hcalls, hadm]

theorem admission_of_decode_error {c : PendingCall} {e : DecodeError} (he : decodeCall c.bytes = .error e) :
    admission c = .error .noSuchOperation := by
  simp only [admission, he]

theorem admission_of_host_internal {c : PendingCall} {i : Instr} (hi : decodeCall c.bytes = .ok i)
    (hhost : c.caller = .host) (hrow : 32 ≤ i.row) : admission c = .error .noSuchOperation := by
  simp only [admission, hi, if_pos (And.intro hhost ((isInternal_iff i).2 hrow))]

theorem admission_of_busy {c : PendingCall} {i : Instr} {a : Agent} (hi : decodeCall c.bytes = .ok i)
    (hcaller : c.caller = .host → i.row ≤ 31) (ha : agentOf i = some a) (hbusy : a ∈ c.busy) :
    admission c = .error .overlap := by
  have hrow : ¬(c.caller = .host ∧ isInternal i = true) := fun ⟨hhost, hint⟩ =>
    absurd ((isInternal_iff i).1 hint) (Nat.lt_succ_of_le (hcaller hhost)).not_ge
  simp only [admission, hi, if_neg hrow, if_pos ((overlaps_iff c i).2 ⟨a, ha, hbusy⟩)]

/-- An operation of an instance there is not is no operation (R456). -/
theorem exec_of_missing_osc {i : Instr} {k : Nat} {s : State} (ha : agentOf i = some (.osc k))
    (hk : s.oscs.length ≤ k) : exec i s = .refused .noSuchOperation := by
  have hnone : s.oscs[k]? = none := List.getElem?_eq_none hk
  cases i with
  | oscSetFrequency | oscSetWaveform | oscSetMuted | oscQuery | generate =>
    obtain rfl := Agent.osc.inj (Option.some.inj ha)
    exact withOsc_none hnone _
  | _ => simp [agentOf] at ha

/-- Settles O2: the boundary refuses what does not decode and a host's internal row, and the decoder knows
neither other rows nor a row on a channel without its capability. -/
theorem unknownOperationIsRefused : Obligations.UnknownOperationIsRefused :=
  ⟨fun _ _ _ _ hcalls he => step_of_refused hcalls (admission_of_decode_error he),
    fun _ _ _ _ hcalls hi hhost hrow => step_of_refused hcalls (admission_of_host_internal hi hhost hrow),
    fun _ => ⟨rfl, rfl, rfl, rfl⟩,
    fun _ target args hrow => decodeCall_of_no_row hrow target args,
    fun _ _ _ ha hk => exec_of_missing_osc ha hk⟩

/-! ## What a meaning answers (R450, R454, R456) -/

/-- The outcome is a next state, with the parameters and the pending calls of `s`. -/
def Completes (s : State) (x : Host.Outcome State Fault Refusal) : Prop :=
  ∃ t, x = .next t ∧ t.params = s.params ∧ t.calls = s.calls

section Meanings

variable {s t : State}

theorem completes_next (hparams : t.params = s.params) (hcalls : t.calls = s.calls) :
    Completes s (.next t) := ⟨t, rfl, hparams, hcalls⟩

/-- A guarded operation completes where its guard holds. -/
theorem completes_guarded {p : Prop} [Decidable p] {r : Refusal} (hp : p) (hparams : t.params = s.params)
    (hcalls : t.calls = s.calls) : Completes s (if p then .next t else .refused r) := by
  rw [if_pos hp]
  exact completes_next hparams hcalls

/-- An operation of an instance that exists completes where its effect on the instance does. -/
theorem completes_withOsc {k : Nat} {f : Osc → Host.Outcome State Fault Refusal} (hk : k < s.oscs.length)
    (hf : ∀ o, s.oscs[k]? = some o → Completes s (f o)) : Completes s (withOsc s k f) := by
  have ho := List.getElem?_eq_getElem hk
  rw [withOsc_some ho]
  exact hf _ ho

end Meanings

theorem completes_exec {i : Instr} {s : State} (hi : i.wellFormed = true)
    (hosc : ∀ k, agentOf i = some (.osc k) → k < s.oscs.length)
    (hwave : ∀ k w o, i = .oscSetWaveform k w → s.oscs[k]? = some o → w.length = o.l) :
    Completes s (exec i s) := by
  cases i with
  | setWaveform | fillStereo | fillInterleaved =>
    exact completes_guarded (by simpa [Instr.wellFormed] using hi) rfl rfl
  | oscNew => exact completes_guarded (by simpa [Instr.wellFormed, and_assoc] using hi) rfl rfl
  | oscSetFrequency | oscSetMuted | oscQuery =>
    exact completes_withOsc (hosc _ rfl) fun _ _ => completes_next rfl rfl
  | oscSetWaveform =>
    exact completes_withOsc (hosc _ rfl) fun _ ho => completes_guarded (hwave _ _ _ rfl ho) rfl rfl
  | generate =>
    exact completes_withOsc (hosc _ rfl) fun _ _ =>
      completes_guarded (by simpa [Instr.wellFormed] using hi) rfl rfl
  | _ => exact completes_next rfl rfl

/-- Settles O9, by the kinds of operation: unguarded, guarded by its sizes, and of an instance. -/
theorem everyOperationCompletes : Obligations.EveryOperationCompletes := fun _ _ hi hosc hwave =>
  completes_exec hi hosc hwave

/-! ## Overlap is the boundary's refusal alone (R455) -/

/-- The outcome is not the refusal Overlap. -/
def NoOverlap (x : Host.Outcome State Fault Refusal) : Prop := x ≠ .refused .overlap

theorem noOverlap_next (t : State) : NoOverlap (.next t) := nofun

theorem noOverlap_guarded {p : Prop} [Decidable p] {t : State} {r : Refusal} (hr : r ≠ .overlap) :
    NoOverlap (if p then .next t else .refused r) :=
  iteInduction (fun _ => noOverlap_next t) fun _ h => hr (Host.Outcome.refused.inj h)

theorem noOverlap_withOsc {s : State} {k : Nat} {f : Osc → Host.Outcome State Fault Refusal}
    (hf : ∀ o, NoOverlap (f o)) : NoOverlap (withOsc s k f) := by
  cases ho : s.oscs[k]? with
  | none => simp [NoOverlap, withOsc_none ho]
  | some o => exact withOsc_some ho f ▸ hf o

/-- No meaning refuses with Overlap. -/
theorem noOverlap_exec (i : Instr) (s : State) : NoOverlap (exec i s) := by
  cases i with
  | setWaveform | fillStereo | fillInterleaved | oscNew => exact noOverlap_guarded nofun
  | oscSetFrequency | oscSetMuted | oscQuery => exact noOverlap_withOsc fun _ => noOverlap_next _
  | oscSetWaveform | generate => exact noOverlap_withOsc fun _ => noOverlap_guarded nofun
  | _ => exact noOverlap_next _

/-- A call on an agent that is not busy is admitted, or refused as a host call of an internal row. -/
theorem noOverlap_step {s : State} {c : PendingCall} {rest : List PendingCall} {i : Instr}
    (hcalls : s.calls = c :: rest) (hi : decodeCall c.bytes = .ok i)
    (hidle : ∀ a, agentOf i = some a → a ∉ c.busy) : NoOverlap (step s) := by
  by_cases hcaller : c.caller = .host → i.row ≤ 31
  · rw [step_of_admitted hcalls (admission_of_decoded hi hcaller hidle)]
    exact noOverlap_exec i _
  · obtain ⟨hhost, hrow⟩ := Classical.not_imp.1 hcaller
    rw [step_of_refused hcalls (admission_of_host_internal hi hhost (not_le.1 hrow))]
    exact nofun

/-- Settles O3: the boundary refuses a call on a busy agent, and neither it nor a meaning so refuses another. -/
theorem overlapIsRefused : Obligations.OverlapIsRefused :=
  ⟨fun _ _ _ _ _ hcalls hi hcaller ha hbusy =>
    step_of_refused hcalls (admission_of_busy hi hcaller ha hbusy),
    fun _ _ _ _ hcalls hi hidle => noOverlap_step hcalls hi hidle⟩

end Sys2Proof.Machine

/-! PROOFS. 70_reset_and_hazards.md: consecutive blocks of an Osc join without a seam (O60).

An occurrence of the second block is one of the joint block `a` samples later, with the same SINC row. So the
working buffer of the joint block is the first `a` elements of the first block's, followed by the second
block's, whose leftover is the rest of the first (`Osc.working_add`). -/

namespace Sys2Proof.Machine

/-! ## The phase after two blocks (R391, R399) -/

/-- `x mod y` is the one number in [0, y) that is whole periods away from `x`. -/
theorem ratMod_eq_of_add_mul {x v y : ℚ} (h0 : 0 ≤ v) (h : v < y) (n : ℤ) (hx : x = v + n * y) :
    ratMod x y = v := by
  rw [hx, ratMod_add_int_mul (h0.trans_lt h), ratMod_of_lt h0 h]

theorem Osc.phaseAfter_add {o : Osc} (h : 0 < o.spp) (a b : Nat) :
    o.phaseAfter (a + b) = ratMod (o.phaseAfter a + b) o.spp := by
  have hsplit : o.phase + (a + b : ℕ) =
      o.phaseAfter a + b + (⌊(o.phase + a) / o.spp⌋ : ℤ) * o.spp := by
    simp only [phaseAfter, ratMod]
    push_cast
    ring
  rw [phaseAfter, hsplit, ratMod_add_int_mul h]

/-! ## The occurrences of two blocks (R392) -/

section

variable {o p : Osc} {a : Nat} (hspp : 0 < o.spp) (hp : p.spp = o.spp) (hphase : p.phase = o.phaseAfter a)
include hspp hp hphase

/-- After `a` samples a transition waits for the first of its occurrences that those did not hold. -/
theorem Osc.wait_of_phaseAfter (d : Delta) :
    p.wait d = o.wait d + o.occurrenceCount a d * o.spp - a := by
  have hcount := lt_occurrenceCount hspp a d
  have hnotYet : a ≤ o.wait d + o.occurrenceCount a d * o.spp :=
    not_lt.1 fun hlt => lt_irrefl _ ((hcount _).2 hlt)
  have hinside : o.wait d + o.occurrenceCount a d * o.spp < a + o.spp := by
    rcases Nat.eq_zero_or_pos (o.occurrenceCount a d) with h0 | hpos
    · have hwait : o.wait d < o.spp := (ratMod_range hspp).2
      have ha : (0 : ℚ) ≤ a := Nat.cast_nonneg a
      rw [h0, Nat.cast_zero]
      linarith
    · have hlast := (hcount _).1 (Nat.sub_one_lt_of_lt hpos)
      rw [Nat.cast_sub hpos, Nat.cast_one] at hlast
      linarith
  rw [wait, hp, hphase]
  refine ratMod_eq_of_add_mul (sub_nonneg.2 hnotYet) (by linarith)
    (⌊(d.location - o.phase) / o.spp⌋ + ⌊(o.phase + a) / o.spp⌋ - o.occurrenceCount a d) ?_
  simp only [wait, phaseAfter, ratMod]
  push_cast
  ring

theorem Osc.occurrenceCount_add (b : Nat) (d : Delta) :
    o.occurrenceCount (a + b) d = o.occurrenceCount a d + p.occurrenceCount b d := by
  have hwait := wait_of_phaseAfter hspp hp hphase d
  have hcount := lt_occurrenceCount hspp a d
  refine eq_of_forall_lt_iff fun m => ?_
  rw [lt_occurrenceCount hspp]
  rcases lt_or_ge m (o.occurrenceCount a d) with hm | hm
  · have ha : o.wait d + m * o.spp < (a + b : ℕ) :=
      ((hcount m).1 hm).trans_le (by exact_mod_cast Nat.le_add_right a b)
    exact iff_of_true ha (Nat.lt_add_right _ hm)
  · obtain ⟨k, rfl⟩ := Nat.exists_eq_add_of_le hm
    rw [Nat.add_lt_add_iff_left, lt_occurrenceCount (hp ▸ hspp), hwait, hp]
    push_cast
    constructor <;> intro h <;> linarith

/-- The occurrences of the joint block: those of the first block, then those of the second, later by `a`. -/
theorem Osc.occurrences_add (b : Nat) (d : Delta) :
    o.occurrences (a + b) d = o.occurrences a d ++ (p.occurrences b d).map (· + (a : ℚ)) := by
  have hlater : ∀ k : Nat, 7 + o.wait d + (o.occurrenceCount a d + k : ℕ) * o.spp =
      7 + p.wait d + k * p.spp + a := fun k => by
    rw [wait_of_phaseAfter hspp hp hphase, hp]
    push_cast
    ring
  simp only [occurrences_eq, occurrenceCount_add hspp hp hphase, List.range_add, List.map_append,
    List.map_map, Function.comp_def, hlater]

end

/-! ## The taps of two blocks (R395) -/

/-- An occurrence later by `a` samples puts its taps `a` elements later. -/
theorem firstTap_add {τ : ℚ} (h : 7 ≤ τ) (a : Nat) : firstTap (τ + a) = a + firstTap τ := by
  have ha : (0 : ℚ) ≤ a := Nat.cast_nonneg a
  have hτ := firstTap_cast h
  have hlater := firstTap_cast (τ := τ + a) (by linarith)
  rw [Int.floor_add_natCast] at hlater
  omega

/-- The taps' row depends on the fraction of the time alone. -/
theorem sincRow_add (τ : ℚ) (a : Nat) : sincRow (τ + a) = sincRow τ := by
  simp only [sincRow, Int.floor_add_natCast, Int.cast_add, Int.cast_natCast, add_sub_add_right_eq_sub]

/-- What one occurrence of a step adds to element `j` (R395). -/
def tapOn (t : SincTable) (c : ℚ) (j : Nat) (τ : ℚ) : ℚ :=
  if firstTap τ ≤ j ∧ j ≤ firstTap τ + 14 then stepTap t c (sincRow τ) (j - firstTap τ) else 0

theorem Osc.tapsOn_eq (t : SincTable) (o : Osc) (n j : Nat) (d : Delta) :
    o.tapsOn t n j d = ((o.occurrences n d).map (tapOn t d.change j)).sum := rfl

theorem tapOn_add_of_lt (t : SincTable) (c : ℚ) {τ : ℚ} (h : 7 ≤ τ) {a j : Nat} (hj : j < a) :
    tapOn t c j (τ + a) = 0 := by
  rw [tapOn, firstTap_add h, if_neg (by omega)]

theorem tapOn_add (t : SincTable) (c : ℚ) {τ : ℚ} (h : 7 ≤ τ) (a i : Nat) :
    tapOn t c (a + i) (τ + a) = tapOn t c i τ := by
  simp only [tapOn, firstTap_add h, sincRow_add, Nat.add_assoc, Nat.add_le_add_iff_left,
    Nat.add_sub_add_left]

/-- The taps of a block of `n` samples end before element `n + 14`. -/
theorem Osc.tapsOn_of_ge (t : SincTable) {o : Osc} (hspp : 0 < o.spp) {n j : Nat} (hj : n + 14 ≤ j)
    (d : Delta) : o.tapsOn t n j d = 0 := by
  refine List.sum_eq_zero fun x hx => ?_
  obtain ⟨τ, hτ, rfl⟩ := List.mem_map.1 hx
  have := firstTap_of_mem_occurrences hspp hτ
  exact if_neg (by omega)

section

variable (t : SincTable) {o p : Osc} {a : Nat} (hspp : 0 < o.spp) (hp : p.spp = o.spp)
  (hphase : p.phase = o.phaseAfter a)
include hspp hp hphase

/-- The elements of the first block get no tap of the second. -/
theorem Osc.tapsOn_add_of_lt (b : Nat) {j : Nat} (hj : j < a) (d : Delta) :
    o.tapsOn t (a + b) j d = o.tapsOn t a j d := by
  have hnone : ((p.occurrences b d).map fun τ => tapOn t d.change j (τ + a)).sum = 0 := by
    refine List.sum_eq_zero fun x hx => ?_
    obtain ⟨τ, hτ, rfl⟩ := List.mem_map.1 hx
    exact tapOn_add_of_lt t d.change (seven_le_of_mem_occurrences (hp ▸ hspp) hτ) hj
  rw [tapsOn_eq, occurrences_add hspp hp hphase, List.map_append, List.sum_append, List.map_map,
    Function.comp_def, hnone, add_zero, tapsOn_eq]

/-- From element `a` on, the taps of the first block's occurrences and of the second's are added. -/
theorem Osc.tapsOn_add (b i : Nat) (d : Delta) :
    o.tapsOn t (a + b) (a + i) d = o.tapsOn t a (a + i) d + p.tapsOn t b i d := by
  have hsame : (p.occurrences b d).map (fun τ => tapOn t d.change (a + i) (τ + a)) =
      (p.occurrences b d).map (tapOn t d.change i) := List.map_congr_left fun τ hτ =>
    tapOn_add t d.change (seven_le_of_mem_occurrences (hp ▸ hspp) hτ) a i
  rw [tapsOn_eq, occurrences_add hspp hp hphase, List.map_append, List.sum_append, List.map_map,
    Function.comp_def, hsame, tapsOn_eq, tapsOn_eq]

end

/-! ## The working buffer of two blocks (R394, R395) -/

theorem Osc.leftover_afterBlock (t : SincTable) (o : Osc) (n : Nat) :
    (o.afterBlock t n).leftover = (List.range 14).map fun j => (o.working t n).getD (n + j) 0 := rfl

section

variable (t : SincTable) {o : Osc} (hspp : 0 < o.spp) (a b : Nat)
include hspp

theorem Osc.getD_working_add_of_lt {j : Nat} (hj : j < a) :
    (o.working t (a + b)).getD j 0 = (o.working t a).getD j 0 := by
  have htaps := fun d => tapsOn_add_of_lt t (p := o.afterBlock t a) hspp rfl rfl b hj d
  rw [(working_spec t hspp (a + b) j).2, (working_spec t hspp a j).2, getD_carried o (by omega),
    getD_carried o (by omega), List.map_congr_left fun d _ => htaps d]

/-- What the first block puts into elements from its end on: its leftover, and nothing past that. -/
theorem Osc.getD_leftover_afterBlock (i : Nat) :
    (if i ≤ 13 then (o.afterBlock t a).leftover.getD i 0 else 0) =
      (if a + i ≤ 13 then o.leftover.getD (a + i) 0 else 0) +
        (o.deltas.map (o.tapsOn t a (a + i))).sum := by
  rcases Nat.lt_or_ge i 14 with hi | hi
  · have hlast : (o.afterBlock t a).leftover.getD i 0 = (o.working t a).getD (a + i) 0 := by
      simp [leftover_afterBlock, List.getElem?_range hi]
    rw [if_pos (Nat.le_of_lt_succ hi), hlast, (working_spec t hspp a (a + i)).2, getD_carried o (by omega)]
  · have htaps : ∀ d, o.tapsOn t a (a + i) d = 0 := tapsOn_of_ge t hspp (by omega)
    rw [if_neg (by omega), if_neg (by omega), zero_add, List.sum_eq_zero fun x hx => ?_]
    obtain ⟨d, -, rfl⟩ := List.mem_map.1 hx
    exact htaps d

/-- The second block finds in its leftover what the first put past its end. -/
theorem Osc.getD_working_add {i : Nat} (hi : i < b + 14) :
    (o.working t (a + b)).getD (a + i) 0 = ((o.afterBlock t a).working t b).getD i 0 := by
  have hspp' : 0 < (o.afterBlock t a).spp := hspp
  have htaps := fun d => tapsOn_add t (p := o.afterBlock t a) hspp rfl rfl b i d
  rw [(working_spec t hspp (a + b) (a + i)).2, (working_spec t hspp' b i).2, getD_carried o (by omega),
    getD_carried _ hi, getD_leftover_afterBlock t hspp, List.map_congr_left fun d _ => htaps d,
    List.sum_map_add, add_assoc]
  rfl

theorem Osc.length_take_working : ((o.working t a).take a).length = a := by
  rw [List.length_take, length_working t hspp, Nat.min_eq_left (Nat.le_add_right a 14)]

/-- The joint block's buffer: the first block's samples, then the second block's buffer. -/
theorem Osc.working_add :
    o.working t (a + b) = (o.working t a).take a ++ (o.afterBlock t a).working t b := by
  have hjoint := length_working t hspp (a + b)
  have hfirst := length_take_working t hspp a
  have hsecond := length_working t (o := o.afterBlock t a) hspp b
  refine List.ext_getElem (by rw [List.length_append]; omega) fun j hj hj' => ?_
  rw [← List.getD_eq_getElem _ 0 hj, ← List.getD_eq_getElem _ 0 hj']
  rcases lt_or_ge j a with hlt | hge
  · rw [getD_working_add_of_lt t hspp a b hlt, List.getD_append _ _ _ _ (by omega)]
    rw [List.getD_eq_getElem?_getD, List.getD_eq_getElem?_getD, List.getElem?_take_of_lt hlt]
  · obtain ⟨i, rfl⟩ := Nat.exists_eq_add_of_le hge
    rw [getD_working_add t hspp a b (by omega), List.getD_append_right _ _ _ _ (by omega), hfirst,
      Nat.add_sub_cancel_left]

end

/-! ## The samples and the instance (R398, R399) -/

theorem runningSums_append (x : ℚ) (xs ys : List ℚ) :
    runningSums x (xs ++ ys) = runningSums x xs ++ runningSums (x + xs.sum) ys := by
  induction xs generalizing x with
  | nil => simp [runningSums]
  | cons y xs ih => simp [runningSums, ih, add_assoc]

section

variable (t : SincTable) {o : Osc} (hspp : 0 < o.spp) (a b : Nat)
include hspp

theorem Osc.take_working_add : (o.working t (a + b)).take (a + b) =
    (o.working t a).take a ++ ((o.afterBlock t a).working t b).take b := by
  have hfirst := length_take_working t hspp a
  rw [working_add t hspp, List.take_append, hfirst, Nat.add_sub_cancel_left,
    List.take_of_length_le (hfirst.trans_le (Nat.le_add_right a b))]

/-- The second block goes on from the seed that the first carries, its last sample. -/
theorem Osc.samples_add :
    o.samples t (a + b) = o.samples t a ++ (o.afterBlock t a).samples t b := by
  rw [samples, take_working_add t hspp, runningSums_append, ← seed_afterBlock]
  rfl

theorem Osc.afterBlock_add : o.afterBlock t (a + b) = (o.afterBlock t a).afterBlock t b := by
  have hseed : (o.afterBlock t (a + b)).seed = ((o.afterBlock t a).afterBlock t b).seed := by
    simp only [seed_afterBlock, take_working_add t hspp, List.sum_append, add_assoc]
  have hleftover : (o.afterBlock t (a + b)).leftover = ((o.afterBlock t a).afterBlock t b).leftover := by
    rw [leftover_afterBlock, leftover_afterBlock]
    refine List.map_congr_left fun j hj => ?_
    rw [Nat.add_assoc, getD_working_add t hspp a b (Nat.add_lt_add_left (List.mem_range.1 hj) b)]
  refine Osc.eq_of_get fun f => ?_
  cases f with
  | seed => exact congrArg Returned.rat hseed
  | leftover => exact congrArg Returned.rats hleftover
  | phase => exact congrArg Returned.rat (phaseAfter_add hspp a b)
  | _ => rfl

end

/-- What a block that is not empty clears, two blocks clear where one of them is not empty. -/
theorem ite_add_pos {α : Type} (a b : Nat) (x y : α) :
    (if 0 < a + b then x else y) = if 0 < b then x else if 0 < a then x else y := by
  rcases Nat.eq_zero_or_pos b with rfl | hb
  · rfl
  · rw [if_pos (Nat.add_pos_right a hb), if_pos hb]

theorem Osc.afterMuted_add {o : Osc} (hspp : 0 < o.spp) (a b : Nat) :
    o.afterMuted (a + b) = (o.afterMuted a).afterMuted b := by
  refine Osc.eq_of_get fun f => ?_
  cases f with
  | seed => exact congrArg Returned.rat (ite_add_pos a b _ _)
  | leftover => exact congrArg Returned.rats (ite_add_pos a b _ _)
  | phase => exact congrArg Returned.rat (phaseAfter_add hspp a b)
  | _ => rfl

/-! ## Two calls of generate (R390, R493) -/

theorem Osc.refresh_of_clean {o : Osc} (h : o.dirty = false) : o.refresh = o := by
  rw [refresh, h, if_neg Bool.false_ne_true]

section

variable (t : SincTable) {o : Osc} (n : Nat)

theorem Osc.generated_of_muted (h : o.muted = true) : o.generated t n = List.replicate n 0 :=
  if_pos (o.muted_refresh.trans h)

theorem Osc.generated_of_unmuted (h : o.muted = false) : o.generated t n = o.refresh.samples t n := by
  rw [generated, muted_refresh, h, if_neg Bool.false_ne_true]

theorem Osc.afterGenerate_of_muted (h : o.muted = true) : o.afterGenerate t n = o.refresh.afterMuted n :=
  if_pos (o.muted_refresh.trans h)

theorem Osc.afterGenerate_of_unmuted (h : o.muted = false) :
    o.afterGenerate t n = o.refresh.afterBlock t n := by
  rw [afterGenerate, muted_refresh, h, if_neg Bool.false_ne_true]

end

/-- After a block no recompute is due, so the next one goes on from the same rates. -/
theorem Osc.refresh_afterGenerate (t : SincTable) (o : Osc) (n : Nat) :
    (o.afterGenerate t n).refresh = o.afterGenerate t n :=
  refresh_of_clean (by rw [afterGenerate_eq]; exact dirty_refresh o)

@[simp] theorem Osc.muted_afterGenerate (t : SincTable) (o : Osc) (n : Nat) :
    (o.afterGenerate t n).muted = o.muted := by
  rw [afterGenerate_eq]
  exact muted_refresh o

/-- Settles O60: only the first block can be due a recompute; from there on a muted instance joins by its
phase and a sounding one by its working buffer. -/
theorem blocksJoinWithoutASeam : Obligations.BlocksJoinWithoutASeam := by
  intro t o a b h
  obtain ⟨hspp, -⟩ := Osc.refresh_phase_range h
  have hmuted := Osc.muted_afterGenerate t o a
  cases hm : o.muted with
  | true =>
    have hm' := hmuted.trans hm
    rw [Osc.generated_of_muted t _ hm, Osc.generated_of_muted t _ hm, Osc.generated_of_muted t _ hm',
      Osc.afterGenerate_of_muted t _ hm', Osc.refresh_afterGenerate, Osc.afterGenerate_of_muted t _ hm,
      Osc.afterGenerate_of_muted t _ hm]
    exact ⟨List.replicate_add .., Osc.afterMuted_add hspp a b⟩
  | false =>
    have hm' := hmuted.trans hm
    rw [Osc.generated_of_unmuted t _ hm, Osc.generated_of_unmuted t _ hm, Osc.generated_of_unmuted t _ hm',
      Osc.afterGenerate_of_unmuted t _ hm', Osc.refresh_afterGenerate, Osc.afterGenerate_of_unmuted t _ hm,
      Osc.afterGenerate_of_unmuted t _ hm]
    exact ⟨Osc.samples_add t hspp a b, Osc.afterBlock_add t hspp a b⟩

end Sys2Proof.Machine
